-- ==== Sys2Proof/Word.lean ====
section
/-! DEFINITION. The data types every rule speaks of: bytes, 32-bit words, digits, codes (R8, R9 of 00_scope.md). -/

namespace Sys2Proof

/-- A byte of BUF, 0 to 255 (R9). -/
abbrev Byte := BitVec 8

/-- A register or TREE word: 32 bits, bit 0 the least significant (R8, `REG_WIDTH` of R6). -/
abbrev Word := BitVec 32

/-- A string: a finite sequence of bytes, first byte first (R9, R61). -/
abbrev Bytes := List Byte

/-- A decimal digit, the label of one trie edge (R47, `TRIE_RADIX` of R6). -/
abbrev Digit := Fin 10

/-- A code: a sequence of bits, the branch taken at the root first (R9, R62); `false` is bit 0. -/
abbrev Code := List Bool

/-- The code table CT: 256 entries, each none or a code (R44). -/
abbrev CodeTable := Vector (Option Code) 256

/-- The tree-node memory TREE: 512 words (R43, `TREE_NODES` of R6). -/
abbrev TreeMemory := Vector Word 512

end Sys2Proof
end

