-- ==== Sys2Proof/Syntax.lean ====
section
/-! DEFINITION. The commands of the block: one constructor per row of spec/opcode_table.json (R78 of 30_encoding.md). -/

namespace Sys2Proof

/-- A legal command word (R76, R78). Only CT_LOAD carries an operand in the word, the symbol of
R77; every other operand comes from a register (R79). -/
inductive Instr where
  /-- NOP, 0x00000000 (R94). -/
  | nop
  /-- CLR_CT, 0x00000001 (R95). -/
  | clrCt
  /-- CLR_TRIE, 0x00000002 (R96). -/
  | clrTrie
  /-- CT_LOAD, 0x0000ss10 (R99); `sym` is CMD bits 15:8. -/
  | ctLoad (sym : Byte)
  /-- GEN_CODES, 0x00000011 (R100). -/
  | genCodes
  /-- HUF_ENC, 0x00000020 (R104). -/
  | hufEnc
  /-- HUF_DEC, 0x00000021 (R105). -/
  | hufDec
  /-- RLE_ENC, 0x00000030 (R109). -/
  | rleEnc
  /-- TRIE_INSERT, 0x00000031 (R111). -/
  | trieInsert
  /-- RLE_DEC, 0x00000032 (R112). -/
  | rleDec
  deriving DecidableEq, Repr

end Sys2Proof
end

