-- ==== Sys2Proof/Decode.lean ====
section
/-! DEFINITION. Command words: decoding, total on every word and rejecting by name (R76 to R80), the encoder (R78), the byte lanes (R63) and the disassembly (R87). -/

namespace Sys2Proof

/-- Why a word is illegal: the three conditions of R80. -/
inductive DecodeError where
  /-- R80.1: bits 7:0 are no opcode of R78. -/
  | unassignedOpcode
  /-- R80.2: bits 31:16 are not 0. -/
  | reservedBitsSet
  /-- R80.3: bits 15:8 are not 0 and the opcode is not CT_LOAD's. -/
  | symbolNotZero
  /-- Fewer than four bytes: no whole command word (R76, `decodeBytes` only). -/
  | truncated
  deriving DecidableEq, Repr

/-- Field OP, bits 7:0 (R76). -/
def opField (c : Word) : Byte := c.extractLsb' 0 8

/-- Field SYM, bits 15:8 (R76, R77). -/
def symField (c : Word) : Byte := c.extractLsb' 8 8

/-- The reserved bits 31:16 (R76). -/
def reservedField (c : Word) : BitVec 16 := c.extractLsb' 16 16

/-- The opcode map of R78, with the symbol operand of R77 for CT_LOAD. -/
def commandOf (op sym : Byte) : Option Instr :=
  match op with
  | 0x00#8 => some .nop
  | 0x01#8 => some .clrCt
  | 0x02#8 => some .clrTrie
  | 0x10#8 => some (.ctLoad sym)
  | 0x11#8 => some .genCodes
  | 0x20#8 => some .hufEnc
  | 0x21#8 => some .hufDec
  | 0x30#8 => some .rleEnc
  | 0x31#8 => some .trieInsert
  | 0x32#8 => some .rleDec
  | _ => none

/-- The decoder: the command of a legal word, or the condition of R80 that makes it illegal. -/
def decode (c : Word) : Except DecodeError Instr :=
  match commandOf (opField c) (symField c) with
  | none => .error .unassignedOpcode
  | some i =>
    if reservedField c ≠ 0 then .error .reservedBitsSet
    else if symField c ≠ 0 ∧ opField c ≠ 0x10#8 then .error .symbolNotZero
    else .ok i

/-- A word is illegal when one of the three conditions of R80 holds. -/
def illegal (c : Word) : Bool :=
  match decode c with
  | .ok _ => false
  | .error _ => true

/-- A command word from its two fields, bits 31:16 zero (R76). -/
def commandWord (op sym : Byte) : Word := 0#16 ++ sym ++ op

/-- The encoder: the command word of R78. -/
def encode : Instr → Word
  | .nop => commandWord 0x00 0
  | .clrCt => commandWord 0x01 0
  | .clrTrie => commandWord 0x02 0
  | .ctLoad sym => commandWord 0x10 sym
  | .genCodes => commandWord 0x11 0
  | .hufEnc => commandWord 0x20 0
  | .hufDec => commandWord 0x21 0
  | .rleEnc => commandWord 0x30 0
  | .trieInsert => commandWord 0x31 0
  | .rleDec => commandWord 0x32 0

/-- A 32-bit word from its four byte lanes, offset + 0 first (little-endian lane order, R63). -/
def wordOfLanes (b0 b1 b2 b3 : Byte) : Word := b3 ++ b2 ++ b1 ++ b0

/-- The four byte lanes of a word, offset + 0 first (R63). -/
def lanesOfWord (w : Word) : Bytes :=
  [w.extractLsb' 0 8, w.extractLsb' 8 8, w.extractLsb' 16 8, w.extractLsb' 24 8]

/-- The decoder on byte lanes: the first command of a byte sequence, and the bytes after it. Every
command is one 32-bit word (R76, R83). -/
def decodeBytes : Bytes → Except DecodeError (Instr × Bytes)
  | b0 :: b1 :: b2 :: b3 :: rest =>
    match decode (wordOfLanes b0 b1 b2 b3) with
    | .ok i => .ok (i, rest)
    | .error e => .error e
  | _ => .error .truncated

/-- The command the decoder reads from an instruction of the opcode table whose lowest `nbits` bits
are `w`, the bits above them zero. -/
def decodeTableWord (nbits w : Nat) : Option Instr :=
  match decode (BitVec.ofNat 32 (w % 2 ^ nbits)) with
  | .ok i => some i
  | .error _ => none

/-- The mnemonic of R78. -/
def mnemonic : Instr → List Char
  | .nop => ['N', 'O', 'P']
  | .clrCt => ['C', 'L', 'R', '_', 'C', 'T']
  | .clrTrie => ['C', 'L', 'R', '_', 'T', 'R', 'I', 'E']
  | .ctLoad _ => ['C', 'T', '_', 'L', 'O', 'A', 'D']
  | .genCodes => ['G', 'E', 'N', '_', 'C', 'O', 'D', 'E', 'S']
  | .hufEnc => ['H', 'U', 'F', '_', 'E', 'N', 'C']
  | .hufDec => ['H', 'U', 'F', '_', 'D', 'E', 'C']
  | .rleEnc => ['R', 'L', 'E', '_', 'E', 'N', 'C']
  | .trieInsert => ['T', 'R', 'I', 'E', '_', 'I', 'N', 'S', 'E', 'R', 'T']
  | .rleDec => ['R', 'L', 'E', '_', 'D', 'E', 'C']

/-- One hexadecimal digit, upper case as the spec writes its words (entry 13). -/
def hexDigit (n : Nat) : Char :=
  Char.ofNat (if n < 10 then 48 + n else 55 + n)

/-- The `k` lowest hexadecimal digits of a number, most significant first. -/
def hexDigits : Nat → Nat → List Char
  | 0, _ => []
  | k + 1, n => hexDigits k (n / 16) ++ [hexDigit (n % 16)]

/-- Disassembly (R87): the mnemonic of a legal word, with the symbol in two hexadecimal digits for
CT_LOAD, and `.word 0x` with eight digits for an illegal one. -/
def disassemble (c : Word) : List Char :=
  match decode c with
  | .ok (.ctLoad sym) => mnemonic (.ctLoad sym) ++ [' ', '0', 'x'] ++ hexDigits 2 sym.toNat
  | .ok i => mnemonic i
  | .error _ => ['.', 'w', 'o', 'r', 'd', ' ', '0', 'x'] ++ hexDigits 8 c.toNat

end Sys2Proof
end

