-- ==== Sys2Proof/Config.lean ====
section
/-! DEFINITION. What an implementation fixes (R6 of 00_scope.md) and the free values of the model. -/

namespace Sys2Proof

/-- `ALPHABET`: the number of symbol values (R6). -/
def Config.alphabet : Nat := 256

/-- `MAX_CODE_LEN`: the longest code in characters (R6). -/
def Config.maxCodeLen : Nat := 255

/-- `TRIE_RADIX`: children per trie node (R6). -/
def Config.trieRadix : Nat := 10

/-- `TREE_NODES`: entries of the tree-node memory (R6). -/
def Config.treeNodes : Nat := 512

/-- The size of the register window in bytes (R27). -/
def Config.windowBytes : Nat := 4096

/-- The OPEN parameters of R6 that a model takes as arguments (92_eei_decisions.md, I-7).
They stand in State as constants of the machine, so that a statement about every state holds
for every value of them. -/
structure Params where
  /-- `BUF_BYTES`: bytes in the buffer memory BUF. -/
  bufBytes : Nat
  /-- `TRIE_NODES`: capacity of the trie node pool, root included. -/
  trieNodes : Nat
  /-- `PAY_BYTES`: bytes in the trie payload store. -/
  payBytes : Nat
  /-- `REG_BASE`: platform address of the register port. -/
  regBase : Nat
  deriving DecidableEq, Repr

/-- The constraints R6 puts on the parameters. -/
abbrev Params.Wf (p : Params) : Prop :=
  (1 ≤ p.bufBytes ∧ p.bufBytes ≤ 2 ^ 32 - 1) ∧
  (1 ≤ p.trieNodes ∧ p.trieNodes ≤ 2 ^ 32 - 1) ∧
  p.payBytes ≤ 2 ^ 32 - 1

/-- The parameter values of the vectors of 95_test_vectors.md, with the register window at
platform address 0. DESIGN CHOICE, entry 1: the spec leaves the parameters OPEN. Unsafe only for
a statement about `State.reset` itself. -/
def Params.vectors : Params :=
  { bufBytes := 512, trieNodes := 16, payBytes := 256, regBase := 0 }

/-- The platform address of the register at a window offset (R27, R57). -/
def Params.platformAddr (p : Params) (off : BitVec 12) : Nat := p.regBase + off.toNat

/-- The window offset a platform address names, none outside the 4096-byte window (R27, R57):
such an access is not one of the block. -/
def Params.windowOffset (p : Params) (addr : Nat) : Option (BitVec 12) :=
  if p.regBase ≤ addr ∧ addr < p.regBase + Config.windowBytes
  then some (BitVec.ofNat 12 (addr - p.regBase)) else none

/-- The free value of R119 and I-3: the byte a failed output command leaves at one address of its
DST range, one fresh draw per argument. It has no body, so no proof can rest on a value of it
(entry 4; safe). -/
opaque Config.freeByte : Nat → Byte

end Sys2Proof
end

