-- ==== Sys2Proof/Machine/HostSyntax.lean ====
section
/-! DEFINITION. What the host sends the block and gets back (R140 of 70_reset_and_hazards.md), the registers of the window (R27 of 10_state.md) and the statements of a host program (R85 of 30_encoding.md). -/

namespace Sys2Proof.Machine

/-- The registers of the register port, by their names in R27. `reserved` stands for every offset of
0x048 to 0x7FC (R28). -/
inductive Reg where
  | id | ctrl | status | cmd
  | srcBase | srcLen | dstBase | dstCap | auxBase | auxLen
  | outLen | errPos | treeRoot | trieUsed | payUsed
  | bufSize | trieSize | paySize
  | tree (i : BitVec 9)
  | reserved
  deriving DecidableEq, Repr

/-- The two agents (R22). -/
inductive Agent where
  | host
  | engine
  deriving DecidableEq, Repr

/-- One interaction of the outside world with the block (R140). -/
inductive HostEvent where
  /-- A register read of `size` bytes at a window offset (R58). -/
  | regRead (size : Nat) (off : BitVec 12)
  /-- A register write of `size` bytes at a window offset (R58). -/
  | regWrite (size : Nat) (off : BitVec 12) (v : Word)
  /-- A buffer-port read of one byte (R59). -/
  | bufRead (a : Nat)
  /-- A buffer-port write of one byte (R59). -/
  | bufWrite (a : Nat) (v : Byte)
  /-- WAIT: a STATUS read, repeated until BUSY = 0 (R85, R86). -/
  | wait
  /-- The platform asserts the hardware reset input (R132). -/
  | hardReset
  deriving DecidableEq, Repr

/-- What a host access gives back (R140). -/
inductive PortReply where
  | none
  | word (v : Word)
  | byte (v : Byte)
  deriving DecidableEq, Repr

/-- The host's side of the model: the events it still has to perform, oldest first (R69.1); who moves
at each point where both agents can, an exhausted list meaning the engine (R145, I-6); and what the last
event gave back. The model's own fields (entry 3). -/
structure HostSide where
  pending : List HostEvent
  schedule : List Agent
  reply : PortReply
  deriving DecidableEq, Repr

/-- A statement of a host program (R85). -/
inductive HostStmt where
  /-- `W <reg>, <v>` -/
  | write (r : Reg) (v : Word)
  /-- `R <reg>` -/
  | read (r : Reg)
  /-- `WT <i>, <v>` -/
  | writeTree (i : Nat) (v : Word)
  /-- `WB <a>, "<text>"` -/
  | writeBytes (a : Nat) (text : Bytes)
  /-- `<MNEMONIC> [sym]` -/
  | command (i : Instr)
  /-- `WAIT` -/
  | wait
  deriving DecidableEq, Repr

end Sys2Proof.Machine
end

