-- ==== Sys2Proof/Machine/State.lean ====
section
/-! DEFINITION. The complete architectural state (R25 of 10_state.md), its reset value (R55) and the reasons a step can stop. -/

namespace Sys2Proof.Machine

/-- BUF or PAYMEM: the written bytes, addresses strictly rising; an address that is not listed is
unwritten and holds no value (R45, R46, R137). -/
abbrev Memory := List Host.Cell

/-- The trie: one entry per node of `K`, keyed by the node's digit sequence, keys strictly rising in
lexicographic order; the entry's value is `P` at that node, none where `P` is undefined (R47, entry 7). -/
abbrev Trie := List (List Digit × Option Bytes)

/-- The fields of STATUS (R31). Its reserved bits read 0 (R28), so they have no storage. -/
structure Status where
  busy : Bool
  done : Bool
  err : Bool
  drop : Bool
  errCode : BitVec 8
  deriving DecidableEq, Repr

/-- The fields of TREE_ROOT (R39). Its reserved bits read 0 (R28), so they have no storage. -/
structure TreeRoot where
  valid : Bool
  idx : BitVec 9
  deriving DecidableEq, Repr

/-- The block's error kinds (R116). They are completions of a command (R119, R147), not faults. -/
inductive ErrorKind where
  | allocationFailure
  | malformedRLEInput
  | invalidCountContext
  | malformedHuffmanInput
  | treeTraversalFailure
  | codeLengthExceeded
  | missingCodeEntry
  | truncatedInput
  | treeStructureFault
  | rangeFault
  | illegalCommand
  deriving DecidableEq, Repr

/-- Everything that persists between steps (R25). -/
structure State where
  /-- The parameters of R6, read back by BUF_SIZE, TRIE_SIZE and PAY_SIZE (R41). No step changes them. -/
  params : Params
  /-- CTRL.IE (R30). -/
  ie : Bool
  /-- STATUS (R31). -/
  status : Status
  /-- CMD, the last accepted command word (R33, R34). -/
  cmd : Word
  /-- SRC_BASE (R35). -/
  srcBase : Word
  /-- SRC_LEN (R35). -/
  srcLen : Word
  /-- DST_BASE (R35). -/
  dstBase : Word
  /-- DST_CAP (R35). -/
  dstCap : Word
  /-- AUX_BASE (R35). -/
  auxBase : Word
  /-- AUX_LEN (R35). -/
  auxLen : Word
  /-- OUT_LEN (R37). -/
  outLen : Word
  /-- ERR_POS (R38). -/
  errPos : Word
  /-- TREE_ROOT (R39). -/
  treeRoot : TreeRoot
  /-- TREE (R43). -/
  tree : TreeMemory
  /-- CT (R44). -/
  ct : CodeTable
  /-- BUF (R45). -/
  buf : Memory
  /-- PAYMEM (R46): written by TRIE_INSERT, read by nothing (entry 8). -/
  payMem : Memory
  /-- `K` and `P` (R47); `TU` is the number of entries. -/
  trie : Trie
  /-- `PU` (R46, R47). -/
  payUsed : Nat
  /-- How many free bytes have been drawn; the model's own field (entry 4). -/
  draws : Nat
  /-- The host's side; the model's own field (entry 3). -/
  host : HostSide
  deriving DecidableEq, Repr

/-- Why the model stops with a fault. The block raises neither (R137, R147). -/
inductive Fault where
  /-- A read of the unwritten BUF byte at `a`, by a host buffer-port read or an engine MemRead (R137,
  I-1). Safe: the real block goes on with some byte value. -/
  | unwrittenByte (a : Nat)
  /-- RLE_DEC reached a leaf that has no payload: only in states that break R49.3, which no run
  reaches (entry 11). Safe. -/
  | leafWithoutPayload
  deriving DecidableEq, Repr

/-- Why the model has no meaning for a step. -/
inductive Refusal where
  /-- An instruction with no meaning yet, by its mnemonic; raised in Dispatch.lean only. Safe. -/
  | notModelled (mnemonic : String)
  /-- A host access while BUSY = 1 other than a STATUS read or a CMD write, raised by the host port
  (R138, I-4). Safe. -/
  | busyAccess
  /-- A register access that is not 32 bits wide at a multiple of 4, raised by the host port (R58, R139,
  I-5). Safe. -/
  | accessForm
  deriving DecidableEq, Repr

/-- The host's side with nothing to do (entry 3). -/
def HostSide.idle : HostSide := { pending := [], schedule := [], reply := .none }

/-- Every register, table and memory of the block at its hardware-reset value (R55, R133), for given
parameters; `draws` and `host` belong to the model's surroundings and are given. -/
def State.resetWith (p : Params) (draws : Nat) (h : HostSide) : State :=
  { params := p
    ie := false
    status := { busy := false, done := false, err := false, drop := false, errCode := 0 }
    cmd := 0
    srcBase := 0
    srcLen := 0
    dstBase := 0
    dstCap := 0
    auxBase := 0
    auxLen := 0
    outLen := 0
    errPos := 0
    treeRoot := { valid := false, idx := 0 }
    tree := Vector.replicate 512 0
    ct := Vector.replicate 256 none
    buf := []
    payMem := []
    trie := [([], none)]
    payUsed := 0
    draws := draws
    host := h }

/-- The machine right after hardware reset (R55, R135), with the parameters of the vectors (entry 1),
no free byte drawn (entry 4) and no host event pending (entry 3). -/
def State.reset : State := State.resetWith Params.vectors 0 HostSide.idle

end Sys2Proof.Machine
end

