-- ==== Sys2Proof/Machine/Flags.lean ====
section
/-! DEFINITION. The STATUS flags: their register view (R31 of 10_state.md), who sets and clears each (R51), the error codes (R116 of 60_exceptions.md), the interrupt level (R52) and the completion record (R118, R119). -/

namespace Sys2Proof.Machine

/-- `NOPOS` (R11, R116). -/
def noPos : Word := 0xFFFFFFFF

/-- The error codes of R116. -/
def ErrorKind.code : ErrorKind → BitVec 8
  | .allocationFailure => 0x01
  | .malformedRLEInput => 0x02
  | .invalidCountContext => 0x03
  | .malformedHuffmanInput => 0x04
  | .treeTraversalFailure => 0x05
  | .codeLengthExceeded => 0x06
  | .missingCodeEntry => 0x07
  | .truncatedInput => 0x08
  | .treeStructureFault => 0x09
  | .rangeFault => 0x0A
  | .illegalCommand => 0x0B

/-- The STATUS register as the host reads it: BUSY bit 0, DONE bit 1, ERR bit 2, DROP bit 3, ERRCODE
bits 15:8, the rest 0 (R31, R28). -/
def Status.word (f : Status) : Word :=
  0#16 ++ f.errCode ++ 0#4 ++ BitVec.ofBool f.drop ++ BitVec.ofBool f.err ++ BitVec.ofBool f.done
    ++ BitVec.ofBool f.busy

/-- A STATUS write while BUSY = 0: write-one-to-clear on DONE, ERR (with ERRCODE) and DROP (R32). ERR_POS is no part
of it: DESIGN CHOICE between R32's list and R122's 'They' (entry 20). -/
def Status.writeOneToClear (f : Status) (v : Word) : Status :=
  { busy := f.busy
    done := f.done && !v.getLsbD 1
    err := f.err && !v.getLsbD 2
    drop := f.drop && !v.getLsbD 3
    errCode := if v.getLsbD 2 then 0 else f.errCode }

/-- Acceptance of a command: BUSY set, DONE, ERR and ERRCODE cleared, DROP unchanged (R33). -/
def Status.accept (f : Status) : Status :=
  { busy := true, done := false, err := false, drop := f.drop, errCode := 0 }

/-- A CMD write while BUSY = 1: DROP set, nothing else (R33, R143). -/
def Status.dropped (f : Status) : Status := { f with drop := true }

/-- Successful completion (R118). -/
def Status.succeed (f : Status) : Status :=
  { busy := false, done := true, err := false, drop := f.drop, errCode := 0 }

/-- Error completion (R119). -/
def Status.fail (f : Status) (e : ErrorKind) : Status :=
  { busy := false, done := false, err := true, drop := f.drop, errCode := e.code }

/-- The interrupt output: a level, CTRL.IE and (DONE or ERR), with no state of its own (R52, R124). -/
def State.irq (s : State) : Bool := s.ie && (s.status.done || s.status.err)

/-- A command word is accepted (R33): latched in CMD, with the flags of `Status.accept`; OUT_LEN and ERR_POS are not
changed, as R33 states. -/
def State.acceptCommand (s : State) (v : Word) : State :=
  { s with cmd := v, status := s.status.accept }

/-- Successful completion with result `n`, the record of it: OUT_LEN, ERR_POS and STATUS (R118). -/
def State.finishOk (s : State) (n : Nat) : State :=
  { s with status := s.status.succeed, outLen := BitVec.ofNat 32 n, errPos := 0 }

/-- Error completion, the block's form of taking an exception: STATUS.ERR and ERRCODE say which, ERR_POS
says where, OUT_LEN is 0, and nothing else of the state is written here (R119, R120, R123). -/
def State.raiseError (s : State) (e : ErrorKind) (pos : Word) : State :=
  { s with status := s.status.fail e, outLen := 0, errPos := pos }

end Sys2Proof.Machine
end

