-- ==== Sys2Proof/Machine/SortedMap.lean ====
section
/-! DEFINITION. Finite maps as lists of key and value in one canonical form (keys strictly rising), the form of BUF, PAYMEM and the trie in State. -/

namespace Sys2Proof.Machine

/-- The value at a key, none where the key is not listed. -/
def SortedMap.find {κ α : Type} [DecidableEq κ] (k : κ) : List (κ × α) → Option α
  | [] => none
  | (k', v) :: rest => if k = k' then some v else SortedMap.find k rest

/-- Set the value at a key, keeping the keys in rising order under `lt`. -/
def SortedMap.put {κ α : Type} (lt : κ → κ → Bool) (k : κ) (v : α) : List (κ × α) → List (κ × α)
  | [] => [(k, v)]
  | (k', v') :: rest =>
    if lt k k' then (k, v) :: (k', v') :: rest
    else if lt k' k then (k', v') :: SortedMap.put lt k v rest
    else (k, v) :: rest

/-- The canonical form: the keys are strictly rising under `lt`. -/
def SortedMap.wf {κ α : Type} (lt : κ → κ → Bool) : List (κ × α) → Bool
  | [] => true
  | (k, _) :: rest => rest.all (fun e => lt k e.1) && SortedMap.wf lt rest

/-- The order of addresses. -/
def addrLt (a b : Nat) : Bool := decide (a < b)

/-- The lexicographic order of digit sequences, a proper prefix first. -/
def pathLt : List Digit → List Digit → Bool
  | _, [] => false
  | [], _ :: _ => true
  | a :: x, b :: y => decide (a < b) || (decide (a = b) && pathLt x y)

end Sys2Proof.Machine
end

