-- ==== Sys2Proof/Machine/Ops.lean ====
section
/-! DEFINITION. The named operations over memory, tables and trie, and the two ways a command ends (R10, R11 of 00_scope.md; R88, R91, R92 of 40_control.md; R118, R119 of 60_exceptions.md). -/

namespace Sys2Proof.Machine

/-! ### How a piece of a command ends -/

/-- The result of a piece of a command: a value, the first `raise` its pseudocode reaches (R11, R120), or
the model's fault (R137). -/
inductive Run (α : Type) where
  | ok (a : α)
  | raised (e : ErrorKind) (pos : Word)
  | fault (f : Fault)
  deriving DecidableEq, Repr

/-- Go on after a value. After a `raise` no later line runs (R11). -/
def Run.andThen {α β : Type} (r : Run α) (f : α → Run β) : Run β :=
  match r with
  | .ok a => f a
  | .raised e pos => .raised e pos
  | .fault x => .fault x

/-- A position or count as a 32-bit register value. Every position of R116 is below 2^32. -/
def wordOf (n : Nat) : Word := BitVec.ofNat 32 n

/-! ### Memories -/

/-- The canonical form of a memory: addresses strictly rising. -/
def Memory.wf (m : Memory) : Bool := SortedMap.wf addrLt m

/-- The byte at an address, none where it is unwritten (R45, R137). -/
def Memory.read (m : Memory) (a : Nat) : Option Byte := SortedMap.find a m

/-- MemWrite (R10): the byte at an address is set. -/
def Memory.write (m : Memory) (a : Nat) (v : Byte) : Memory := SortedMap.put addrLt a v m

/-- A string is written with index `k` at `base + k` (R61). -/
def Memory.writeBytes (m : Memory) (base : Nat) : Bytes → Memory
  | [] => m
  | v :: rest => Memory.writeBytes (m.write base v) (base + 1) rest

/-- The string of `len` bytes at `base`, none where one of them is unwritten (R61, R137). -/
def Memory.readBytes (m : Memory) (base : Nat) : Nat → Option Bytes
  | 0 => some []
  | len + 1 =>
    match m.read base, Memory.readBytes m (base + 1) len with
    | some v, some rest => some (v :: rest)
    | _, _ => none

/-- MemRead by the engine (R10, R60): a fault where the byte is unwritten (R137). -/
def State.memRead (s : State) (a : Nat) : Run Byte :=
  match s.buf.read a with
  | some v => .ok v
  | none => .fault (.unwrittenByte a)

/-! ### The tree -/

/-- A decoded TREE word (R81). -/
inductive TreeNode where
  | leaf (sym : Byte)
  | internal (left right : Option (BitVec 9))
  deriving DecidableEq, Repr

/-- The tree-node word format of R81; the ignored bits are not looked at. -/
def TreeNode.ofWord (t : Word) : TreeNode :=
  if t.getLsbD 31 then .leaf (t.extractLsb' 0 8)
  else .internal
    (if t.getLsbD 30 then some (t.extractLsb' 16 9) else none)
    (if t.getLsbD 29 then some (t.extractLsb' 0 9) else none)

/-- `Node(i)` (R81). -/
def nodeAt (tree : TreeMemory) (i : BitVec 9) : TreeNode :=
  TreeNode.ofWord (tree[i.toNat]'i.isLt)

/-- LEAF(s) (R82). -/
def leafWord (s : Byte) : Word := 0x80000000 ||| s.setWidth 32

/-- NODE(l, r) (R82). -/
def nodeWord (l r : BitVec 9) : Word := 0x60000000 ||| (l.setWidth 32 <<< 16) ||| r.setWidth 32

/-- NODE_L(l) (R82). -/
def nodeLeftWord (l : BitVec 9) : Word := 0x40000000 ||| (l.setWidth 32 <<< 16)

/-- NODE_R(r) (R82). -/
def nodeRightWord (r : BitVec 9) : Word := 0x20000000 ||| r.setWidth 32

/-- ROOT(i), a TREE_ROOT value with V = 1 (R82). -/
def rootWord (i : BitVec 9) : Word := 0x80000000 ||| i.setWidth 32

/-! ### The code table -/

/-- `CT[s]` (R10, R44). -/
def codeAt (t : CodeTable) (sym : Byte) : Option Code := t[sym.toNat]'sym.isLt

/-- A code table with entry `sym` set (R44). -/
def setCode (t : CodeTable) (sym : Byte) (c : Option Code) : CodeTable := t.set sym.toNat c sym.isLt

/-- The empty code table (R55, R95). -/
def emptyCodeTable : CodeTable := Vector.replicate 256 none

/-- The number of entries that are not none (R100). -/
def codeCount (t : CodeTable) : Nat := t.toList.countP Option.isSome

/-- `ascii(code)`: bit 0 is the character 0x30, bit 1 is 0x31, first bit first (R9, R62). -/
def ascii (c : Code) : Bytes := c.map (fun b => if b then 0x31 else 0x30)

/-! ### Characters and numerals -/

/-- `isdigit` and `digit` (R9): the digit of a byte 0x30 to 0x39. -/
def digitOf (c : Byte) : Option Digit :=
  if h : 0x30 ≤ c.toNat ∧ c.toNat ≤ 0x39 then some ⟨c.toNat - 0x30, by omega⟩ else none

/-- The bit of a character 0x30 or 0x31 (R9, R84). -/
def bitOf (c : Byte) : Option Bool :=
  if c = 0x30 then some false else if c = 0x31 then some true else none

/-- The ASCII character of a digit (R9). -/
def digitChar (d : Digit) : Byte := BitVec.ofNat 8 (0x30 + d.val)

/-- The decimal digits of a number, most significant first, in at most `fuel` digits. -/
def decimalDigits : Nat → Nat → List Nat
  | 0, _ => []
  | fuel + 1, n => if n < 10 then [n] else decimalDigits fuel (n / 10) ++ [n % 10]

/-- `dec(n)`: decimal, most significant digit first, no leading zero (R9). -/
def dec (n : Nat) : Bytes := (decimalDigits n n).map (fun d => BitVec.ofNat 8 (0x30 + d))

/-- `repeat(p, n)` (R9). An empty string is not iterated (R112). -/
def repeatBytes (p : Bytes) (n : Nat) : Bytes :=
  match p with
  | [] => []
  | v :: rest => (List.replicate n (v :: rest)).flatten

/-! ### The trie -/

/-- `w ∈ K` (R47). -/
def Trie.has (t : Trie) (w : List Digit) : Bool := (SortedMap.find w t).isSome

/-- `P[w]`, none where it is undefined (R47). -/
def Trie.payload (t : Trie) (w : List Digit) : Option Bytes := (SortedMap.find w t).join

/-- `children(w)` (R48). -/
def Trie.children (t : Trie) (w : List Digit) : List Digit :=
  (List.finRange 10).filter (fun d => t.has (w ++ [d]))

/-- A node is a leaf when it has no children (R48). -/
def Trie.isLeaf (t : Trie) (w : List Digit) : Bool := (t.children w).isEmpty

/-- Set a node's payload, allocating the node where it is not in `K` (R47). -/
def Trie.put (t : Trie) (w : List Digit) (p : Option Bytes) : Trie := SortedMap.put pathLt w p t

/-- The canonical form of a trie: paths strictly rising. -/
def Trie.wf (t : Trie) : Bool := SortedMap.wf pathLt t

/-- `L0`: the largest `j ≤ n` with `key[0..j) ∈ K` (R111); `ε ∈ K` (R49.1). -/
def Trie.longestPrefix (t : Trie) (key : List Digit) : Nat → Nat
  | 0 => 0
  | n + 1 => if t.has (key.take (n + 1)) then n + 1 else Trie.longestPrefix t key n

/-- `K ∪ { key[0..j) | from < j ≤ from + m }`, the new nodes with no payload (R111). -/
def Trie.addPath (t : Trie) (key : List Digit) (start : Nat) : Nat → Trie
  | 0 => t
  | m + 1 => Trie.addPath (t.put (key.take (start + 1)) none) key (start + 1) m

/-- The trie of the bare root (R55, R96). -/
def Trie.bare : Trie := [([], none)]

/-- The bytes of all payloads, the sum of R49.6. -/
def Trie.payloadBytes (t : Trie) : Nat := (t.map (fun e => (e.2.getD []).length)).sum

/-- `TU = |K|`, the number of nodes allocated, root included (R47). -/
def State.trieUsed (s : State) : Nat := s.trie.length

/-! ### Output and completion -/

/-- `Append(s, pos)` (R11): the capacity is checked first, and a string that does not fit is not appended. -/
def append (cap : Nat) (out str : Bytes) (pos : Nat) : Run Bytes :=
  if out.length + str.length ≤ cap then .ok (out ++ str)
  else .raised .allocationFailure (wordOf pos)

/-- `Append(repeat(p, n), pos)` (R11, R112): the whole length is checked at once, before anything is built. -/
def appendRepeat (cap : Nat) (out p : Bytes) (n pos : Nat) : Run Bytes :=
  if out.length + n * p.length ≤ cap then .ok (out ++ repeatBytes p n)
  else .raised .allocationFailure (wordOf pos)

/-- The output commit (R91): `out[k]` goes to `DST_BASE + k`. -/
def State.commitOutput (s : State) (out : Bytes) : State :=
  { s with buf := s.buf.writeBytes s.dstBase.toNat out }

/-- How many BUF bytes the DST range has (those below `BUF_BYTES`). -/
def State.dstBytes (s : State) : Nat :=
  min (s.dstBase.toNat + s.dstCap.toNat) s.params.bufBytes - s.dstBase.toNat

/-- `n` free bytes, one draw each (R119, I-3). -/
def freeBytes (start n : Nat) : Bytes := (List.range n).map (fun k => Config.freeByte (start + k))

/-- After an error of an output command each BUF byte of `[DST_BASE, DST_BASE + DST_CAP)` is written and
holds a drawn value (R119, R137, I-3; entries 4 and 5). -/
def State.drawDst (s : State) : State :=
  { s with
    buf := s.buf.writeBytes s.dstBase.toNat (freeBytes s.draws s.dstBytes)
    draws := s.draws + s.dstBytes }

/-- The end of an output command: commit and success (R91, R118), or error completion with the DST range
drawn (R119). -/
def endOutput (s : State) (r : Run Bytes) : Host.Outcome State Fault Refusal :=
  match r with
  | .ok out => .next ((s.commitOutput out).finishOk out.length)
  | .raised e pos => .next (s.drawDst.raiseError e pos)
  | .fault f => .fault f

/-- The end of a table command: the new tables are installed only at success (R92, R118); on an error the
state from before the command is kept but for the completion record (R119). -/
def endTable (s : State) (r : Run (State × Nat)) : Host.Outcome State Fault Refusal :=
  match r with
  | .ok (s', n) => .next (s'.finishOk n)
  | .raised e pos => .next (s.raiseError e pos)
  | .fault f => .fault f

end Sys2Proof.Machine
end

