-- ==== Sys2Proof/Machine/Operands.lean ====
section
/-! DEFINITION. The operands of a command: the SRC, DST and AUX ranges of BUF and their checks (R12 of 00_scope.md, R79 of 30_encoding.md, R90 of 40_control.md). -/

namespace Sys2Proof.Machine

/-- `inbuf(base, len)` in naturals (R12). -/
def inbuf (p : Params) (base len : Nat) : Bool := decide (base + len ≤ p.bufBytes)

/-- `overlap(b1, l1, b2, l2)` in naturals (R12). -/
def overlap (b1 l1 b2 l2 : Nat) : Bool :=
  decide (l1 > 0) && decide (l2 > 0) && decide (b1 < b2 + l2) && decide (b2 < b1 + l1)

/-- The SRC range is in BUF (R90). -/
def State.srcOk (s : State) : Bool := inbuf s.params s.srcBase.toNat s.srcLen.toNat

/-- The DST range is in BUF (R90). -/
def State.dstOk (s : State) : Bool := inbuf s.params s.dstBase.toNat s.dstCap.toNat

/-- The AUX range is in BUF (R90). -/
def State.auxOk (s : State) : Bool := inbuf s.params s.auxBase.toNat s.auxLen.toNat

/-- The SRC and DST ranges overlap (R90). -/
def State.srcDstOverlap (s : State) : Bool :=
  overlap s.srcBase.toNat s.srcLen.toNat s.dstBase.toNat s.dstCap.toNat

/-- CheckRanges({SRC}) (R90). -/
def checkSrc (s : State) : Run Unit :=
  if s.srcOk then .ok () else .raised .rangeFault 0x010

/-- CheckRanges({SRC, DST}) (R90): SRC, then DST, then the overlap. -/
def checkSrcDst (s : State) : Run Unit :=
  if !s.srcOk then .raised .rangeFault 0x010
  else if !s.dstOk then .raised .rangeFault 0x018
  else if s.srcDstOverlap then .raised .rangeFault noPos
  else .ok ()

/-- CheckRanges({SRC, AUX}) (R90). -/
def checkSrcAux (s : State) : Run Unit :=
  if !s.srcOk then .raised .rangeFault 0x010
  else if !s.auxOk then .raised .rangeFault 0x020
  else .ok ()

/-- `src(k)` (R12). -/
def src (s : State) (k : Nat) : Run Byte := s.memRead (s.srcBase.toNat + k)

/-- `aux(k)` (R12). -/
def aux (s : State) (k : Nat) : Run Byte := s.memRead (s.auxBase.toNat + k)

/-- `[aux(k) for k in 0 .. AUX_LEN-1]` (R111), from index `k` on, `n` bytes. -/
def readAux (s : State) : Nat → Nat → Run Bytes
  | 0, _ => .ok []
  | n + 1, k =>
    (aux s k).andThen fun v =>
    (readAux s n (k + 1)).andThen fun rest => .ok (v :: rest)

/-- The string of the SRC range, none where a byte of it is unwritten (R61). -/
def State.srcString (s : State) : Option Bytes := s.buf.readBytes s.srcBase.toNat s.srcLen.toNat

/-- The string of the AUX range, none where a byte of it is unwritten (R61). -/
def State.auxString (s : State) : Option Bytes := s.buf.readBytes s.auxBase.toNat s.auxLen.toNat

end Sys2Proof.Machine
end

