-- ==== Sys2Proof/Machine/CodeTable.lean ====
section
/-! DEFINITION. The code-table commands CT_LOAD and GEN_CODES (R99, R100 of 41_code_table.md). -/

namespace Sys2Proof.Machine

/-- The characters of a code, from index `i` on, `n` of them: each must be 0x30 or 0x31 (R99). -/
def readCode (s : State) : Nat → Nat → Run Code
  | 0, _ => .ok []
  | n + 1, i =>
    (src s i).andThen fun c =>
    match bitOf c with
    | none => .raised .malformedHuffmanInput (wordOf i)
    | some b => (readCode s n (i + 1)).andThen fun rest => .ok (b :: rest)

/-- The entry CT_LOAD installs: a code of no characters deletes the entry (R99). -/
def loadedEntry (code : Code) : Option Code := if code.isEmpty then none else some code

/-- The pseudocode of CT_LOAD (R99). -/
def runCtLoad (sym : Byte) (s : State) : Run (State × Nat) :=
  (checkSrc s).andThen fun _ =>
  if s.srcLen.toNat > Config.maxCodeLen then .raised .codeLengthExceeded (wordOf Config.maxCodeLen)
  else
    (readCode s s.srcLen.toNat 0).andThen fun code =>
    .ok ({ s with ct := setCode s.ct sym (loadedEntry code) }, s.srcLen.toNat)

/-- CT_LOAD (R99). -/
def execCtLoad (sym : Byte) (s : State) : Host.Outcome State Fault Refusal :=
  endTable s (runCtLoad sym s)

/-- `Visit(i, path)` (R100): depth-first, left subtree first. `depthLeft` is `MAX_CODE_LEN - |path|`, so that
an internal node at depth `MAX_CODE_LEN` is the one with none left. -/
def visit (tree : TreeMemory) : Nat → BitVec 9 → Code → CodeTable → Run CodeTable
  | depthLeft, i, path, t =>
    match nodeAt tree i with
    | .leaf sym =>
      if (codeAt t sym).isSome then .raised .treeStructureFault (i.setWidth 32)
      else .ok (setCode t sym (some path))
    | .internal (some left) (some right) =>
      match depthLeft with
      | 0 => .raised .codeLengthExceeded (i.setWidth 32)
      | d + 1 =>
        (visit tree d left (path ++ [false]) t).andThen fun t' =>
        visit tree d right (path ++ [true]) t'
    | .internal _ _ => .raised .treeStructureFault (i.setWidth 32)

/-- The pseudocode of GEN_CODES (R100). -/
def runGenCodes (s : State) : Run (State × Nat) :=
  if !s.treeRoot.valid then .raised .treeStructureFault noPos
  else
    let walk : Run CodeTable :=
      match nodeAt s.tree s.treeRoot.idx with
      | .leaf sym => .ok (setCode emptyCodeTable sym (some [false]))
      | .internal _ _ => visit s.tree Config.maxCodeLen s.treeRoot.idx [] emptyCodeTable
    walk.andThen fun t => .ok ({ s with ct := t }, codeCount t)

/-- GEN_CODES (R100). -/
def execGenCodes (s : State) : Host.Outcome State Fault Refusal := endTable s (runGenCodes s)

end Sys2Proof.Machine
end

