-- ==== Sys2Proof/Machine/Control.lean ====
section
/-! DEFINITION. The control commands NOP, CLR_CT and CLR_TRIE (R94, R95, R96 of 40_control.md) and the execution of an illegal word (R80, R89). -/

namespace Sys2Proof.Machine

/-- NOP (R94). -/
def execNop (s : State) : Host.Outcome State Fault Refusal := endTable s (.ok (s, 0))

/-- CLR_CT (R95). -/
def execClrCt (s : State) : Host.Outcome State Fault Refusal :=
  endTable s (.ok ({ s with ct := emptyCodeTable }, 0))

/-- CLR_TRIE (R96). Payload bytes in PAYMEM stay, unreachable. -/
def execClrTrie (s : State) : Host.Outcome State Fault Refusal :=
  endTable s (.ok ({ s with trie := Trie.bare, payUsed := 0 }, 0))

/-- An illegal word: raise IllegalCommand(NOPOS), no other state changes (R80, R89). -/
def execIllegal (s : State) : Host.Outcome State Fault Refusal :=
  .next (s.raiseError .illegalCommand noPos)

end Sys2Proof.Machine
end

