-- ==== Sys2Proof/Machine/Huffman.lean ====
section
/-! DEFINITION. The Huffman commands HUF_ENC and HUF_DEC (R104, R105 of 42_huffman.md). -/

namespace Sys2Proof.Machine

/-- The scan of HUF_ENC, from index `i` on, `n` bytes (R104). -/
def hufEncScan (s : State) : Nat → Nat → Bytes → Run Bytes
  | 0, _, out => .ok out
  | n + 1, i, out =>
    (src s i).andThen fun b =>
    match codeAt s.ct b with
    | none => .raised .missingCodeEntry (wordOf i)
    | some code =>
      (append s.dstCap.toNat out (ascii code) i).andThen fun out' => hufEncScan s n (i + 1) out'

/-- HUF_ENC (R104). -/
def execHufEnc (s : State) : Host.Outcome State Fault Refusal :=
  endOutput s ((checkSrcDst s).andThen fun _ => hufEncScan s s.srcLen.toNat 0 [])

/-- The variables of the HUF_DEC walk: the current node, the depth below the root and the output (R105). -/
structure HufWalk where
  node : BitVec 9
  depth : Nat
  out : Bytes
  deriving DecidableEq, Repr

/-- One character of the HUF_DEC walk, once it is known to be the bit `b` (R105). At depth 0 the node is the
root, so the leaf case is the single-leaf tree of R105; at depth above 0 the node is always internal, since
it was set only to internal children (R105, entry 12). -/
def hufDecBit (s : State) (i : Nat) (b : Bool) (w : HufWalk) : Run HufWalk :=
  if !s.treeRoot.valid then .raised .treeTraversalFailure (wordOf i)
  else
    match nodeAt s.tree w.node with
    | .leaf sym =>
      if b then .raised .treeTraversalFailure (wordOf i)
      else
        (append s.dstCap.toNat w.out [sym] i).andThen fun out =>
        .ok { node := s.treeRoot.idx, depth := 0, out := out }
    | .internal left right =>
      match (if b then right else left) with
      | none => .raised .treeTraversalFailure (wordOf i)
      | some child =>
        match nodeAt s.tree child with
        | .leaf sym =>
          (append s.dstCap.toNat w.out [sym] i).andThen fun out =>
          .ok { node := s.treeRoot.idx, depth := 0, out := out }
        | .internal _ _ => .ok { node := child, depth := w.depth + 1, out := w.out }

/-- The scan of HUF_DEC, from index `i` on, `n` characters; each must be 0x30 or 0x31 (R105). -/
def hufDecScan (s : State) : Nat → Nat → HufWalk → Run HufWalk
  | 0, _, w => .ok w
  | n + 1, i, w =>
    (src s i).andThen fun c =>
    match bitOf c with
    | none => .raised .malformedHuffmanInput (wordOf i)
    | some b => (hufDecBit s i b w).andThen fun w' => hufDecScan s n (i + 1) w'

/-- The end of the HUF_DEC scan: the input may not end inside a code (R105). -/
def hufDecEnd (s : State) (w : HufWalk) : Run Bytes :=
  if w.depth ≠ 0 then .raised .truncatedInput s.srcLen else .ok w.out

/-- HUF_DEC (R105). -/
def execHufDec (s : State) : Host.Outcome State Fault Refusal :=
  endOutput s
    ((checkSrcDst s).andThen fun _ =>
     (hufDecScan s s.srcLen.toNat 0 { node := s.treeRoot.idx, depth := 0, out := [] }).andThen fun w =>
     hufDecEnd s w)

end Sys2Proof.Machine
end

