-- ==== Sys2Proof/Machine/Rle.lean ====
section
/-! DEFINITION. The run-length commands RLE_ENC, TRIE_INSERT and RLE_DEC (R109, R111, R112 of 43_rle.md). -/

namespace Sys2Proof.Machine

/-- `while j < n and src(j) = c: j <- j + 1` (R109), with `k = n - j`; the answer is the first index past the run. -/
def runEnd (s : State) (c : Byte) : Nat → Nat → Run Nat
  | 0, j => .ok j
  | k + 1, j => (src s j).andThen fun b => if b = c then runEnd s c k (j + 1) else .ok j

/-- The token of a run: the character, and its decimal count only when it is above 1 (R109). -/
def runToken (c : Byte) (run : Nat) : Bytes := c :: (if run > 1 then dec run else [])

/-- The outer loop of RLE_ENC from index `i` on (R109); `fuel` is at least the number of runs left. -/
def rleEncScan (s : State) : Nat → Nat → Bytes → Run Bytes
  | 0, _, out => .ok out
  | fuel + 1, i, out =>
    if i < s.srcLen.toNat then
      (src s i).andThen fun c =>
      (runEnd s c (s.srcLen.toNat - (i + 1)) (i + 1)).andThen fun j =>
      (append s.dstCap.toNat out (runToken c (j - i)) i).andThen fun out' => rleEncScan s fuel j out'
    else .ok out

/-- RLE_ENC (R109). -/
def execRleEnc (s : State) : Host.Outcome State Fault Refusal :=
  endOutput s ((checkSrcDst s).andThen fun _ => rleEncScan s s.srcLen.toNat 0 [])

/-- The key of TRIE_INSERT, from index `i` on, `n` characters: each must be an ASCII digit (R111). -/
def readKey (s : State) : Nat → Nat → Run (List Digit)
  | 0, _ => .ok []
  | n + 1, i =>
    (src s i).andThen fun c =>
    match digitOf c with
    | none => .raised .malformedRLEInput (wordOf i)
    | some d => (readKey s n (i + 1)).andThen fun rest => .ok (d :: rest)

/-- The trie after the insert: the missing nodes of the key's path, then the payload at its last node (R111). -/
def insertedTrie (t : Trie) (key : List Digit) (pay : Bytes) : Trie :=
  let l0 := t.longestPrefix key key.length
  (t.addPath key l0 (key.length - l0)).put key (some pay)

/-- The pseudocode of TRIE_INSERT (R111): the key, the node pool, PAYMEM, then the payload, which is copied
into PAYMEM at offset `PU` (R46). -/
def runTrieInsert (s : State) : Run (State × Nat) :=
  (checkSrcAux s).andThen fun _ =>
  (readKey s s.srcLen.toNat 0).andThen fun key =>
  let l0 := s.trie.longestPrefix key key.length
  let m := key.length - l0
  if s.trieUsed + m > s.params.trieNodes then
    .raised .allocationFailure (wordOf (l0 + (s.params.trieNodes - s.trieUsed)))
  else if s.payUsed + s.auxLen.toNat > s.params.payBytes then .raised .allocationFailure noPos
  else
    (readAux s s.auxLen.toNat 0).andThen fun pay =>
    .ok ({ s with
            trie := insertedTrie s.trie key pay
            payMem := s.payMem.writeBytes s.payUsed pay
            payUsed := s.payUsed + s.auxLen.toNat }, m)

/-- TRIE_INSERT (R111). -/
def execTrieInsert (s : State) : Host.Outcome State Fault Refusal := endTable s (runTrieInsert s)

/-- The variables of the RLE_DEC walk: the current node, the index of the next byte and the output (R112). -/
structure RleWalk where
  node : List Digit
  pos : Nat
  out : Bytes
  deriving DecidableEq, Repr

/-- `while j < n and isdigit(src(j))` (R112), with `k = n - j`: the count, and the first index past it. -/
def countRun (s : State) : Nat → Nat → Nat → Run (Nat × Nat)
  | 0, j, cnt => .ok (cnt, j)
  | k + 1, j, cnt =>
    (src s j).andThen fun c =>
    match digitOf c with
    | none => .ok (cnt, j)
    | some d => countRun s k (j + 1) (10 * cnt + d.val)

/-- Trie-descent mode: the walk has moved to `w ++ [d]`, which is in `K` (R112). -/
def rleDescend (s : State) (w : RleWalk) (d : Digit) : Run RleWalk :=
  let node := w.node ++ [d]
  if s.trie.isLeaf node then
    match s.trie.payload node with
    | none => .fault .leafWithoutPayload
    | some p =>
      (append s.dstCap.toNat w.out p w.pos).andThen fun out =>
      .ok { node := [], pos := w.pos + 1, out := out }
  else .ok { node := node, pos := w.pos + 1, out := w.out }

/-- Count-expansion mode: the count starts at the digit that had no child (R112). -/
def rleExpand (s : State) (w : RleWalk) : Run RleWalk :=
  (countRun s (s.srcLen.toNat - w.pos) w.pos 0).andThen fun (cnt, j) =>
  match s.trie.payload w.node with
  | none => .raised .invalidCountContext (wordOf w.pos)
  | some p =>
    (appendRepeat s.dstCap.toNat w.out p cnt w.pos).andThen fun out =>
    .ok { node := [], pos := j, out := out }

/-- The outer loop of RLE_DEC (R112); `fuel` is at least the number of bytes left (R113). -/
def rleDecScan (s : State) : Nat → RleWalk → Run RleWalk
  | 0, w => .ok w
  | fuel + 1, w =>
    if w.pos < s.srcLen.toNat then
      (src s w.pos).andThen fun c =>
      match digitOf c with
      | none => .raised .malformedRLEInput (wordOf w.pos)
      | some d =>
        (if s.trie.has (w.node ++ [d]) then rleDescend s w d else rleExpand s w).andThen fun w' =>
        rleDecScan s fuel w'
    else .ok w

/-- The end of the RLE_DEC input: at the root nothing more, elsewhere the node's payload (R112). -/
def rleDecEnd (s : State) (w : RleWalk) : Run Bytes :=
  if w.node.isEmpty then .ok w.out
  else
    match s.trie.payload w.node with
    | none => .raised .truncatedInput s.srcLen
    | some p => append s.dstCap.toNat w.out p s.srcLen.toNat

/-- RLE_DEC (R112). -/
def execRleDec (s : State) : Host.Outcome State Fault Refusal :=
  endOutput s
    ((checkSrcDst s).andThen fun _ =>
     (rleDecScan s s.srcLen.toNat { node := [], pos := 0, out := [] }).andThen fun w => rleDecEnd s w)

end Sys2Proof.Machine
end

