-- ==== Sys2Proof/Machine/Dispatch.lean ====
section
/-! DEFINITION. The dispatch of R89 (40_control.md): one arm per command. -/

namespace Sys2Proof.Machine

/-- The engine's execution of a legal command with its completion (R88, R89). -/
def exec (i : Instr) (s : State) : Host.Outcome State Fault Refusal :=
  match i with
  | .nop => Sys2Proof.Machine.execNop s
  | .clrCt => Sys2Proof.Machine.execClrCt s
  | .clrTrie => Sys2Proof.Machine.execClrTrie s
  | .ctLoad sym => Sys2Proof.Machine.execCtLoad sym s
  | .genCodes => Sys2Proof.Machine.execGenCodes s
  | .hufEnc => Sys2Proof.Machine.execHufEnc s
  | .hufDec => Sys2Proof.Machine.execHufDec s
  | .rleEnc => Sys2Proof.Machine.execRleEnc s
  | .trieInsert => Sys2Proof.Machine.execTrieInsert s
  | .rleDec => Sys2Proof.Machine.execRleDec s

end Sys2Proof.Machine
end

