-- ==== Sys2Proof/Machine/HostPort.lean ====
section
/-! DEFINITION. The host's ports: the register window (R27 to R43 of 10_state.md), the buffer port (R59 of 20_memory.md), the two resets (R133, R134 of 70_reset_and_hazards.md) and the host obligations (R138, R139). -/

namespace Sys2Proof.Machine

/-! ### The register map -/

/-- The offset of a register (R27); the reserved space is named by its first offset. -/
def Reg.offset : Reg → BitVec 12
  | .id => 0x000
  | .ctrl => 0x004
  | .status => 0x008
  | .cmd => 0x00C
  | .srcBase => 0x010
  | .srcLen => 0x014
  | .dstBase => 0x018
  | .dstCap => 0x01C
  | .auxBase => 0x020
  | .auxLen => 0x024
  | .outLen => 0x028
  | .errPos => 0x02C
  | .treeRoot => 0x030
  | .trieUsed => 0x034
  | .payUsed => 0x038
  | .bufSize => 0x03C
  | .trieSize => 0x040
  | .paySize => 0x044
  | .reserved => 0x048
  | .tree i => 0x800 + (i.setWidth 12 <<< 2)

/-- The register whose word holds an offset (R27): the word index is the offset without its two low bits, and
the upper half of the window is TREE. -/
def Reg.ofOffset (off : BitVec 12) : Reg :=
  if off.getLsbD 11 then .tree (off.extractLsb' 2 9)
  else
    match off.toNat / 4 with
    | 0 => .id
    | 1 => .ctrl
    | 2 => .status
    | 3 => .cmd
    | 4 => .srcBase
    | 5 => .srcLen
    | 6 => .dstBase
    | 7 => .dstCap
    | 8 => .auxBase
    | 9 => .auxLen
    | 10 => .outLen
    | 11 => .errPos
    | 12 => .treeRoot
    | 13 => .trieUsed
    | 14 => .payUsed
    | 15 => .bufSize
    | 16 => .trieSize
    | 17 => .paySize
    | _ => .reserved

/-- The identity of the block, ASCII HR and edition 7 (R29). -/
def idWord : Word := 0x48520007

/-- TREE_ROOT as the host reads it: V bit 31, IDX bits 8:0, the rest 0 (R39). -/
def TreeRoot.word (r : TreeRoot) : Word := BitVec.ofBool r.valid ++ 0#22 ++ r.idx

/-- TREE_ROOT as the host writes it; the reserved bits are ignored (R39, R28). -/
def TreeRoot.ofWord (v : Word) : TreeRoot := { valid := v.getLsbD 31, idx := v.extractLsb' 0 9 }

/-- CTRL as the host reads it: IE bit 0, SRST and the rest 0 (R30). -/
def ctrlWord (ie : Bool) : Word := 0#31 ++ BitVec.ofBool ie

/-- The value of a register (R27 to R43). Reads have no side effects (R65). -/
def readReg (s : State) : Reg → Word
  | .id => idWord
  | .ctrl => ctrlWord s.ie
  | .status => s.status.word
  | .cmd => s.cmd
  | .srcBase => s.srcBase
  | .srcLen => s.srcLen
  | .dstBase => s.dstBase
  | .dstCap => s.dstCap
  | .auxBase => s.auxBase
  | .auxLen => s.auxLen
  | .outLen => s.outLen
  | .errPos => s.errPos
  | .treeRoot => s.treeRoot.word
  | .trieUsed => wordOf s.trieUsed
  | .payUsed => wordOf s.payUsed
  | .bufSize => wordOf s.params.bufBytes
  | .trieSize => wordOf s.params.trieNodes
  | .paySize => wordOf s.params.payBytes
  | .reserved => 0
  | .tree i => s.tree[i.toNat]'i.isLt

/-! ### Resets -/

/-- Soft reset (R134): every register, TREE, CT and the trie at its reset value; BUF and the PAYMEM bytes
unchanged. It sets neither DONE nor ERR. -/
def State.softReset (s : State) : State :=
  { State.resetWith s.params s.draws s.host with buf := s.buf, payMem := s.payMem }

/-- Hardware reset (R133): every piece of state at its reset value, a pending command discarded, every BUF and
PAYMEM byte unwritten. The parameters are constants; what the host still has to do is not the block's state
(entry 16). -/
def State.hardReset (s : State) : State :=
  State.resetWith s.params s.draws { s.host with reply := .none }

/-! ### Register writes -/

/-- A CMD write (R33): accepted when BUSY = 0, dropped when BUSY = 1. -/
def writeCmd (s : State) (v : Word) : State :=
  if s.status.busy then { s with status := s.status.dropped } else s.acceptCommand v

/-- A CTRL write (R30): bit 1 is the soft reset, and then bit 0 is discarded; else bit 0 is IE. -/
def writeCtrl (s : State) (v : Word) : State :=
  if v.getLsbD 1 then s.softReset else { s with ie := v.getLsbD 0 }

/-- A register write (R27 to R43). Writes to read-only registers and to reserved offsets have no effect
(R28, R42). A STATUS write that clears ERR and ERRCODE keeps ERR_POS: DESIGN CHOICE, since R32 lists only ERR and
ERRCODE and R122 can be read to clear ERR_POS with them (entry 20). -/
def writeReg (s : State) (r : Reg) (v : Word) : State :=
  match r with
  | .ctrl => writeCtrl s v
  | .status => { s with status := s.status.writeOneToClear v }
  | .cmd => writeCmd s v
  | .srcBase => { s with srcBase := v }
  | .srcLen => { s with srcLen := v }
  | .dstBase => { s with dstBase := v }
  | .dstCap => { s with dstCap := v }
  | .auxBase => { s with auxBase := v }
  | .auxLen => { s with auxLen := v }
  | .treeRoot => { s with treeRoot := TreeRoot.ofWord v }
  | .tree i => { s with tree := s.tree.set i.toNat v i.isLt }
  | .id | .outLen | .errPos | .trieUsed | .payUsed | .bufSize | .trieSize | .paySize | .reserved => s

/-! ### Host events -/

/-- The answer of the last host event (R140). -/
def State.setReply (s : State) (r : PortReply) : State := { s with host := { s.host with reply := r } }

/-- The access obligation of R139: 32 bits wide, at a multiple of 4 (R58). -/
def accessFormOk (size : Nat) (off : BitVec 12) : Bool :=
  decide (size = 4) && decide (off.toNat % 4 = 0)

/-- A host register read (R58, R138, R139, R140). -/
def hostRegRead (s : State) (size : Nat) (off : BitVec 12) : Host.Outcome State Fault Refusal :=
  if !accessFormOk size off then .refused .accessForm
  else if s.status.busy && decide (Reg.ofOffset off ≠ .status) then .refused .busyAccess
  else .next (s.setReply (.word (readReg s (Reg.ofOffset off))))

/-- A host register write (R58, R138, R139, R140). -/
def hostRegWrite (s : State) (size : Nat) (off : BitVec 12) (v : Word) : Host.Outcome State Fault Refusal :=
  if !accessFormOk size off then .refused .accessForm
  else if s.status.busy && decide (Reg.ofOffset off ≠ .cmd) then .refused .busyAccess
  else .next ((writeReg s (Reg.ofOffset off) v).setReply .none)

/-- A buffer-port read (R59): 0x00 at or above `BUF_BYTES`, a fault at an unwritten byte (R137). -/
def hostBufRead (s : State) (a : Nat) : Host.Outcome State Fault Refusal :=
  if s.status.busy then .refused .busyAccess
  else if a < s.params.bufBytes then
    match s.buf.read a with
    | some v => .next (s.setReply (.byte v))
    | none => .fault (.unwrittenByte a)
  else .next (s.setReply (.byte 0x00))

/-- A buffer-port write (R59): no effect at or above `BUF_BYTES`. -/
def hostBufWrite (s : State) (a : Nat) (v : Byte) : Host.Outcome State Fault Refusal :=
  if s.status.busy then .refused .busyAccess
  else if a < s.params.bufBytes then .next ({ s with buf := s.buf.write a v }.setReply .none)
  else .next (s.setReply .none)

/-- One poll of WAIT (R86): a STATUS read; while BUSY = 1 the WAIT stays the host's next statement. -/
def hostWait (s : State) : Host.Outcome State Fault Refusal :=
  let s' := s.setReply (.word s.status.word)
  if s.status.busy then .next { s' with host := { s'.host with pending := .wait :: s'.host.pending } }
  else .next s'

/-- One host event (R140), already taken from the pending list. -/
def hostEvent (s : State) : HostEvent → Host.Outcome State Fault Refusal
  | .regRead size off => hostRegRead s size off
  | .regWrite size off v => hostRegWrite s size off v
  | .bufRead a => hostBufRead s a
  | .bufWrite a v => hostBufWrite s a v
  | .wait => hostWait s
  | .hardReset => .next s.hardReset

/-- The host's move: its oldest pending event (R69.1). -/
def hostMove (s : State) : Host.Outcome State Fault Refusal :=
  match s.host.pending with
  | [] => .next s
  | e :: rest => hostEvent { s with host := { s.host with pending := rest } } e

end Sys2Proof.Machine
end

