-- ==== Sys2Proof/Machine/Engine.lean ====
section
/-! DEFINITION. Who moves next (R22 of 00_scope.md, R69 of 20_memory.md, R145 of 70_reset_and_hazards.md) and the engine's step on the latched command word (R88, R89 of 40_control.md). -/

namespace Sys2Proof.Machine

/-- Who moves next, none when the block is idle and the host has nothing to do (R131). The engine has a step
exactly when BUSY = 1 (R88); where the host can move too, the schedule says who, and an exhausted schedule
says the engine (entry 3). -/
def State.turn (s : State) : Option Agent :=
  if s.status.busy then
    match s.host.pending, s.host.schedule with
    | _ :: _, .host :: _ => some .host
    | _, _ => some .engine
  else
    match s.host.pending with
    | [] => none
    | _ :: _ => some .host

/-- The schedule's choice is used up where there was one: BUSY = 1 and a host event pending. -/
def State.takeTurn (s : State) : State :=
  if s.status.busy && !s.host.pending.isEmpty then
    { s with host := { s.host with schedule := s.host.schedule.tail } }
  else s

/-- The engine's step: Execute(CMD) (R88, R89). -/
def engineMove (s : State) : Host.Outcome State Fault Refusal :=
  match decode s.cmd with
  | .ok i => exec i s
  | .error _ => execIllegal s

/-- One step of the model: the agent whose turn it is moves (R69). -/
def moveOf (s : State) : Host.Outcome State Fault Refusal :=
  match s.turn with
  | none => .next s
  | some .engine => engineMove s.takeTurn
  | some .host => hostMove s.takeTurn

/-- The machine with a command word accepted (R33) and the next turn the engine's. -/
def latchForEngine (s : State) (w : Word) : State :=
  let s' := s.acceptCommand w
  if s'.host.pending.isEmpty then s'
  else { s' with host := { s'.host with schedule := .engine :: s'.host.schedule } }

end Sys2Proof.Machine
end

