-- ==== Sys2Proof/Machine/Step.lean ====
section
/-! DEFINITION. One step of the machine, and the placing of a command word where the next step takes it from (entry 3). -/

namespace Sys2Proof.Machine

/-- One step: the agent whose turn it is moves once (R69 of 20_memory.md). -/
def step (s : State) : Host.Outcome State Fault Refusal := moveOf s

/-- `s` with the command word `w` (its lowest `nbits` bits, the rest 0) latched in CMD as an accepted command
(R33), so that the very next step is the engine's step on it (R88). Stands for the host's CMD write. -/
def State.withFetchWord (s : State) (nbits w : Nat) : State :=
  latchForEngine s (BitVec.ofNat 32 (w % 2 ^ nbits))

end Sys2Proof.Machine
end

