-- ==== Sys2Proof/Machine/HostProgram.lean ====
section
/-! DEFINITION. The meaning of a host program's statements as host events (R85, R86 of 30_encoding.md), and how a program is placed in the machine. -/

namespace Sys2Proof.Machine

/-- The single-byte buffer-port writes of `WB`, in increasing address order (R86). -/
def writeByteEvents (a : Nat) : Bytes → List HostEvent
  | [] => []
  | v :: rest => .bufWrite a v :: writeByteEvents (a + 1) rest

/-- The expansion of one statement (R85, R86). A command is the CMD write of its word (R78). -/
def HostStmt.events : HostStmt → List HostEvent
  | .write r v => [.regWrite 4 r.offset v]
  | .read r => [.regRead 4 r.offset]
  | .writeTree i v => [.regWrite 4 (BitVec.ofNat 12 (0x800 + 4 * i)) v]
  | .writeBytes a text => writeByteEvents a text
  | .command i => [.regWrite 4 Reg.cmd.offset (encode i)]
  | .wait => [.wait]

/-- The events of a host program, statement by statement (R69.1, R85). -/
def programEvents (prog : List HostStmt) : List HostEvent := prog.flatMap HostStmt.events

/-- The machine with a host program to perform, under a schedule (entry 3). -/
def State.withProgram (s : State) (prog : List HostStmt) (schedule : List Agent) : State :=
  { s with host := { pending := programEvents prog, schedule := schedule, reply := .none } }

/-- A bus access at a platform address as a register-window event, none outside the window (R57, R66). -/
def busRead (p : Params) (size addr : Nat) : Option HostEvent :=
  (p.windowOffset addr).map (fun off => .regRead size off)

/-- A bus write at a platform address as a register-window event, none outside the window (R57, R66). -/
def busWrite (p : Params) (size addr : Nat) (v : Word) : Option HostEvent :=
  (p.windowOffset addr).map (fun off => .regWrite size off v)

end Sys2Proof.Machine
end

