-- ==== Sys2Proof/WellFormed.lean ====
section
/-! DEFINITION. Which terms the spec admits: commands (R76, R77), host accesses (R139), host statements and programs (R85, R86). -/

namespace Sys2Proof

open Sys2Proof.Machine

/-- Every command is well-formed: its one operand, SYM, is a byte by its type, and any byte may be loaded
(R77, R99). -/
def Instr.wf : Instr → Bool
  | .nop | .clrCt | .clrTrie | .ctLoad _ | .genCodes | .hufEnc | .hufDec | .rleEnc | .trieInsert | .rleDec => true

/-- A host event keeps the access obligation (R139): a register access is 32 bits wide at a multiple of 4. -/
def Machine.HostEvent.wf : HostEvent → Bool
  | .regRead size off => accessFormOk size off
  | .regWrite size off _ => accessFormOk size off
  | .bufRead _ | .bufWrite _ _ | .wait | .hardReset => true

/-- A statement names what exists: a TREE index below `TREE_NODES` (R43, R85). -/
def Machine.HostStmt.wf : HostStmt → Bool
  | .writeTree i _ => decide (i < Config.treeNodes)
  | .write _ _ | .read _ | .writeBytes _ _ | .command _ | .wait => true

/-- A host program's commands come only after a WAIT or as the first command after reset (R86); `idle` says
that no command was issued since the last WAIT. The reset is the hardware reset a run begins from (R146): DESIGN
CHOICE, since R132 calls a CTRL write with bit 1 = 1 a reset too and R86 does not say which it means. Such a write
leaves `idle` as it is, and only a WAIT makes it true again (entry 22). -/
def commandsWait (idle : Bool) : List HostStmt → Bool
  | [] => true
  | .command _ :: rest => idle && commandsWait false rest
  | .write .cmd _ :: rest => idle && commandsWait false rest
  | .wait :: rest => commandsWait true rest
  | _ :: rest => commandsWait idle rest

/-- A well-formed host program (R85, R86). -/
def hostProgramWf (prog : List HostStmt) : Bool := prog.all HostStmt.wf && commandsWait true prog

end Sys2Proof
end

