-- ==== Sys2Proof/Safety.lean ====
section
/-! DEFINITION. The terms claims are stated in: completion records, what a command leaves in BUF, the state invariant, and the spec's own notions of a tree, a codeword, a run and a trie decode. -/

namespace Sys2Proof

open Sys2Proof.Machine

/-! ### Completion -/

/-- STATUS after a successful completion (R118): DONE alone, and DROP as it was. -/
def okStatus (s : State) : Status :=
  { busy := false, done := true, err := false, drop := s.status.drop, errCode := 0x00 }

/-- STATUS after an error completion (R119): ERR and the code, and DROP as it was. -/
def errStatus (s : State) (code : BitVec 8) : Status :=
  { busy := false, done := false, err := true, drop := s.status.drop, errCode := code }

/-- `t` is `s` after a failed command that has no output range: the completion record of R119 and nothing else. -/
def FailsWith (s t : State) (code : BitVec 8) (pos : Word) : Prop :=
  t = { s with status := errStatus s code, outLen := 0, errPos := pos }

/-- BUF after reads as BUF before at every address outside `[base, base + len)`. -/
def SameOutside (s t : State) (base len : Nat) : Prop :=
  ∀ a, (a < base ∨ base + len ≤ a) → t.buf.read a = s.buf.read a

/-- `t` is `s` after a failed output command (R119): the completion record, BUF changed at most inside the DST
range, every BUF byte of that range written, the draw counter advanced, and nothing else. -/
def FailsOutput (s t : State) (code : BitVec 8) (pos : Word) : Prop :=
  t = { s with
        buf := t.buf, draws := t.draws, status := errStatus s code, outLen := 0, errPos := pos } ∧
  SameOutside s t s.dstBase.toNat s.dstCap.toNat ∧
  (∀ a, s.dstBase.toNat ≤ a → a < s.dstBase.toNat + s.dstCap.toNat → a < s.params.bufBytes →
    (t.buf.read a).isSome = true)

/-- `t` is `s` after an output command that succeeded with the string `out` (R91, R118): `out[k]` stands at
`DST_BASE + k`, every other byte of BUF and all other state but the completion record is unchanged. -/
def SucceedsOutput (s t : State) (out : Bytes) : Prop :=
  t = { s with buf := t.buf, status := okStatus s, outLen := wordOf out.length, errPos := 0 } ∧
  (∀ k, k < out.length → t.buf.read (s.dstBase.toNat + k) = out[k]?) ∧
  SameOutside s t s.dstBase.toNat out.length

/-- The SRC and DST ranges pass the checks of R90. -/
def outputRangesOk (s : State) : Bool := s.srcOk && s.dstOk && !s.srcDstOverlap

/-- The SRC range is written where it lies in BUF (R136.2). -/
def srcWritten (s : State) : Bool := !s.srcOk || s.srcString.isSome

/-- The AUX range is written where it lies in BUF (R136.2). -/
def auxWritten (s : State) : Bool := !s.auxOk || s.auxString.isSome

/-- The operand bytes a command may read are written (R136.2). -/
def operandsWritten (i : Instr) (s : State) : Bool :=
  match i with
  | .nop | .clrCt | .clrTrie | .genCodes => true
  | .ctLoad _ | .hufEnc | .hufDec | .rleEnc | .rleDec => srcWritten s
  | .trieInsert => srcWritten s && auxWritten s

/-- The SRC range begins with the bytes `text` (R61). -/
def srcStartsWith (s : State) (text : Bytes) : Bool :=
  decide (text.length ≤ s.srcLen.toNat) && decide (s.buf.readBytes s.srcBase.toNat text.length = some text)

/-- The SRC range begins with the bytes `text`, and the byte after them lies in the range and is unwritten (R137). -/
def srcUnwrittenAfter (s : State) (text : Bytes) : Bool :=
  srcStartsWith s text && decide (text.length < s.srcLen.toNat) &&
  decide (s.buf.read (s.srcBase.toNat + text.length) = none)

/-- The AUX range begins with the bytes `text`, and the byte after them lies in the range and is unwritten (R137). -/
def auxUnwrittenAfter (s : State) (text : Bytes) : Bool :=
  decide (s.buf.readBytes s.auxBase.toNat text.length = some text) && decide (text.length < s.auxLen.toNat) &&
  decide (s.buf.read (s.auxBase.toNat + text.length) = none)

/-- The commands that read SRC bytes (R36, R67). -/
def readsSrc : Instr → Bool
  | .ctLoad _ | .hufEnc | .hufDec | .rleEnc | .trieInsert | .rleDec => true
  | .nop | .clrCt | .clrTrie | .genCodes => false

/-- The commands that read AUX bytes (R36, R67). -/
def readsAux : Instr → Bool
  | .trieInsert => true
  | .nop | .clrCt | .clrTrie | .ctLoad _ | .genCodes | .hufEnc | .hufDec | .rleEnc | .rleDec => false

/-- The commands that write a result string to BUF (R14, R91). -/
def isOutputCommand : Instr → Bool
  | .hufEnc | .hufDec | .rleEnc | .rleDec => true
  | .nop | .clrCt | .clrTrie | .ctLoad _ | .genCodes | .trieInsert => false

/-- The commands that may change CT (R44). -/
def writesCodeTable : Instr → Bool
  | .clrCt | .ctLoad _ | .genCodes => true
  | .nop | .clrTrie | .hufEnc | .hufDec | .rleEnc | .trieInsert | .rleDec => false

/-- The commands that may change the trie (R50). -/
def writesTrie : Instr → Bool
  | .clrTrie | .trieInsert => true
  | .nop | .clrCt | .ctLoad _ | .genCodes | .hufEnc | .hufDec | .rleEnc | .rleDec => false

/-! ### Trees and codewords -/

/-- A full binary tree with symbols at its leaves, the document's TreeNode without weights (R18, R43). -/
inductive HuffTree where
  | leaf (sym : Byte)
  | node (left right : HuffTree)
  deriving DecidableEq, Repr

/-- The symbols of the leaves, left to right. -/
def HuffTree.symbols : HuffTree → List Byte
  | .leaf sym => [sym]
  | .node l r => l.symbols ++ r.symbols

/-- The number of steps from the root to the deepest leaf. -/
def HuffTree.depth : HuffTree → Nat
  | .leaf _ => 0
  | .node l r => max l.depth r.depth + 1

/-- Each leaf's symbol with the path to it, left 0 and right 1 (R100, R62). -/
def HuffTree.paths : HuffTree → List (Byte × Code)
  | .leaf sym => [(sym, [])]
  | .node l r =>
    l.paths.map (fun e => (e.1, false :: e.2)) ++ r.paths.map (fun e => (e.1, true :: e.2))

/-- The code table of a tree: the paths, and the code "0" for a tree of one leaf (R18, R20, R100). -/
def HuffTree.table : HuffTree → List (Byte × Code)
  | .leaf sym => [(sym, [false])]
  | .node l r => (HuffTree.node l r).paths

/-- TREE holds the tree `t` at index `i` (R18, R81). -/
def holdsTree (tree : TreeMemory) : HuffTree → BitVec 9 → Bool
  | .leaf sym, i => decide (nodeAt tree i = .leaf sym)
  | .node l r, i =>
    match nodeAt tree i with
    | .internal (some a) (some b) => holdsTree tree l a && holdsTree tree r b
    | _ => false

/-- TREE_ROOT points to the tree `t`, whose symbols are distinct (R18). -/
def loadedTree (s : State) (t : HuffTree) : Bool :=
  s.treeRoot.valid && holdsTree s.tree t s.treeRoot.idx && decide t.symbols.Nodup

/-- The node to which the walk of GEN_CODES comes along a path from `i` (0 left, 1 right), with `d` levels left to
`MAX_CODE_LEN`, after it has visited the whole left subtrees `before`, one for each 1 of the path, top first; none
where the walk does not come so (R100). -/
def genWalk (tree : TreeMemory) : Nat → Code → BitVec 9 → List HuffTree → Option (BitVec 9)
  | _, [], i, [] => some i
  | _, [], _, _ :: _ => none
  | 0, _ :: _, _, _ => none
  | d + 1, b :: rest, i, before =>
    match nodeAt tree i with
    | .internal (some l) (some r) =>
      if b then
        match before with
        | [] => none
        | t :: before' =>
          if holdsTree tree t l && decide (t.depth ≤ d) then genWalk tree d rest r before' else none
      else genWalk tree d rest l before
    | _ => none

/-- The node reached from `i` along a path through internal nodes (R105). -/
def treeWalk (tree : TreeMemory) : Code → BitVec 9 → Option (BitVec 9)
  | [], i => some i
  | b :: rest, i =>
    match nodeAt tree i with
    | .leaf _ => none
    | .internal left right =>
      match (if b then right else left) with
      | some child => treeWalk tree rest child
      | none => none

/-- `code` is the codeword of `sym` under the root `r`: the path to a leaf that holds `sym`, or "0" where the
root itself is that leaf (R105, R20). -/
def isCodeword (tree : TreeMemory) (r : BitVec 9) (code : Code) (sym : Byte) : Bool :=
  match nodeAt tree r with
  | .leaf s => decide (code = [false] ∧ sym = s)
  | .internal _ _ =>
    match treeWalk tree code r with
    | some j => decide (nodeAt tree j = .leaf sym)
    | none => false

/-- The bit-string of a sequence of codewords (R62, R83). -/
def bitText (codes : List Code) : Bytes := codes.flatMap ascii

/-- The HUF_DEC walk of `s` has read the codewords `pairs` and then the bits `part`, which lead from the root to
the internal node `j` (or none, and `j` is the root): a tree is loaded, and the symbols so far fit in DST (R105). -/
def hufDecAt (s : State) (pairs : List (Code × Byte)) (part : Code) (j : BitVec 9) : Bool :=
  outputRangesOk s && s.treeRoot.valid &&
  pairs.all (fun e => isCodeword s.tree s.treeRoot.idx e.1 e.2) && decide (pairs.length ≤ s.dstCap.toNat) &&
  decide (treeWalk s.tree part s.treeRoot.idx = some j) &&
  (part.isEmpty ||
    match nodeAt s.tree j with
    | .leaf _ => false
    | .internal _ _ => true)

/-- The bit-string the HUF_DEC walk of `hufDecAt` has read. -/
def hufDecRead (pairs : List (Code × Byte)) (part : Code) : Bytes :=
  bitText (pairs.map (fun e => e.1)) ++ ascii part

/-! ### Runs and decimal text -/

/-- The token of one maximal run: its character, and its length in decimal when above 1 (R109). -/
def tokenOf : Bytes → Bytes
  | [] => []
  | c :: rest => runToken c (rest.length + 1)

/-- The run-length text of a string: the tokens of its maximal runs, left to right (R109). -/
def rleText (str : Bytes) : Bytes := (str.splitBy (fun a b => a == b)).flatMap tokenOf

/-- A digit sequence as ASCII text (R9). -/
def digitText (ds : List Digit) : Bytes := ds.map digitChar

/-- The number a digit sequence denotes, most significant first (R9, R112). -/
def numberOf (ds : List Digit) : Nat := ds.foldl (fun n d => 10 * n + d.val) 0

/-- Each of the words leads from the root to a leaf of the trie, and the string beside it is the leaf's payload. -/
def leafWords (t : Trie) (leaves : List (List Digit × Bytes)) : Bool :=
  leaves.all (fun e => !e.1.isEmpty && t.has e.1 && t.isLeaf e.1 && decide (t.payload e.1 = some e.2))

/-- The RLE_DEC walk of `s` has emitted the leaves `leaves` and then descended to `w`, the root or an inner node,
and the payloads so far fit in DST (R112). -/
def rleDecAt (s : State) (leaves : List (List Digit × Bytes)) (w : List Digit) : Bool :=
  outputRangesOk s && leafWords s.trie leaves && s.trie.has w && (w.isEmpty || !s.trie.isLeaf w) &&
  decide ((leaves.flatMap (fun e => e.2)).length ≤ s.dstCap.toNat)

/-- The digit text the RLE_DEC walk of `rleDecAt` has read. -/
def rleDecRead (leaves : List (List Digit × Bytes)) (w : List Digit) : Bytes :=
  digitText (leaves.flatMap (fun e => e.1) ++ w)

/-- What the two-mode walk of R112 makes of a digit sequence that it decodes without error: leaf payloads, then
at most one of an inner node's payload at the end of the input or a count expansion up to the end of the input. -/
inductive RleDecodes (t : Trie) : List Digit → Bytes → Prop where
  /-- The empty input. -/
  | done : RleDecodes t [] []
  /-- A leaf is reached: its payload, and the walk restarts at the root. -/
  | leaf (w : List Digit) (p : Bytes) (rest : List Digit) (out : Bytes) :
      w ≠ [] → t.has w = true → t.isLeaf w = true → t.payload w = some p → RleDecodes t rest out →
      RleDecodes t (w ++ rest) (p ++ out)
  /-- The input ends on an inner node that has a payload. -/
  | inner (w : List Digit) (p : Bytes) :
      w ≠ [] → t.has w = true → t.isLeaf w = false → t.payload w = some p → RleDecodes t w p
  /-- A digit has no child: it starts a count that runs to the end of the input. -/
  | count (w : List Digit) (p : Bytes) (d : Digit) (ds : List Digit) :
      t.has w = true → (w = [] ∨ t.isLeaf w = false) → t.has (w ++ [d]) = false → t.payload w = some p →
      RleDecodes t (w ++ d :: ds) (repeatBytes p (numberOf (d :: ds)))

/-! ### The state invariant -/

/-- BUF is canonical and lies below `BUF_BYTES` (R45). -/
def Machine.State.BufOk (s : State) : Prop :=
  s.buf.wf = true ∧ ∀ a, (s.buf.read a).isSome = true → a < s.params.bufBytes

/-- PAYMEM is canonical and lies below `PAY_BYTES` (R46). -/
def Machine.State.PayMemOk (s : State) : Prop :=
  s.payMem.wf = true ∧ ∀ a, (s.payMem.read a).isSome = true → a < s.params.payBytes

/-- Every code of CT has length 1 to `MAX_CODE_LEN` (R44). -/
def Machine.State.CodesOk (s : State) : Prop :=
  ∀ sym c, codeAt s.ct sym = some c → 1 ≤ c.length ∧ c.length ≤ Config.maxCodeLen

/-- The STATUS flags and result registers: DONE and ERR are never both 1 and neither is 1 while BUSY = 1, ERRCODE
is 0 whenever ERR = 0 and one of 0x01 to 0x0B otherwise, OUT_LEN is 0 while ERR = 1, and ERR_POS is 0 while
DONE = 1 (R31, R37, R38, R116). -/
def Machine.State.StatusOk (s : State) : Prop :=
  ¬(s.status.done = true ∧ s.status.err = true) ∧
  (s.status.busy = true → s.status.done = false ∧ s.status.err = false) ∧
  (s.status.err = false → s.status.errCode = 0) ∧
  (s.status.err = true → 0x01 ≤ s.status.errCode.toNat ∧ s.status.errCode.toNat ≤ 0x0B) ∧
  (s.status.err = true → s.outLen = 0) ∧
  (s.status.done = true → s.errPos = 0)

/-- The trie invariants of R49, in its order, and the canonical form of the trie. -/
def Machine.State.TrieOk (s : State) : Prop :=
  s.trie.wf = true ∧
  s.trie.has [] = true ∧
  (∀ w d, s.trie.has (w ++ [d]) = true → s.trie.has w = true) ∧
  (∀ w, w ≠ [] → s.trie.has w = true → s.trie.isLeaf w = true → (s.trie.payload w).isSome = true) ∧
  (1 ≤ s.trieUsed ∧ s.trieUsed ≤ s.params.trieNodes) ∧
  s.payUsed ≤ s.params.payBytes ∧
  s.trie.payloadBytes ≤ s.payUsed

/-- The invariant every step keeps. -/
def Machine.State.Inv (s : State) : Prop :=
  s.params.Wf ∧ s.BufOk ∧ s.PayMemOk ∧ s.CodesOk ∧ s.StatusOk ∧ s.TrieOk

/-! ### Steps -/

/-- `s` with `e` as the host's oldest pending event and `rest` after it. -/
def withEvents (s : State) (e : HostEvent) (rest : List HostEvent) : State :=
  { s with host := { s.host with pending := e :: rest } }

/-- The host has the next move: BUSY = 0, or the schedule says the host (R69, I-6). -/
def hostsTurn (s : State) : Bool := !s.status.busy || decide (s.host.schedule.head? = some .host)

/-- The schedule after the host moved: its choice is used up where there was one. -/
def scheduleAfter (s : State) : List Agent :=
  if s.status.busy then s.host.schedule.tail else s.host.schedule

/-- The event is a reset of the block: the reset input, or a CTRL write with SRST = 1 (R132). -/
def isReset : HostEvent → Bool
  | .hardReset => true
  | .regWrite size off v => decide (size = 4) && decide (off = 0x004) && v.getLsbD 1
  | .regRead _ _ | .bufRead _ | .bufWrite _ _ | .wait => false

/-- After a host event taken in `s`: the block is as in `t`, `rest` is still pending, the schedule's choice is
used up, and `r` is given back. -/
def afterEvent (s t : State) (rest : List HostEvent) (r : PortReply) : State :=
  { t with host := { pending := rest, schedule := scheduleAfter s, reply := r } }

end Sys2Proof
end

