-- ==== Sys2Proof/Certificates/Slice0/Obligations.lean ====
section
/-! DEFINITION. The statements for the provers, one definition each, from the numbered rules of spec/. -/

open Sys2Proof Sys2Proof.Machine

/-! ### Command words and node words -/

/-- Decode and encode agree in both directions (R76 to R80): a word decodes to a command exactly when it is the
word of that command, for every command and every symbol. -/
def Obligations.LegalWordsAreExactlyTheEncodings : Prop :=
  ∀ (c : Word) (i : Instr), decode c = .ok i ↔ c = encode i

/-- The command words of the opcode map (R78), each written out as the spec gives it. -/
def Obligations.SpecCommandWordsDecode : Prop :=
  decode 0x00000000 = .ok .nop ∧ decode 0x00000001 = .ok .clrCt ∧ decode 0x00000002 = .ok .clrTrie ∧
  decode 0x00004110 = .ok (.ctLoad 0x41) ∧ decode 0x0000FF10 = .ok (.ctLoad 0xFF) ∧
  decode 0x00000011 = .ok .genCodes ∧ decode 0x00000020 = .ok .hufEnc ∧
  decode 0x00000021 = .ok .hufDec ∧ decode 0x00000030 = .ok .rleEnc ∧
  decode 0x00000031 = .ok .trieInsert ∧ decode 0x00000032 = .ok .rleDec

/-- R80: a latched word that meets one of the three conditions is executed as raise IllegalCommand(NOPOS) with no
other change, and every other word is a command. -/
def Obligations.IllegalWordsRaiseIllegalCommand : Prop :=
  ∀ s : State, s.turn = some .engine →
    if s.cmd.extractLsb' 0 8 ∉ [0x00#8, 0x01, 0x02, 0x10, 0x11, 0x20, 0x21, 0x30, 0x31, 0x32] ∨
        s.cmd.extractLsb' 16 16 ≠ 0#16 ∨
        (s.cmd.extractLsb' 8 8 ≠ 0#8 ∧ s.cmd.extractLsb' 0 8 ≠ 0x10#8) then
      step s = .next { s.takeTurn with status := errStatus s 0x0B, outLen := 0, errPos := 0xFFFFFFFF }
    else ∃ i, decode s.cmd = .ok i

/-- R82: each word constructor decodes by R81 to the node it names, and the two examples. -/
def Obligations.NodeWordConstructorsDecode : Prop :=
  (∀ s : Byte, TreeNode.ofWord (leafWord s) = .leaf s) ∧
  (∀ l r : BitVec 9, TreeNode.ofWord (nodeWord l r) = .internal (some l) (some r)) ∧
  (∀ l : BitVec 9, TreeNode.ofWord (nodeLeftWord l) = .internal (some l) none) ∧
  (∀ r : BitVec 9, TreeNode.ofWord (nodeRightWord r) = .internal none (some r)) ∧
  (∀ i : BitVec 9, TreeRoot.ofWord (rootWord i) = { valid := true, idx := i }) ∧
  leafWord 0x61 = 0x80000061 ∧ nodeWord 1 2 = 0x60010002

/-- R63 and R76: the four byte lanes of a word, offset + 0 first, decode as the word does, and no other byte is
used. -/
def Obligations.ByteLanesDecodeAsTheWord : Prop :=
  ∀ (c : Word) (rest : Bytes),
    decodeBytes (lanesOfWord c ++ rest) =
      match decode c with
      | .ok i => .ok (i, rest)
      | .error e => .error e

/-! ### The step -/

/-- R88 and R89: with BUSY = 1 and no host event chosen before it, the engine executes the latched command; the
step adds nothing around exec but the schedule's used choice. The last clause is the placing of a command word
of entry 3. -/
def Obligations.StepRunsTheLatchedCommand : Prop :=
  (∀ (s : State) (i : Instr), s.turn = some .engine → decode s.cmd = .ok i → step s = exec i s.takeTurn) ∧
  (∀ s : State, s.status.busy = true → (s.host.pending = [] ∨ s.host.schedule.head? ≠ some .host) →
    s.turn = some .engine) ∧
  (∀ s : State, s.turn = some .engine → s.status.busy = true ∧
    s.takeTurn = { s with host := { s.host with
      schedule := if s.host.pending = [] then s.host.schedule else s.host.schedule.tail } }) ∧
  (∀ (s : State) (i : Instr),
    step (s.withFetchWord 32 (encode i).toNat) = exec i (s.acceptCommand (encode i)))

/-- R131 and R69.1: an idle block with no host event keeps its state, and with BUSY = 0 the host's oldest pending
event is performed. -/
def Obligations.IdleBlockKeepsItsState : Prop :=
  (∀ s : State, s.status.busy = false → s.host.pending = [] → step s = .next s) ∧
  (∀ (s : State) (e : HostEvent) (rest : List HostEvent), s.status.busy = false →
    s.host.pending = e :: rest → step s = hostEvent { s with host := { s.host with pending := rest } } e)

/-- R145 and R88, weak fairness: from a state with a command accepted, after as many steps as the schedule has
choices at most, the run was stopped by a fault or a refusal, or BUSY is 0 again, or the engine has the next move. -/
def Obligations.AcceptedCommandEventuallyRuns : Prop :=
  ∀ s : State, s.status.busy = true → ∃ k, k ≤ s.host.schedule.length ∧
    match Host.Core.run Sys2Proof.core k s with
    | .next t => t.status.busy = false ∨ t.turn = some .engine
    | .fault _ => True
    | .refused _ => True

/-! ### Control commands -/

/-- R94: NOP completes with OUT_LEN and ERR_POS 0 and changes nothing else; its word is 0, and a word with OP 0x00 and
another bit set is no command; with IE = 1 it raises IRQ. -/
def Obligations.NopCompletes : Prop :=
  (∀ s : State, exec .nop s = .next { s with status := okStatus s, outLen := 0, errPos := 0 }) ∧
  encode .nop = 0x00000000 ∧
  (∀ c : Word, c.extractLsb' 0 8 = 0x00#8 → c ≠ 0 → ∀ i, decode c ≠ .ok i) ∧
  (∀ s t : State, exec .nop s = .next t → s.ie = true → t.irq = true)

/-- R95: CLR_CT clears every entry and changes nothing else but the completion record; a malformed word of its
opcode is no command; afterwards HUF_ENC of a non-empty input raises MissingCodeEntry(0). -/
def Obligations.ClrCtClearsEveryEntry : Prop :=
  encode .clrCt = 0x00000001 ∧
  (∀ c : Word, c.extractLsb' 0 8 = 0x01#8 → c ≠ 0x00000001 → ∀ i, decode c ≠ .ok i) ∧
  (∀ s : State, ∃ t, exec .clrCt s = .next t ∧
    t = { s with ct := t.ct, status := okStatus s, outLen := 0, errPos := 0 } ∧
    ∀ sym, codeAt t.ct sym = none) ∧
  (∀ s t u : State, exec .clrCt s = .next t → u.ct = t.ct → outputRangesOk u = true → 0 < u.srcLen.toNat →
    (u.buf.read u.srcBase.toNat).isSome = true →
    ∃ v, exec .hufEnc u = .next v ∧ FailsOutput u v 0x07 0)

/-- R96: CLR_TRIE leaves the root alone, with no payload; TRIE_USED reads 1 and PAY_USED 0; a malformed word of its
opcode is no command. -/
def Obligations.ClrTrieLeavesTheBareRoot : Prop :=
  encode .clrTrie = 0x00000002 ∧
  (∀ c : Word, c.extractLsb' 0 8 = 0x02#8 → c ≠ 0x00000002 → ∀ i, decode c ≠ .ok i) ∧
  ∀ s : State, ∃ t, exec .clrTrie s = .next t ∧
    t = { s with trie := t.trie, payUsed := 0, status := okStatus s, outLen := 0, errPos := 0 } ∧
    (∀ w, t.trie.has w = decide (w = [])) ∧ (∀ w, t.trie.payload w = none) ∧ t.trieUsed = 1 ∧
    readReg t .trieUsed = 1 ∧ readReg t .payUsed = 0

/-! ### Code-table commands -/

/-- CT_LOAD succeeds (R99): the entry of SYM becomes the code, or none for an empty one, and no other entry
changes. -/
def Obligations.CtLoadSetsOneEntry : Prop :=
  ∀ (s : State) (sym : Byte) (code : Code),
    s.srcOk = true → s.srcString = some (ascii code) → code.length ≤ 255 →
    ∃ t, exec (.ctLoad sym) s = .next t ∧
      t = { s with ct := t.ct, status := okStatus s, outLen := s.srcLen, errPos := 0 } ∧
      ∀ x, codeAt t.ct x = if x = sym then (if code = [] then none else some code) else codeAt s.ct x

/-- CT_LOAD's errors (R99): a range outside BUF, a code too long before any character is read, and the first
character that is not '0' or '1'. -/
def Obligations.CtLoadReportsErrors : Prop :=
  (∀ (s : State) (sym : Byte), s.srcOk = false →
    ∃ t, exec (.ctLoad sym) s = .next t ∧ FailsWith s t 0x0A 0x010) ∧
  (∀ (s : State) (sym : Byte), s.srcOk = true → 255 < s.srcLen.toNat →
    ∃ t, exec (.ctLoad sym) s = .next t ∧ FailsWith s t 0x06 255) ∧
  (∀ (s : State) (sym : Byte) (pre : Code) (c : Byte), s.srcOk = true → s.srcLen.toNat ≤ 255 →
    pre.length < s.srcLen.toNat → c ≠ 0x30 → c ≠ 0x31 →
    s.buf.readBytes s.srcBase.toNat (pre.length + 1) = some (ascii pre ++ [c]) →
    ∃ t, exec (.ctLoad sym) s = .next t ∧ FailsWith s t 0x04 (BitVec.ofNat 32 pre.length))

/-- GEN_CODES on a loaded tree (R100): it succeeds, the whole table is replaced by the tree's, and OUT_LEN is the
number of leaves. -/
def Obligations.GenCodesBuildsTheTable : Prop :=
  ∀ (s : State) (tr : HuffTree), loadedTree s tr = true →
    ∃ t, exec .genCodes s = .next t ∧
      t = { s with
            ct := t.ct, status := okStatus s, outLen := BitVec.ofNat 32 tr.symbols.length, errPos := 0 } ∧
      ∀ sym, codeAt t.ct sym = tr.table.lookup sym

/-- GEN_CODES always ends in one completion (R100, R101), and succeeds only where TREE_ROOT points to a full binary
tree with distinct symbols. -/
def Obligations.GenCodesSucceedsOnlyOnATree : Prop :=
  ∀ s : State, ∃ t, exec .genCodes s = .next t ∧
    (t.status.done = true → ∃ tr, loadedTree s tr = true) ∧
    (t.status.done = false → ∃ code pos, (code = 0x06#8 ∨ code = 0x09#8) ∧ FailsWith s t code pos)

/-- GEN_CODES's errors (R100): no tree loaded; and at the node `j` to which its walk comes along any path from the
root, the left subtrees before it visited: an internal node that lacks a child, a leaf whose symbol already has a
code, an internal node at depth 255, and a node that is its own left child (a cycle ends at that depth). -/
def Obligations.GenCodesRejectsBrokenTrees : Prop :=
  (∀ s : State, s.treeRoot.valid = false →
    ∃ t, exec .genCodes s = .next t ∧ FailsWith s t 0x09 0xFFFFFFFF) ∧
  (∀ (s : State) (path : Code) (before : List HuffTree) (j : BitVec 9), s.treeRoot.valid = true →
    genWalk s.tree 255 path s.treeRoot.idx before = some j → (before.flatMap HuffTree.symbols).Nodup →
    (∀ l r : Option (BitVec 9), nodeAt s.tree j = .internal l r → (l = none ∨ r = none) →
      ∃ t, exec .genCodes s = .next t ∧ FailsWith s t 0x09 (j.setWidth 32)) ∧
    (∀ sym : Byte, nodeAt s.tree j = .leaf sym → sym ∈ before.flatMap HuffTree.symbols →
      ∃ t, exec .genCodes s = .next t ∧ FailsWith s t 0x09 (j.setWidth 32)) ∧
    (∀ l r : BitVec 9, nodeAt s.tree j = .internal (some l) (some r) → path.length = 255 →
      ∃ t, exec .genCodes s = .next t ∧ FailsWith s t 0x06 (j.setWidth 32)) ∧
    (∀ r : BitVec 9, nodeAt s.tree j = .internal (some j) (some r) →
      ∃ t, exec .genCodes s = .next t ∧ FailsWith s t 0x06 (j.setWidth 32)))

/-- R102: after a GEN_CODES that succeeds no code of CT is a prefix of another symbol's code; and for a
well-formed tree of N leaves, N at least 2, exactly N entries are set and every code has length at most N - 1. -/
def Obligations.GeneratedCodesArePrefixFree : Prop :=
  ∀ s t : State, exec .genCodes s = .next t → t.status.done = true →
    (∀ a b c d, a ≠ b → codeAt t.ct a = some c → codeAt t.ct b = some d → ¬ c <+: d) ∧
    (∀ tr : HuffTree, loadedTree s tr = true → 2 ≤ tr.symbols.length →
      codeCount t.ct = tr.symbols.length ∧
      ∀ a c, codeAt t.ct a = some c → c.length ≤ tr.symbols.length - 1)

/-! ### Huffman commands -/

/-- HUF_ENC succeeds (R104): every input byte has a code and the codes fit, and the output is their ASCII text in
order. -/
def Obligations.HufEncWritesTheBitString : Prop :=
  ∀ (s : State) (str : Bytes) (codes : List Code), outputRangesOk s = true → s.srcString = some str →
    str.map (codeAt s.ct) = codes.map some → (bitText codes).length ≤ s.dstCap.toNat →
    ∃ t, exec .hufEnc s = .next t ∧ SucceedsOutput s t (bitText codes)

/-- HUF_ENC's scan errors (R104): the first input byte that has no code, or whose code does not fit, decides. -/
def Obligations.HufEncReportsTheFirstFailure : Prop :=
  ∀ (s : State) (pre : Bytes) (b : Byte) (codes : List Code), outputRangesOk s = true →
    pre.length < s.srcLen.toNat →
    s.buf.readBytes s.srcBase.toNat (pre.length + 1) = some (pre ++ [b]) →
    pre.map (codeAt s.ct) = codes.map some → (bitText codes).length ≤ s.dstCap.toNat →
    match codeAt s.ct b with
    | none =>
      ∃ t, exec .hufEnc s = .next t ∧ FailsOutput s t 0x07 (BitVec.ofNat 32 pre.length)
    | some c =>
      s.dstCap.toNat < (bitText codes).length + c.length →
      ∃ t, exec .hufEnc s = .next t ∧ FailsOutput s t 0x01 (BitVec.ofNat 32 pre.length)

/-- HUF_DEC succeeds (R105): an input that is a sequence of codewords of the loaded tree decodes to their
symbols; the empty input decodes to nothing even when no tree is loaded. -/
def Obligations.HufDecWritesTheSymbols : Prop :=
  ∀ (s : State) (pairs : List (Code × Byte)), outputRangesOk s = true →
    (pairs = [] ∨ s.treeRoot.valid = true) →
    (∀ e ∈ pairs, isCodeword s.tree s.treeRoot.idx e.1 e.2 = true) →
    s.srcString = some (bitText (pairs.map (fun e => e.1))) → pairs.length ≤ s.dstCap.toNat →
    ∃ t, exec .hufDec s = .next t ∧ SucceedsOutput s t (pairs.map (fun e => e.2))

/-- HUF_DEC succeeds only so (R105, R108): a success means the input was a sequence of codewords of the loaded
tree and the output their symbols. -/
def Obligations.HufDecSucceedsOnlyOnCodewords : Prop :=
  ∀ s t : State, exec .hufDec s = .next t → t.status.done = true →
    ∃ pairs : List (Code × Byte), (pairs = [] ∨ s.treeRoot.valid = true) ∧
      (∀ e ∈ pairs, isCodeword s.tree s.treeRoot.idx e.1 e.2 = true) ∧
      s.srcString = some (bitText (pairs.map (fun e => e.1))) ∧
      SucceedsOutput s t (pairs.map (fun e => e.2)) ∧ t.outLen.toNat ≤ s.srcLen.toNat

/-- HUF_DEC's scan errors (R105): after the codewords `pairs` and the bits `part` of the next one, a foreign
character, a null child, a '1' on a single-leaf tree, a symbol that does not fit, and the end of the input. With no
tree loaded the first character is checked first, then TreeTraversalFailure(0). -/
def Obligations.HufDecReportsTheFirstFailure : Prop :=
  (∀ (s : State) (pairs : List (Code × Byte)) (part : Code) (j : BitVec 9), hufDecAt s pairs part j = true →
    (∀ c : Byte, (hufDecRead pairs part).length < s.srcLen.toNat →
      s.buf.readBytes s.srcBase.toNat ((hufDecRead pairs part).length + 1) =
        some (hufDecRead pairs part ++ [c]) →
      (bitOf c = none →
        ∃ t, exec .hufDec s = .next t ∧
          FailsOutput s t 0x04 (BitVec.ofNat 32 (hufDecRead pairs part).length)) ∧
      (∀ b l r, bitOf c = some b → nodeAt s.tree j = .internal l r → (if b then r else l) = none →
        ∃ t, exec .hufDec s = .next t ∧
          FailsOutput s t 0x05 (BitVec.ofNat 32 (hufDecRead pairs part).length)) ∧
      (∀ sym, nodeAt s.tree j = .leaf sym → c = 0x31 →
        ∃ t, exec .hufDec s = .next t ∧
          FailsOutput s t 0x05 (BitVec.ofNat 32 (hufDecRead pairs part).length)) ∧
      (∀ b sym, bitOf c = some b → isCodeword s.tree s.treeRoot.idx (part ++ [b]) sym = true →
        pairs.length = s.dstCap.toNat →
        ∃ t, exec .hufDec s = .next t ∧
          FailsOutput s t 0x01 (BitVec.ofNat 32 (hufDecRead pairs part).length))) ∧
    (part ≠ [] → s.srcString = some (hufDecRead pairs part) →
      ∃ t, exec .hufDec s = .next t ∧ FailsOutput s t 0x08 s.srcLen)) ∧
  (∀ (s : State) (c : Byte), outputRangesOk s = true → s.treeRoot.valid = false → 0 < s.srcLen.toNat →
    s.buf.read s.srcBase.toNat = some c →
    if c = 0x30 ∨ c = 0x31 then ∃ t, exec .hufDec s = .next t ∧ FailsOutput s t 0x05 0
    else ∃ t, exec .hufDec s = .next t ∧ FailsOutput s t 0x04 0)

/-- R107: after GEN_CODES on a well-formed tree every symbol of a text over it has a code; where the codes fit in
DST, HUF_ENC of the text succeeds, and HUF_DEC of the result, where the text fits in DST, gives back the text. -/
def Obligations.HuffmanRoundTrip : Prop :=
  ∀ (s0 s1 s2 : State) (tr : HuffTree) (text : Bytes),
    loadedTree s0 tr = true → exec .genCodes s0 = .next s1 →
    (s2.ct = s1.ct ∧ outputRangesOk s2 = true ∧ s2.srcString = some text ∧ text ≠ [] ∧
      (∀ b ∈ text, b ∈ tr.symbols)) →
    ∃ codes : List Code, text.map (codeAt s1.ct) = codes.map some ∧
      ((bitText codes).length ≤ s2.dstCap.toNat →
        ∃ s3, exec .hufEnc s2 = .next s3 ∧ SucceedsOutput s2 s3 (bitText codes) ∧
          ∀ s4 : State, (s4.tree = s0.tree ∧ s4.treeRoot = s0.treeRoot ∧ s4.buf = s3.buf ∧
              outputRangesOk s4 = true ∧ s4.srcBase = s2.dstBase ∧ s4.srcLen = s3.outLen ∧
              text.length ≤ s4.dstCap.toNat) →
            ∃ s5, exec .hufDec s4 = .next s5 ∧ SucceedsOutput s4 s5 text)

/-! ### Run-length commands -/

/-- RLE_ENC succeeds (R109): the output is the tokens of the input's maximal runs. A token is the run's character,
with its length in decimal behind it when that is above 1; the decimal text of n is digits that denote n, the first
of them not 0 (R9). -/
def Obligations.RleEncWritesTheRuns : Prop :=
  (∀ (s : State) (str : Bytes), outputRangesOk s = true → s.srcString = some str →
    (rleText str).length ≤ s.dstCap.toNat →
    ∃ t, exec .rleEnc s = .next t ∧ SucceedsOutput s t (rleText str)) ∧
  (∀ (c : Byte) (rest : Bytes), tokenOf (c :: rest) = c :: (if rest = [] then [] else dec (rest.length + 1))) ∧
  (∀ n : Nat, 1 ≤ n →
    ∃ (d : Digit) (ds : List Digit), dec n = digitText (d :: ds) ∧ numberOf (d :: ds) = n ∧ d ≠ 0)

/-- RLE_ENC's only scan error (R109): the first run whose token does not fit, at the index the run starts. -/
def Obligations.RleEncReportsTheFirstOverflow : Prop :=
  ∀ (s : State) (str run : Bytes) (before after : List Bytes), outputRangesOk s = true →
    s.srcString = some str → str.splitBy (fun a b => a == b) = before ++ run :: after →
    (before.flatMap tokenOf).length ≤ s.dstCap.toNat →
    s.dstCap.toNat < (before.flatMap tokenOf).length + (tokenOf run).length →
    ∃ t, exec .rleEnc s = .next t ∧ FailsOutput s t 0x01 (BitVec.ofNat 32 before.flatten.length)

/-- R110: a run gives 1 byte, or its character and its count in at most as many bytes as the run; the output is
never longer than the input and DST_CAP of SRC_LEN or more always suffices; an input with no two adjacent equal bytes
is its own output; and "0111" and thirteen '0's give the same output. -/
def Obligations.RleEncLengthIdempotenceAndCollision : Prop :=
  (∀ (c : Byte) (r : Nat), (runToken c 1).length = 1 ∧
    (2 ≤ r → (runToken c r).length = 1 + (dec r).length ∧ 1 + (dec r).length ≤ r)) ∧
  (∀ s t : State, exec .rleEnc s = .next t → t.status.done = true → t.outLen.toNat ≤ s.srcLen.toNat) ∧
  (∀ (s : State) (str : Bytes), outputRangesOk s = true → s.srcString = some str →
    s.srcLen.toNat ≤ s.dstCap.toNat →
    ∃ t out, exec .rleEnc s = .next t ∧ SucceedsOutput s t out ∧
      (str.IsChain (fun a b => a ≠ b) → out = str) ∧
      (str = [0x30, 0x31, 0x31, 0x31] ∨ str = List.replicate 13 0x30 → out = [0x30, 0x31, 0x33]))

/-- TRIE_INSERT succeeds (R111). `l0` is the length of the key's longest prefix in `K`. The new nodes are the longer
prefixes of the key, the payload stands at the key's node, and it is copied into PAYMEM at offset PU. -/
def Obligations.TrieInsertAddsTheKey : Prop :=
  ∀ (s : State) (key : List Digit) (pay : Bytes) (l0 : Nat), s.TrieOk →
    s.srcOk = true → s.auxOk = true → s.srcString = some (digitText key) → s.auxString = some pay →
    l0 ≤ key.length → (∀ j, j ≤ key.length → (s.trie.has (key.take j) = true ↔ j ≤ l0)) →
    s.trieUsed + (key.length - l0) ≤ s.params.trieNodes → s.payUsed + pay.length ≤ s.params.payBytes →
    ∃ t, exec .trieInsert s = .next t ∧
      t = { s with
            trie := t.trie, payMem := t.payMem, payUsed := s.payUsed + pay.length, status := okStatus s,
            outLen := BitVec.ofNat 32 (key.length - l0), errPos := 0 } ∧
      t.trieUsed = s.trieUsed + (key.length - l0) ∧
      (∀ w, t.trie.has w = (s.trie.has w || w.isPrefixOf key)) ∧
      (∀ w, t.trie.payload w = if w = key then some pay else s.trie.payload w) ∧
      (∀ a, t.payMem.read a =
        if s.payUsed ≤ a ∧ a < s.payUsed + pay.length then pay[a - s.payUsed]? else s.payMem.read a)

/-- TRIE_INSERT's errors after the range checks (R111), in order: the first key byte that is no digit, the first
node the pool cannot hold, and a payload PAYMEM cannot hold. The trie is unchanged. -/
def Obligations.TrieInsertReportsErrors : Prop :=
  (∀ (s : State) (pre : List Digit) (c : Byte), s.srcOk = true → s.auxOk = true →
    pre.length < s.srcLen.toNat → digitOf c = none →
    s.buf.readBytes s.srcBase.toNat (pre.length + 1) = some (digitText pre ++ [c]) →
    ∃ t, exec .trieInsert s = .next t ∧ FailsWith s t 0x02 (BitVec.ofNat 32 pre.length)) ∧
  (∀ (s : State) (key : List Digit) (l0 : Nat), s.srcOk = true → s.auxOk = true →
    s.srcString = some (digitText key) → l0 ≤ key.length → s.trie.has [] = true →
    (∀ j, j ≤ key.length → (s.trie.has (key.take j) = true ↔ j ≤ l0)) →
    (s.params.trieNodes < s.trieUsed + (key.length - l0) →
      ∃ t, exec .trieInsert s = .next t ∧
        FailsWith s t 0x01 (BitVec.ofNat 32 (l0 + (s.params.trieNodes - s.trieUsed)))) ∧
    (s.trieUsed + (key.length - l0) ≤ s.params.trieNodes →
      s.params.payBytes < s.payUsed + s.auxLen.toNat →
      ∃ t, exec .trieInsert s = .next t ∧ FailsWith s t 0x01 0xFFFFFFFF))

/-- RLE_DEC succeeds (R112) on every digit text the two-mode walk decodes, with the walk's output. -/
def Obligations.RleDecFollowsTheTwoModeWalk : Prop :=
  ∀ (s : State) (ds : List Digit) (out : Bytes), s.TrieOk → outputRangesOk s = true →
    s.srcString = some (digitText ds) → RleDecodes s.trie ds out → out.length ≤ s.dstCap.toNat →
    ∃ t, exec .rleDec s = .next t ∧ SucceedsOutput s t out

/-- RLE_DEC succeeds only so (R112): a success means the input was digit text the two-mode walk decodes, and the
output the walk's. -/
def Obligations.RleDecSucceedsOnlyByTheWalk : Prop :=
  ∀ s t : State, s.TrieOk → exec .rleDec s = .next t → t.status.done = true →
    ∃ ds out, s.srcString = some (digitText ds) ∧ RleDecodes s.trie ds out ∧ SucceedsOutput s t out

/-- RLE_DEC's scan errors (R112), after the leaves `leaves` and the descent to `w`: a byte that is no digit; a leaf
whose payload does not fit; a count, up to the end of the input or to a byte that is no digit, on a node with no
payload, or one whose repeated payload does not fit; the byte that is no digit after a count that fits; and at the
end of the input a node with no payload, or one whose payload does not fit. -/
def Obligations.RleDecReportsTheFirstFailure : Prop :=
  ∀ (s : State) (leaves : List (List Digit × Bytes)) (w : List Digit), s.TrieOk → rleDecAt s leaves w = true →
    (∀ c : Byte, digitOf c = none → srcStartsWith s (rleDecRead leaves w ++ [c]) = true →
      ∃ t, exec .rleDec s = .next t ∧
        FailsOutput s t 0x02 (BitVec.ofNat 32 (rleDecRead leaves w).length)) ∧
    (∀ (d : Digit) (p : Bytes), s.trie.has (w ++ [d]) = true → s.trie.isLeaf (w ++ [d]) = true →
      s.trie.payload (w ++ [d]) = some p → srcStartsWith s (rleDecRead leaves w ++ digitText [d]) = true →
      s.dstCap.toNat < (leaves.flatMap (fun e => e.2)).length + p.length →
      ∃ t, exec .rleDec s = .next t ∧
        FailsOutput s t 0x01 (BitVec.ofNat 32 (rleDecRead leaves w).length)) ∧
    (∀ (d : Digit) (ds : List Digit), s.trie.has (w ++ [d]) = false →
      (s.srcString = some (rleDecRead leaves w ++ digitText (d :: ds)) ∨
        ∃ c : Byte, digitOf c = none ∧
          srcStartsWith s (rleDecRead leaves w ++ digitText (d :: ds) ++ [c]) = true) →
      match s.trie.payload w with
      | none =>
        ∃ t, exec .rleDec s = .next t ∧
          FailsOutput s t 0x03 (BitVec.ofNat 32 (rleDecRead leaves w).length)
      | some p =>
        s.dstCap.toNat <
          (leaves.flatMap (fun e => e.2)).length + numberOf (d :: ds) * p.length →
        ∃ t, exec .rleDec s = .next t ∧
          FailsOutput s t 0x01 (BitVec.ofNat 32 (rleDecRead leaves w).length)) ∧
    (∀ (d : Digit) (ds : List Digit) (c : Byte) (p : Bytes), s.trie.has (w ++ [d]) = false →
      s.trie.payload w = some p → digitOf c = none →
      srcStartsWith s (rleDecRead leaves w ++ digitText (d :: ds) ++ [c]) = true →
      (leaves.flatMap (fun e => e.2)).length + numberOf (d :: ds) * p.length ≤ s.dstCap.toNat →
      ∃ t, exec .rleDec s = .next t ∧
        FailsOutput s t 0x02 (BitVec.ofNat 32 ((rleDecRead leaves w).length + (d :: ds).length))) ∧
    (w ≠ [] → s.srcString = some (rleDecRead leaves w) →
      match s.trie.payload w with
      | none => ∃ t, exec .rleDec s = .next t ∧ FailsOutput s t 0x08 s.srcLen
      | some p =>
        s.dstCap.toNat < (leaves.flatMap (fun e => e.2)).length + p.length →
        ∃ t, exec .rleDec s = .next t ∧ FailsOutput s t 0x01 s.srcLen)

/-- R114: after CLR_TRIE, TRIE_INSERT with key RLE_ENC(b) and payload b makes RLE_DEC of the key return b exactly
when DST_CAP is at least the length of b; otherwise the append at the key's last digit raises AllocationFailure. -/
def Obligations.SingleKeyRoundTrip : Prop :=
  ∀ (s0 s1 s2 s3 s4 : State) (b : Bytes),
    exec .clrTrie s0 = .next s1 →
    (s2.trie = s1.trie ∧ s2.srcString = some (rleText b) ∧ s2.auxString = some b) →
    exec .trieInsert s2 = .next s3 → s3.status.done = true →
    (s4.trie = s3.trie ∧ outputRangesOk s4 = true ∧ s4.srcString = some (rleText b)) →
    if b.length ≤ s4.dstCap.toNat then ∃ s5, exec .rleDec s4 = .next s5 ∧ SucceedsOutput s4 s5 b
    else ∃ s5, exec .rleDec s4 = .next s5 ∧ FailsOutput s4 s5 0x01 (s4.srcLen - 1)

/-- R115: when the trie holds one non-empty key, RLE_DEC succeeds only on repetitions of that key, so count expansion
never produces output; when the one key is empty, every non-empty input is a count expansion of its payload. -/
def Obligations.SingleKeyDecodesOnlyItsRepeats : Prop :=
  ∀ (s0 s1 s2 s3 s4 s5 : State) (key : List Digit) (pay : Bytes),
    exec .clrTrie s0 = .next s1 →
    (s2.trie = s1.trie ∧ s2.srcString = some (digitText key) ∧ s2.auxString = some pay) →
    exec .trieInsert s2 = .next s3 → s3.status.done = true → s4.trie = s3.trie →
    exec .rleDec s4 = .next s5 → s5.status.done = true →
    if key = [] then
      ∃ ds, s4.srcString = some (digitText ds) ∧
        SucceedsOutput s4 s5 (if ds = [] then [] else repeatBytes pay (numberOf ds))
    else
      ∃ n, s4.srcString = some (digitText (List.replicate n key).flatten) ∧
        SucceedsOutput s4 s5 (List.replicate n pay).flatten

/-! ### What every command does -/

/-- R90: the argument ranges are checked before anything else, SRC, then DST or AUX, then the overlap, in naturals
with no wrap; the commands that use no range never raise RangeFault. That the DST bytes below BUF_BYTES are drawn, and
so written, after a RangeFault too (in FailsOutput) is R119 as the model reads it (entry 5). -/
def Obligations.RangeChecksComeFirst : Prop :=
  (∀ (i : Instr) (s : State), isOutputCommand i = true →
    if s.params.bufBytes < s.srcBase.toNat + s.srcLen.toNat then
      ∃ t, exec i s = .next t ∧ FailsOutput s t 0x0A 0x010
    else if s.params.bufBytes < s.dstBase.toNat + s.dstCap.toNat then
      ∃ t, exec i s = .next t ∧ FailsOutput s t 0x0A 0x018
    else if 0 < s.srcLen.toNat ∧ 0 < s.dstCap.toNat ∧
        s.srcBase.toNat < s.dstBase.toNat + s.dstCap.toNat ∧
        s.dstBase.toNat < s.srcBase.toNat + s.srcLen.toNat then
      ∃ t, exec i s = .next t ∧ FailsOutput s t 0x0A 0xFFFFFFFF
    else ∀ t, exec i s = .next t → t.status.errCode ≠ 0x0A) ∧
  (∀ (sym : Byte) (s : State),
    if s.params.bufBytes < s.srcBase.toNat + s.srcLen.toNat then
      ∃ t, exec (.ctLoad sym) s = .next t ∧ FailsWith s t 0x0A 0x010
    else ∀ t, exec (.ctLoad sym) s = .next t → t.status.errCode ≠ 0x0A) ∧
  (∀ s : State,
    if s.params.bufBytes < s.srcBase.toNat + s.srcLen.toNat then
      ∃ t, exec .trieInsert s = .next t ∧ FailsWith s t 0x0A 0x010
    else if s.params.bufBytes < s.auxBase.toNat + s.auxLen.toNat then
      ∃ t, exec .trieInsert s = .next t ∧ FailsWith s t 0x0A 0x020
    else ∀ t, exec .trieInsert s = .next t → t.status.errCode ≠ 0x0A) ∧
  (∀ (i : Instr) (s t : State), i = .nop ∨ i = .clrCt ∨ i = .clrTrie ∨ i = .genCodes →
    exec i s = .next t → t.status.errCode ≠ 0x0A)

/-- R21, R88 and R120: in a state that keeps the trie invariants, a command whose operand bytes are written runs to
completion, or to exactly one error. -/
def Obligations.EveryCommandCompletes : Prop :=
  ∀ (i : Instr) (s : State), s.TrieOk → operandsWritten i s = true →
    ∃ t, exec i s = .next t ∧ t.status.busy = false ∧ (t.status.done = true ↔ t.status.err = false)

/-- R118 and R119: a command that completes leaves STATUS, OUT_LEN and ERR_POS in one of the two forms of the
completion record, DROP unchanged. The error codes are those of R116. -/
def Obligations.CompletionRecordHasTwoForms : Prop :=
  ∀ (i : Instr) (s t : State), exec i s = .next t →
    (t.status = okStatus s ∧ t.errPos = 0) ∨
    (∃ code : BitVec 8, 0x01 ≤ code.toNat ∧ code.toNat ≤ 0x0A ∧ t.status = errStatus s code ∧ t.outLen = 0)

/-- No command, successful or not, writes an argument register (R35), TREE_ROOT (R39) or a TREE word (R43, R119). That
it writes neither CMD (R34) nor, on success, CTRL (R118) is the model's reading of those rules (entry 21), and what the
host still has to do is the model's own (entry 3). -/
def Obligations.CommandsKeepTheHostRegisters : Prop :=
  ∀ (i : Instr) (s t : State), exec i s = .next t →
    t.params = s.params ∧ t.ie = s.ie ∧ t.cmd = s.cmd ∧
    t.srcBase = s.srcBase ∧ t.srcLen = s.srcLen ∧ t.dstBase = s.dstBase ∧ t.dstCap = s.dstCap ∧
    t.auxBase = s.auxBase ∧ t.auxLen = s.auxLen ∧ t.treeRoot = s.treeRoot ∧ t.tree = s.tree ∧
    t.host = s.host

/-- R92: when a command raises an error, CT, K, P, TU, PU and PAYMEM keep their values. -/
def Obligations.FailedCommandsKeepTheTables : Prop :=
  ∀ (i : Instr) (s t : State), exec i s = .next t → t.status.err = true →
    t.ct = s.ct ∧ t.trie = s.trie ∧ t.trieUsed = s.trieUsed ∧ t.payUsed = s.payUsed ∧ t.payMem = s.payMem

/-- R44, R50, R73: CT changes only in a step that runs CLR_CT, CT_LOAD or GEN_CODES or is a reset, and the trie and
PU only in one that runs CLR_TRIE or TRIE_INSERT or is a reset. -/
def Obligations.TablesChangeOnlyByTheirCommands : Prop :=
  ∀ s t : State, step s = .next t →
    (t.ct ≠ s.ct →
      (s.turn = some .engine ∧ ∃ i, decode s.cmd = .ok i ∧ writesCodeTable i = true) ∨
      (s.turn = some .host ∧ ∃ e rest, s.host.pending = e :: rest ∧ isReset e = true)) ∧
    (t.trie ≠ s.trie ∨ t.payUsed ≠ s.payUsed →
      (s.turn = some .engine ∧ ∃ i, decode s.cmd = .ok i ∧ writesTrie i = true) ∨
      (s.turn = some .host ∧ ∃ e rest, s.host.pending = e :: rest ∧ isReset e = true))

/-- R67: a command that completes leaves every BUF byte outside its output range as it was: the range of OUT_LEN
bytes at DST_BASE after success, of DST_CAP bytes after an error, and nothing for a command with no DST range. -/
def Obligations.CommandsWriteOnlyTheDestination : Prop :=
  ∀ (i : Instr) (s t : State), exec i s = .next t →
    if isOutputCommand i then
      (t.status.done = true → t.outLen.toNat ≤ s.dstCap.toNat ∧
        SameOutside s t s.dstBase.toNat t.outLen.toNat) ∧
      (t.status.err = true → SameOutside s t s.dstBase.toNat s.dstCap.toNat)
    else t.buf = s.buf

/-- R67, R36 and R70: a command reads BUF only inside its own operand ranges, SRC for the commands that read it, AUX
for TRIE_INSERT alone, and no BUF byte for NOP, CLR_CT, CLR_TRIE and GEN_CODES. Two states that differ in BUF outside
those ranges alone give the same outcome but for BUF, and the same output bytes. -/
def Obligations.CommandsReadOnlyTheirOperands : Prop :=
  ∀ (i : Instr) (s : State) (m : Memory),
    (readsSrc i = true →
      ∀ k, k < s.srcLen.toNat → m.read (s.srcBase.toNat + k) = s.buf.read (s.srcBase.toNat + k)) →
    (readsAux i = true →
      ∀ k, k < s.auxLen.toNat → m.read (s.auxBase.toNat + k) = s.buf.read (s.auxBase.toNat + k)) →
    match exec i s, exec i { s with buf := m } with
    | .next t, .next u =>
      u = { t with buf := u.buf } ∧
      (isOutputCommand i = true → t.status.done = true → ∀ k, k < t.outLen.toNat →
        u.buf.read (s.dstBase.toNat + k) = t.buf.read (s.dstBase.toNat + k))
    | .fault f, .fault g => f = g
    | _, _ => False

/-- R137: a command that comes to an unwritten BUF byte of its operands stops with the model's fault at that byte's
address: the first SRC byte of an output command; a later one where the walk of the bytes before it raises nothing
(for RLE_DEC also inside a count); a SRC byte of CT_LOAD and TRIE_INSERT after characters they accept; and an AUX byte
of TRIE_INSERT after a key and with room for the payload. So does a host buffer-port read of an unwritten byte. -/
def Obligations.UnwrittenBytesFault : Prop :=
  (∀ (i : Instr) (s : State), isOutputCommand i = true → outputRangesOk s = true → 0 < s.srcLen.toNat →
    s.buf.read s.srcBase.toNat = none → exec i s = .fault (.unwrittenByte s.srcBase.toNat)) ∧
  (∀ (s : State) (pre : Bytes) (codes : List Code), outputRangesOk s = true → srcUnwrittenAfter s pre = true →
    pre.map (codeAt s.ct) = codes.map some → (bitText codes).length ≤ s.dstCap.toNat →
    exec .hufEnc s = .fault (.unwrittenByte (s.srcBase.toNat + pre.length))) ∧
  (∀ (s : State) (pairs : List (Code × Byte)) (part : Code) (j : BitVec 9), hufDecAt s pairs part j = true →
    srcUnwrittenAfter s (hufDecRead pairs part) = true →
    exec .hufDec s = .fault (.unwrittenByte (s.srcBase.toNat + (hufDecRead pairs part).length))) ∧
  (∀ (s : State) (pre run : Bytes) (before : List Bytes), outputRangesOk s = true →
    srcUnwrittenAfter s pre = true → pre.splitBy (fun a b => a == b) = before ++ [run] →
    (before.flatMap tokenOf).length ≤ s.dstCap.toNat →
    exec .rleEnc s = .fault (.unwrittenByte (s.srcBase.toNat + pre.length))) ∧
  (∀ (s : State) (leaves : List (List Digit × Bytes)) (w : List Digit), s.TrieOk → rleDecAt s leaves w = true →
    (srcUnwrittenAfter s (rleDecRead leaves w) = true →
      exec .rleDec s = .fault (.unwrittenByte (s.srcBase.toNat + (rleDecRead leaves w).length))) ∧
    (∀ (d : Digit) (ds : List Digit), s.trie.has (w ++ [d]) = false →
      srcUnwrittenAfter s (rleDecRead leaves w ++ digitText (d :: ds)) = true →
      exec .rleDec s =
        .fault (.unwrittenByte (s.srcBase.toNat + ((rleDecRead leaves w).length + (d :: ds).length))))) ∧
  (∀ (sym : Byte) (s : State) (pre : Code), s.srcOk = true → s.srcLen.toNat ≤ 255 →
    srcUnwrittenAfter s (ascii pre) = true →
    exec (.ctLoad sym) s = .fault (.unwrittenByte (s.srcBase.toNat + pre.length))) ∧
  (∀ (s : State) (pre : List Digit), s.srcOk = true → s.auxOk = true →
    srcUnwrittenAfter s (digitText pre) = true →
    exec .trieInsert s = .fault (.unwrittenByte (s.srcBase.toNat + pre.length))) ∧
  (∀ (s : State) (key : List Digit) (l0 : Nat) (pre : Bytes), s.srcOk = true → s.auxOk = true →
    s.srcString = some (digitText key) → l0 ≤ key.length →
    (∀ j, j ≤ key.length → (s.trie.has (key.take j) = true ↔ j ≤ l0)) →
    s.trieUsed + (key.length - l0) ≤ s.params.trieNodes → s.payUsed + s.auxLen.toNat ≤ s.params.payBytes →
    auxUnwrittenAfter s pre = true →
    exec .trieInsert s = .fault (.unwrittenByte (s.auxBase.toNat + pre.length))) ∧
  (∀ (s : State) (a : Nat) (rest : List HostEvent), s.status.busy = false → a < s.params.bufBytes →
    s.buf.read a = none → step (withEvents s (.bufRead a) rest) = .fault (.unwrittenByte a))

/-- R49: every command keeps the trie invariants. -/
def Obligations.CommandsKeepTheTrieInvariants : Prop :=
  ∀ (i : Instr) (s t : State), s.TrieOk → exec i s = .next t → t.TrieOk

/-! ### The register port -/

/-- R27 to R41: what a register read gives, at every offset of the map, with BUSY = 0; and STATUS with BUSY = 1. -/
def Obligations.RegisterReadsFollowTheMap : Prop :=
  (∀ (s : State) (rest : List HostEvent), s.status.busy = false →
    (∀ p ∈ [((0x000 : BitVec 12), (0x48520007 : Word)),
        (0x004, if s.ie then 1 else 0),
        (0x008, BitVec.ofNat 32
          ((if s.status.done then 2 else 0) + (if s.status.err then 4 else 0) +
           (if s.status.drop then 8 else 0) + 256 * s.status.errCode.toNat)),
        (0x00C, s.cmd), (0x010, s.srcBase), (0x014, s.srcLen), (0x018, s.dstBase), (0x01C, s.dstCap),
        (0x020, s.auxBase), (0x024, s.auxLen), (0x028, s.outLen), (0x02C, s.errPos),
        (0x030, BitVec.ofNat 32 ((if s.treeRoot.valid then 2 ^ 31 else 0) + s.treeRoot.idx.toNat)),
        (0x034, BitVec.ofNat 32 s.trieUsed), (0x038, BitVec.ofNat 32 s.payUsed),
        (0x03C, BitVec.ofNat 32 s.params.bufBytes), (0x040, BitVec.ofNat 32 s.params.trieNodes),
        (0x044, BitVec.ofNat 32 s.params.payBytes)],
      step (withEvents s (.regRead 4 p.1) rest) = .next (afterEvent s s rest (.word p.2))) ∧
    (∀ (n : Nat) (h : n < 512), step (withEvents s (.regRead 4 (BitVec.ofNat 12 (0x800 + 4 * n))) rest) =
      .next (afterEvent s s rest (.word s.tree[n])))) ∧
  (∀ (s : State) (rest : List HostEvent), s.status.busy = true → s.host.schedule.head? = some .host →
    step (withEvents s (.regRead 4 0x008) rest) = .next (afterEvent s s rest (.word (BitVec.ofNat 32
      (1 + (if s.status.done then 2 else 0) + (if s.status.err then 4 else 0) +
       (if s.status.drop then 8 else 0) + 256 * s.status.errCode.toNat)))))

/-- R35, R39 and R43: a write of an argument register, of TREE_ROOT or of a TREE word stores the value and changes
nothing else. -/
def Obligations.RegisterWritesStoreTheValue : Prop :=
  ∀ (s : State) (v : Word) (rest : List HostEvent), s.status.busy = false →
    step (withEvents s (.regWrite 4 0x010 v) rest) = .next (afterEvent s { s with srcBase := v } rest .none) ∧
    step (withEvents s (.regWrite 4 0x014 v) rest) = .next (afterEvent s { s with srcLen := v } rest .none) ∧
    step (withEvents s (.regWrite 4 0x018 v) rest) = .next (afterEvent s { s with dstBase := v } rest .none) ∧
    step (withEvents s (.regWrite 4 0x01C v) rest) = .next (afterEvent s { s with dstCap := v } rest .none) ∧
    step (withEvents s (.regWrite 4 0x020 v) rest) = .next (afterEvent s { s with auxBase := v } rest .none) ∧
    step (withEvents s (.regWrite 4 0x024 v) rest) = .next (afterEvent s { s with auxLen := v } rest .none) ∧
    step (withEvents s (.regWrite 4 0x030 v) rest) =
      .next (afterEvent s { s with treeRoot := { valid := v.getLsbD 31, idx := v.extractLsb' 0 9 } } rest .none) ∧
    (∀ (n : Nat) (h : n < 512), step (withEvents s (.regWrite 4 (BitVec.ofNat 12 (0x800 + 4 * n)) v) rest) =
      .next (afterEvent s { s with tree := s.tree.set n v h } rest .none))

/-- R42: a write to a read-only register has no effect. -/
def Obligations.ReadOnlyRegistersIgnoreWrites : Prop :=
  ∀ (s : State) (v : Word) (rest : List HostEvent) (off : BitVec 12), s.status.busy = false →
    off ∈ [(0x000 : BitVec 12), 0x028, 0x02C, 0x034, 0x038, 0x03C, 0x040, 0x044] →
    step (withEvents s (.regWrite 4 off v) rest) = .next (afterEvent s s rest .none)

/-- R28: a reserved offset reads 0 and ignores writes; the reserved bits of CTRL, STATUS and TREE_ROOT read 0, and
a write that differs in reserved bits alone has the same effect; a TREE word stores all 32 bits. -/
def Obligations.ReservedOffsetsAndBits : Prop :=
  (∀ (s : State) (n : Nat) (v : Word) (rest : List HostEvent), s.status.busy = false → 18 ≤ n → n < 512 →
    step (withEvents s (.regRead 4 (BitVec.ofNat 12 (4 * n))) rest) = .next (afterEvent s s rest (.word 0)) ∧
    step (withEvents s (.regWrite 4 (BitVec.ofNat 12 (4 * n)) v) rest) = .next (afterEvent s s rest .none)) ∧
  (∀ s : State, readReg s .ctrl &&& 0xFFFFFFFE = 0 ∧ readReg s .status &&& 0xFFFF00F0 = 0 ∧
    readReg s .treeRoot &&& 0x7FFFFE00 = 0) ∧
  (∀ (s : State) (v u : Word),
    (v &&& 0x00000003 = u &&& 0x00000003 → writeReg s .ctrl v = writeReg s .ctrl u) ∧
    (v &&& 0x0000000E = u &&& 0x0000000E → writeReg s .status v = writeReg s .status u) ∧
    (v &&& 0x800001FF = u &&& 0x800001FF → writeReg s .treeRoot v = writeReg s .treeRoot u)) ∧
  (∀ (s : State) (i : BitVec 9) (v : Word), readReg (writeReg s (.tree i) v) (.tree i) = v)

/-- R32: a STATUS write while BUSY = 0 clears DONE, ERR with ERRCODE, and DROP where it has a 1; and while BUSY = 1
it is refused. That it leaves ERR_POS is the model's choice between R32 and R122 (entry 20). -/
def Obligations.StatusWriteClearsFlags : Prop :=
  (∀ (s : State) (v : Word) (rest : List HostEvent), s.status.busy = false →
    step (withEvents s (.regWrite 4 0x008 v) rest) = .next (afterEvent s { s with status :=
      { busy := false
        done := if v.getLsbD 1 then false else s.status.done
        err := if v.getLsbD 2 then false else s.status.err
        drop := if v.getLsbD 3 then false else s.status.drop
        errCode := if v.getLsbD 2 then 0x00 else s.status.errCode } } rest .none)) ∧
  (∀ (s : State) (v : Word) (rest : List HostEvent), s.status.busy = true →
    s.host.schedule.head? = some .host →
    step (withEvents s (.regWrite 4 0x008 v) rest) = .refused .busyAccess)

/-- R33: a CMD write is accepted when BUSY = 0, whatever its value, and dropped when BUSY = 1. -/
def Obligations.CmdWriteIssuesOrDrops : Prop :=
  (∀ (s : State) (v : Word) (rest : List HostEvent), s.status.busy = false →
    step (withEvents s (.regWrite 4 0x00C v) rest) = .next (afterEvent s { s with cmd := v, status :=
      { busy := true, done := false, err := false, drop := s.status.drop, errCode := 0x00 } } rest .none)) ∧
  (∀ (s : State) (v : Word) (rest : List HostEvent), s.status.busy = true →
    s.host.schedule.head? = some .host →
    step (withEvents s (.regWrite 4 0x00C v) rest) =
      .next (afterEvent s { s with status := { s.status with drop := true } } rest .none))

/-- R30 and R134: a CTRL write with bit 1 = 0 sets IE to bit 0; with bit 1 = 1 it resets every register, TREE, CT and
the trie, leaves BUF and PAYMEM unchanged, discards bit 0 and raises no interrupt; while BUSY = 1 it is refused. CTRL
reads IE in bit 0 and 0 elsewhere. -/
def Obligations.CtrlWriteSetsIeOrResets : Prop :=
  (∀ (s : State) (v : Word) (rest : List HostEvent), s.status.busy = false →
    step (withEvents s (.regWrite 4 0x004 v) rest) =
      if v.getLsbD 1 then
        .next (afterEvent s
          { State.resetWith s.params s.draws s.host with buf := s.buf, payMem := s.payMem } rest .none)
      else .next (afterEvent s { s with ie := v.getLsbD 0 } rest .none)) ∧
  (∀ s : State, s.softReset.status.done = false ∧ s.softReset.status.err = false ∧ s.softReset.irq = false) ∧
  (∀ (s : State) (v : Word) (rest : List HostEvent), s.status.busy = true → s.host.schedule.head? = some .host →
    step (withEvents s (.regWrite 4 0x004 v) rest) = .refused .busyAccess) ∧
  (∀ s : State, readReg s .ctrl = if s.ie then 1 else 0)

/-! ### The buffer port, the obligations, the interrupt -/

/-- R59: a host access below BUF_BYTES reads or writes that byte, one at or above it reads 0x00 or has no effect, and
one while BUSY = 1 breaks the busy obligation. -/
def Obligations.BufferPortMovesOneByte : Prop :=
  (∀ (s : State) (a : Nat) (v : Byte) (rest : List HostEvent), s.status.busy = false → a < s.params.bufBytes →
    (s.buf.read a = some v →
      step (withEvents s (.bufRead a) rest) = .next (afterEvent s s rest (.byte v))) ∧
    (∃ t, step (withEvents s (.bufWrite a v) rest) = .next t ∧
      t = afterEvent s { s with buf := t.buf } rest .none ∧
      ∀ b, t.buf.read b = if b = a then some v else s.buf.read b)) ∧
  (∀ (s : State) (a : Nat) (v : Byte) (rest : List HostEvent), s.status.busy = false → s.params.bufBytes ≤ a →
    step (withEvents s (.bufRead a) rest) = .next (afterEvent s s rest (.byte 0x00)) ∧
    step (withEvents s (.bufWrite a v) rest) = .next (afterEvent s s rest .none)) ∧
  (∀ (s : State) (a : Nat) (v : Byte) (rest : List HostEvent), s.status.busy = true →
    s.host.schedule.head? = some .host →
    step (withEvents s (.bufRead a) rest) = .refused .busyAccess ∧
    step (withEvents s (.bufWrite a v) rest) = .refused .busyAccess)

/-- R138: while BUSY = 1 a host register access of the right form goes through exactly when it is a STATUS read or a
CMD write; every other one is refused. -/
def Obligations.BusyObligationRefusesAccesses : Prop :=
  ∀ (s : State) (off : BitVec 12) (v : Word) (a : Nat) (b : Byte) (rest : List HostEvent),
    s.status.busy = true → s.host.schedule.head? = some .host → off.toNat % 4 = 0 →
    (if off = 0x008 then ∃ t, step (withEvents s (.regRead 4 off) rest) = .next t
     else step (withEvents s (.regRead 4 off) rest) = .refused .busyAccess) ∧
    (if off = 0x00C then ∃ t, step (withEvents s (.regWrite 4 off v) rest) = .next t
     else step (withEvents s (.regWrite 4 off v) rest) = .refused .busyAccess) ∧
    step (withEvents s (.bufRead a) rest) = .refused .busyAccess ∧
    step (withEvents s (.bufWrite a b) rest) = .refused .busyAccess ∧
    ∃ t, step (withEvents s .hardReset rest) = .next t

/-- R139 and R58: a register access that is not 32 bits wide at a multiple of 4 is refused, read or write, busy or
not, and no other access is refused for its form: neither an aligned 32-bit one nor a buffer-port access. That an
access which breaks R138 too has the name accessForm, and not busyAccess, is the model's choice (entry 9). -/
def Obligations.AccessObligationRefusesForms : Prop :=
  ∀ (s : State) (size : Nat) (off : BitVec 12) (v : Word) (a : Nat) (b : Byte) (rest : List HostEvent),
    hostsTurn s = true →
    (step (withEvents s (.regRead size off) rest) = .refused .accessForm ↔ size ≠ 4 ∨ off.toNat % 4 ≠ 0) ∧
    (step (withEvents s (.regWrite size off v) rest) = .refused .accessForm ↔ size ≠ 4 ∨ off.toNat % 4 ≠ 0) ∧
    step (withEvents s (.bufRead a) rest) ≠ .refused .accessForm ∧
    step (withEvents s (.bufWrite a b) rest) ≠ .refused .accessForm

/-- R86: a WAIT reads STATUS, and while BUSY = 1 it stays the host's next statement. -/
def Obligations.WaitPollsStatus : Prop :=
  (∀ (s : State) (rest : List HostEvent), s.status.busy = false →
    step (withEvents s .wait rest) = .next (afterEvent s s rest (.word (readReg s .status)))) ∧
  (∀ (s : State) (rest : List HostEvent), s.status.busy = true → s.host.schedule.head? = some .host →
    step (withEvents s .wait rest) = .next (afterEvent s s (.wait :: rest) (.word (readReg s .status))))

/-- R52 and R124: IRQ is CTRL.IE and (DONE or ERR), a function of those flags: it falls when the host clears them or
IE, or when a command is accepted, and DROP does not raise it. -/
def Obligations.IrqIsTheLevelOfItsSources : Prop :=
  (∀ s : State, s.irq = true ↔ s.ie = true ∧ (s.status.done = true ∨ s.status.err = true)) ∧
  (∀ (s : State) (v : Word), (s.acceptCommand v).irq = false) ∧
  (∀ s : State, (writeReg s .ctrl 0).irq = false ∧ (writeReg s .status 6).irq = false)

/-! ### Reset -/

/-- R133 and R132: hardware reset, whatever BUSY is: every piece of state at its reset value, every BUF and PAYMEM byte
unwritten, a pending command discarded. -/
def Obligations.HardwareResetAtAnyTime : Prop :=
  ∀ (s : State) (rest : List HostEvent), hostsTurn s = true →
    step (withEvents s .hardReset rest) =
      .next (State.resetWith s.params s.draws
        { pending := rest, schedule := scheduleAfter s, reply := .none })

/-- R55: the value of every piece of state after hardware reset, after soft reset and in State.reset; BUF and PAYMEM are
unwritten after hardware reset and unchanged by soft reset; IRQ is 0. The parameters, the draw counter and the host's side
are the model's own (entries 1, 3, 4) and not stated here. -/
def Obligations.ResetStateIsAsSpecified : Prop :=
  (∀ s t : State, t = s.hardReset ∨ t = s.softReset ∨ t = State.reset →
    readReg t .id = 0x48520007 ∧ t.ie = false ∧
    t.status = { busy := false, done := false, err := false, drop := false, errCode := 0x00 } ∧
    t.cmd = 0x00000000 ∧
    (∀ r ∈ [Reg.ctrl, .status, .cmd, .srcBase, .srcLen, .dstBase, .dstCap, .auxBase, .auxLen, .outLen, .errPos,
        .treeRoot, .payUsed], readReg t r = 0) ∧
    readReg t .trieUsed = 1 ∧ t.trieUsed = 1 ∧ t.payUsed = 0 ∧
    t.treeRoot = { valid := false, idx := 0 } ∧
    (∀ i, readReg t (.tree i) = 0) ∧
    (∀ i, nodeAt t.tree i = .internal none none) ∧
    (∀ sym, codeAt t.ct sym = none) ∧
    (∀ w, t.trie.has w = decide (w = [])) ∧
    (∀ w, t.trie.payload w = none) ∧
    t.irq = false) ∧
  (∀ (s : State) (a : Nat),
    s.hardReset.buf.read a = none ∧ s.hardReset.payMem.read a = none ∧
    State.reset.buf.read a = none ∧ State.reset.payMem.read a = none ∧
    s.softReset.buf.read a = s.buf.read a ∧ s.softReset.payMem.read a = s.payMem.read a)

/-- The state after reset meets the invariant, for every legal value of the parameters (R55, R49, R31). -/
def Obligations.ResetMeetsTheInvariant : Prop :=
  (∀ (p : Params) (n : Nat) (h : HostSide), p.Wf → (State.resetWith p n h).Inv) ∧ State.reset.Inv

/-! ### Invariants of every step -/

/-- Every step keeps the invariant: parameters legal, BUF and PAYMEM canonical and inside their sizes, codes of 1 to
255 bits (R44), the STATUS flags exclusive and ERRCODE matching ERR (R31), the trie invariants (R49). -/
def Obligations.StepKeepsTheInvariant : Prop :=
  ∀ s t : State, s.Inv → step s = .next t → t.Inv

/-- R142: OUT_LEN and ERR_POS change only in an engine step or a reset, and DONE, ERR and ERRCODE only in an engine
step, a reset, the acceptance of a command or a STATUS write. That a STATUS write leaves ERR_POS is the model's choice
(entry 20). -/
def Obligations.ResultRegistersChangeOnlyAtCompletion : Prop :=
  ∀ s t : State, step s = .next t →
    (t.outLen ≠ s.outLen ∨ t.errPos ≠ s.errPos →
      s.turn = some .engine ∨
      (s.turn = some .host ∧ ∃ e rest, s.host.pending = e :: rest ∧ isReset e = true)) ∧
    (t.status.done ≠ s.status.done ∨ t.status.err ≠ s.status.err ∨ t.status.errCode ≠ s.status.errCode →
      s.turn = some .engine ∨
      (s.turn = some .host ∧ ∃ e rest, s.host.pending = e :: rest ∧
        (isReset e = true ∨ ∃ v, e = .regWrite 4 0x008 v ∨ e = .regWrite 4 0x00C v)))
end

