-- ==== Sys2Proof/Laws/Encoding.lean ====
section
/-! SUPPORT. The bits of a command word and of a word made of byte lanes, field by field. -/

namespace Sys2Proof

/-- The bits of a command word (R76). -/
theorem commandWord_getLsbD (op sym : Byte) (k : Nat) :
    (commandWord op sym).getLsbD k =
      if k < 8 then op.getLsbD k else if k < 16 then sym.getLsbD (k - 8) else false := by
  have h : (commandWord op sym).getLsbD k = (((0#16 ++ sym) ++ op : BitVec (16 + 8 + 8))).getLsbD k := rfl
  rw [h, BitVec.getLsbD_append, BitVec.getLsbD_append]
  split
  · rfl
  · split
    · rw [if_pos (by omega)]
    · rw [if_neg (by omega)]; simp

/-- The bits of a word made of four byte lanes (R63). -/
theorem wordOfLanes_getLsbD (b0 b1 b2 b3 : Byte) (k : Nat) :
    (wordOfLanes b0 b1 b2 b3).getLsbD k =
      if k < 8 then b0.getLsbD k else if k < 16 then b1.getLsbD (k - 8)
      else if k < 24 then b2.getLsbD (k - 16) else b3.getLsbD (k - 24) := by
  have h : (wordOfLanes b0 b1 b2 b3).getLsbD k = ((((b3 ++ b2) ++ b1) ++ b0 : BitVec (8 + 8 + 8 + 8))).getLsbD k := rfl
  rw [h, BitVec.getLsbD_append, BitVec.getLsbD_append, BitVec.getLsbD_append]
  by_cases h1 : k < 8
  · simp only [h1, if_true]
  by_cases h2 : k < 16
  · rw [if_neg h1, if_neg h1, if_pos h2, if_pos (by omega)]
  by_cases h3 : k < 24
  · rw [if_neg h1, if_neg h1, if_neg h2, if_pos h3, if_neg (by omega), if_pos (by omega)]; rfl
  · rw [if_neg h1, if_neg h1, if_neg h2, if_neg h3, if_neg (by omega), if_neg (by omega)]; rfl

theorem opField_commandWord (op sym : Byte) : opField (commandWord op sym) = op := by
  apply BitVec.eq_of_getLsbD_eq; intro k hk
  simp only [opField, BitVec.getLsbD_extractLsb', commandWord_getLsbD, hk, decide_true, Bool.true_and, Nat.zero_add, if_true]

theorem symField_commandWord (op sym : Byte) : symField (commandWord op sym) = sym := by
  apply BitVec.eq_of_getLsbD_eq; intro k hk
  simp only [symField, BitVec.getLsbD_extractLsb', commandWord_getLsbD, hk, decide_true, Bool.true_and]
  rw [if_neg (by omega), if_pos (by omega), Nat.add_sub_cancel_left]

theorem reservedField_commandWord (op sym : Byte) : reservedField (commandWord op sym) = 0 := by
  apply BitVec.eq_of_getLsbD_eq; intro k hk
  simp only [reservedField, BitVec.getLsbD_extractLsb', commandWord_getLsbD, hk, decide_true, Bool.true_and]
  rw [if_neg (by omega), if_neg (by omega)]; simp

/-- A word whose reserved bits are 0 is the word of its two fields. -/
theorem commandWord_fields {c : Word} (h : reservedField c = 0) : c = commandWord (opField c) (symField c) := by
  apply BitVec.eq_of_getLsbD_eq; intro k hk
  rw [commandWord_getLsbD]
  simp only [opField, symField, BitVec.getLsbD_extractLsb']
  split
  · rename_i h1; simp [h1]
  split
  · rename_i h1 h2; simp only [show k - 8 < 8 by omega, decide_true, Bool.true_and]; congr 1; omega
  · have := congrArg (fun v => v.getLsbD (k - 16)) h
    simp only [reservedField, BitVec.getLsbD_extractLsb', show k - 16 < 16 by omega, decide_true, Bool.true_and] at this
    rw [show 16 + (k - 16) = k by omega] at this
    rw [this]; exact BitVec.getLsbD_zero

/-- A word is made of its own lanes (R63). -/
theorem wordOfLanes_lanes (c : Word) :
    wordOfLanes (c.extractLsb' 0 8) (c.extractLsb' 8 8) (c.extractLsb' 16 8) (c.extractLsb' 24 8) = c := by
  apply BitVec.eq_of_getLsbD_eq; intro k hk
  rw [wordOfLanes_getLsbD]
  simp only [BitVec.getLsbD_extractLsb']
  split
  · rename_i h; simp [h]
  split
  · simp only [show k - 8 < 8 by omega, decide_true, Bool.true_and]; congr 1; omega
  split
  · simp only [show k - 16 < 8 by omega, decide_true, Bool.true_and]; congr 1; omega
  · simp only [show k - 24 < 8 by omega, decide_true, Bool.true_and]; congr 1; omega

end Sys2Proof
end

