-- ==== Sys2Proof/Laws/State.lean ====
section
/-! SUPPORT. One lemma per field of State and per named update, each true by definition, so that no later proof unfolds a record update. -/

namespace Sys2Proof.Machine

/-! ### finishOk -/

@[simp] theorem State.finishOk_params (s : State) (n : Nat) :
    (s.finishOk n).params = s.params := rfl
@[simp] theorem State.finishOk_ie (s : State) (n : Nat) :
    (s.finishOk n).ie = s.ie := rfl
@[simp] theorem State.finishOk_status (s : State) (n : Nat) :
    (s.finishOk n).status = s.status.succeed := rfl
@[simp] theorem State.finishOk_cmd (s : State) (n : Nat) :
    (s.finishOk n).cmd = s.cmd := rfl
@[simp] theorem State.finishOk_srcBase (s : State) (n : Nat) :
    (s.finishOk n).srcBase = s.srcBase := rfl
@[simp] theorem State.finishOk_srcLen (s : State) (n : Nat) :
    (s.finishOk n).srcLen = s.srcLen := rfl
@[simp] theorem State.finishOk_dstBase (s : State) (n : Nat) :
    (s.finishOk n).dstBase = s.dstBase := rfl
@[simp] theorem State.finishOk_dstCap (s : State) (n : Nat) :
    (s.finishOk n).dstCap = s.dstCap := rfl
@[simp] theorem State.finishOk_auxBase (s : State) (n : Nat) :
    (s.finishOk n).auxBase = s.auxBase := rfl
@[simp] theorem State.finishOk_auxLen (s : State) (n : Nat) :
    (s.finishOk n).auxLen = s.auxLen := rfl
@[simp] theorem State.finishOk_outLen (s : State) (n : Nat) :
    (s.finishOk n).outLen = BitVec.ofNat 32 n := rfl
@[simp] theorem State.finishOk_errPos (s : State) (n : Nat) :
    (s.finishOk n).errPos = 0 := rfl
@[simp] theorem State.finishOk_treeRoot (s : State) (n : Nat) :
    (s.finishOk n).treeRoot = s.treeRoot := rfl
@[simp] theorem State.finishOk_tree (s : State) (n : Nat) :
    (s.finishOk n).tree = s.tree := rfl
@[simp] theorem State.finishOk_ct (s : State) (n : Nat) :
    (s.finishOk n).ct = s.ct := rfl
@[simp] theorem State.finishOk_buf (s : State) (n : Nat) :
    (s.finishOk n).buf = s.buf := rfl
@[simp] theorem State.finishOk_payMem (s : State) (n : Nat) :
    (s.finishOk n).payMem = s.payMem := rfl
@[simp] theorem State.finishOk_trie (s : State) (n : Nat) :
    (s.finishOk n).trie = s.trie := rfl
@[simp] theorem State.finishOk_payUsed (s : State) (n : Nat) :
    (s.finishOk n).payUsed = s.payUsed := rfl
@[simp] theorem State.finishOk_draws (s : State) (n : Nat) :
    (s.finishOk n).draws = s.draws := rfl
@[simp] theorem State.finishOk_host (s : State) (n : Nat) :
    (s.finishOk n).host = s.host := rfl

/-! ### raiseError -/

@[simp] theorem State.raiseError_params (s : State) (e : ErrorKind) (pos : Word) :
    (s.raiseError e pos).params = s.params := rfl
@[simp] theorem State.raiseError_ie (s : State) (e : ErrorKind) (pos : Word) :
    (s.raiseError e pos).ie = s.ie := rfl
@[simp] theorem State.raiseError_status (s : State) (e : ErrorKind) (pos : Word) :
    (s.raiseError e pos).status = s.status.fail e := rfl
@[simp] theorem State.raiseError_cmd (s : State) (e : ErrorKind) (pos : Word) :
    (s.raiseError e pos).cmd = s.cmd := rfl
@[simp] theorem State.raiseError_srcBase (s : State) (e : ErrorKind) (pos : Word) :
    (s.raiseError e pos).srcBase = s.srcBase := rfl
@[simp] theorem State.raiseError_srcLen (s : State) (e : ErrorKind) (pos : Word) :
    (s.raiseError e pos).srcLen = s.srcLen := rfl
@[simp] theorem State.raiseError_dstBase (s : State) (e : ErrorKind) (pos : Word) :
    (s.raiseError e pos).dstBase = s.dstBase := rfl
@[simp] theorem State.raiseError_dstCap (s : State) (e : ErrorKind) (pos : Word) :
    (s.raiseError e pos).dstCap = s.dstCap := rfl
@[simp] theorem State.raiseError_auxBase (s : State) (e : ErrorKind) (pos : Word) :
    (s.raiseError e pos).auxBase = s.auxBase := rfl
@[simp] theorem State.raiseError_auxLen (s : State) (e : ErrorKind) (pos : Word) :
    (s.raiseError e pos).auxLen = s.auxLen := rfl
@[simp] theorem State.raiseError_outLen (s : State) (e : ErrorKind) (pos : Word) :
    (s.raiseError e pos).outLen = 0 := rfl
@[simp] theorem State.raiseError_errPos (s : State) (e : ErrorKind) (pos : Word) :
    (s.raiseError e pos).errPos = pos := rfl
@[simp] theorem State.raiseError_treeRoot (s : State) (e : ErrorKind) (pos : Word) :
    (s.raiseError e pos).treeRoot = s.treeRoot := rfl
@[simp] theorem State.raiseError_tree (s : State) (e : ErrorKind) (pos : Word) :
    (s.raiseError e pos).tree = s.tree := rfl
@[simp] theorem State.raiseError_ct (s : State) (e : ErrorKind) (pos : Word) :
    (s.raiseError e pos).ct = s.ct := rfl
@[simp] theorem State.raiseError_buf (s : State) (e : ErrorKind) (pos : Word) :
    (s.raiseError e pos).buf = s.buf := rfl
@[simp] theorem State.raiseError_payMem (s : State) (e : ErrorKind) (pos : Word) :
    (s.raiseError e pos).payMem = s.payMem := rfl
@[simp] theorem State.raiseError_trie (s : State) (e : ErrorKind) (pos : Word) :
    (s.raiseError e pos).trie = s.trie := rfl
@[simp] theorem State.raiseError_payUsed (s : State) (e : ErrorKind) (pos : Word) :
    (s.raiseError e pos).payUsed = s.payUsed := rfl
@[simp] theorem State.raiseError_draws (s : State) (e : ErrorKind) (pos : Word) :
    (s.raiseError e pos).draws = s.draws := rfl
@[simp] theorem State.raiseError_host (s : State) (e : ErrorKind) (pos : Word) :
    (s.raiseError e pos).host = s.host := rfl

/-! ### acceptCommand -/

@[simp] theorem State.acceptCommand_params (s : State) (v : Word) :
    (s.acceptCommand v).params = s.params := rfl
@[simp] theorem State.acceptCommand_ie (s : State) (v : Word) :
    (s.acceptCommand v).ie = s.ie := rfl
@[simp] theorem State.acceptCommand_status (s : State) (v : Word) :
    (s.acceptCommand v).status = s.status.accept := rfl
@[simp] theorem State.acceptCommand_cmd (s : State) (v : Word) :
    (s.acceptCommand v).cmd = v := rfl
@[simp] theorem State.acceptCommand_srcBase (s : State) (v : Word) :
    (s.acceptCommand v).srcBase = s.srcBase := rfl
@[simp] theorem State.acceptCommand_srcLen (s : State) (v : Word) :
    (s.acceptCommand v).srcLen = s.srcLen := rfl
@[simp] theorem State.acceptCommand_dstBase (s : State) (v : Word) :
    (s.acceptCommand v).dstBase = s.dstBase := rfl
@[simp] theorem State.acceptCommand_dstCap (s : State) (v : Word) :
    (s.acceptCommand v).dstCap = s.dstCap := rfl
@[simp] theorem State.acceptCommand_auxBase (s : State) (v : Word) :
    (s.acceptCommand v).auxBase = s.auxBase := rfl
@[simp] theorem State.acceptCommand_auxLen (s : State) (v : Word) :
    (s.acceptCommand v).auxLen = s.auxLen := rfl
@[simp] theorem State.acceptCommand_outLen (s : State) (v : Word) :
    (s.acceptCommand v).outLen = s.outLen := rfl
@[simp] theorem State.acceptCommand_errPos (s : State) (v : Word) :
    (s.acceptCommand v).errPos = s.errPos := rfl
@[simp] theorem State.acceptCommand_treeRoot (s : State) (v : Word) :
    (s.acceptCommand v).treeRoot = s.treeRoot := rfl
@[simp] theorem State.acceptCommand_tree (s : State) (v : Word) :
    (s.acceptCommand v).tree = s.tree := rfl
@[simp] theorem State.acceptCommand_ct (s : State) (v : Word) :
    (s.acceptCommand v).ct = s.ct := rfl
@[simp] theorem State.acceptCommand_buf (s : State) (v : Word) :
    (s.acceptCommand v).buf = s.buf := rfl
@[simp] theorem State.acceptCommand_payMem (s : State) (v : Word) :
    (s.acceptCommand v).payMem = s.payMem := rfl
@[simp] theorem State.acceptCommand_trie (s : State) (v : Word) :
    (s.acceptCommand v).trie = s.trie := rfl
@[simp] theorem State.acceptCommand_payUsed (s : State) (v : Word) :
    (s.acceptCommand v).payUsed = s.payUsed := rfl
@[simp] theorem State.acceptCommand_draws (s : State) (v : Word) :
    (s.acceptCommand v).draws = s.draws := rfl
@[simp] theorem State.acceptCommand_host (s : State) (v : Word) :
    (s.acceptCommand v).host = s.host := rfl

/-! ### commitOutput -/

@[simp] theorem State.commitOutput_params (s : State) (out : Bytes) :
    (s.commitOutput out).params = s.params := rfl
@[simp] theorem State.commitOutput_ie (s : State) (out : Bytes) :
    (s.commitOutput out).ie = s.ie := rfl
@[simp] theorem State.commitOutput_status (s : State) (out : Bytes) :
    (s.commitOutput out).status = s.status := rfl
@[simp] theorem State.commitOutput_cmd (s : State) (out : Bytes) :
    (s.commitOutput out).cmd = s.cmd := rfl
@[simp] theorem State.commitOutput_srcBase (s : State) (out : Bytes) :
    (s.commitOutput out).srcBase = s.srcBase := rfl
@[simp] theorem State.commitOutput_srcLen (s : State) (out : Bytes) :
    (s.commitOutput out).srcLen = s.srcLen := rfl
@[simp] theorem State.commitOutput_dstBase (s : State) (out : Bytes) :
    (s.commitOutput out).dstBase = s.dstBase := rfl
@[simp] theorem State.commitOutput_dstCap (s : State) (out : Bytes) :
    (s.commitOutput out).dstCap = s.dstCap := rfl
@[simp] theorem State.commitOutput_auxBase (s : State) (out : Bytes) :
    (s.commitOutput out).auxBase = s.auxBase := rfl
@[simp] theorem State.commitOutput_auxLen (s : State) (out : Bytes) :
    (s.commitOutput out).auxLen = s.auxLen := rfl
@[simp] theorem State.commitOutput_outLen (s : State) (out : Bytes) :
    (s.commitOutput out).outLen = s.outLen := rfl
@[simp] theorem State.commitOutput_errPos (s : State) (out : Bytes) :
    (s.commitOutput out).errPos = s.errPos := rfl
@[simp] theorem State.commitOutput_treeRoot (s : State) (out : Bytes) :
    (s.commitOutput out).treeRoot = s.treeRoot := rfl
@[simp] theorem State.commitOutput_tree (s : State) (out : Bytes) :
    (s.commitOutput out).tree = s.tree := rfl
@[simp] theorem State.commitOutput_ct (s : State) (out : Bytes) :
    (s.commitOutput out).ct = s.ct := rfl
@[simp] theorem State.commitOutput_buf (s : State) (out : Bytes) :
    (s.commitOutput out).buf = s.buf.writeBytes s.dstBase.toNat out := rfl
@[simp] theorem State.commitOutput_payMem (s : State) (out : Bytes) :
    (s.commitOutput out).payMem = s.payMem := rfl
@[simp] theorem State.commitOutput_trie (s : State) (out : Bytes) :
    (s.commitOutput out).trie = s.trie := rfl
@[simp] theorem State.commitOutput_payUsed (s : State) (out : Bytes) :
    (s.commitOutput out).payUsed = s.payUsed := rfl
@[simp] theorem State.commitOutput_draws (s : State) (out : Bytes) :
    (s.commitOutput out).draws = s.draws := rfl
@[simp] theorem State.commitOutput_host (s : State) (out : Bytes) :
    (s.commitOutput out).host = s.host := rfl

/-! ### drawDst -/

@[simp] theorem State.drawDst_params (s : State) :
    s.drawDst.params = s.params := rfl
@[simp] theorem State.drawDst_ie (s : State) :
    s.drawDst.ie = s.ie := rfl
@[simp] theorem State.drawDst_status (s : State) :
    s.drawDst.status = s.status := rfl
@[simp] theorem State.drawDst_cmd (s : State) :
    s.drawDst.cmd = s.cmd := rfl
@[simp] theorem State.drawDst_srcBase (s : State) :
    s.drawDst.srcBase = s.srcBase := rfl
@[simp] theorem State.drawDst_srcLen (s : State) :
    s.drawDst.srcLen = s.srcLen := rfl
@[simp] theorem State.drawDst_dstBase (s : State) :
    s.drawDst.dstBase = s.dstBase := rfl
@[simp] theorem State.drawDst_dstCap (s : State) :
    s.drawDst.dstCap = s.dstCap := rfl
@[simp] theorem State.drawDst_auxBase (s : State) :
    s.drawDst.auxBase = s.auxBase := rfl
@[simp] theorem State.drawDst_auxLen (s : State) :
    s.drawDst.auxLen = s.auxLen := rfl
@[simp] theorem State.drawDst_outLen (s : State) :
    s.drawDst.outLen = s.outLen := rfl
@[simp] theorem State.drawDst_errPos (s : State) :
    s.drawDst.errPos = s.errPos := rfl
@[simp] theorem State.drawDst_treeRoot (s : State) :
    s.drawDst.treeRoot = s.treeRoot := rfl
@[simp] theorem State.drawDst_tree (s : State) :
    s.drawDst.tree = s.tree := rfl
@[simp] theorem State.drawDst_ct (s : State) :
    s.drawDst.ct = s.ct := rfl
@[simp] theorem State.drawDst_buf (s : State) :
    s.drawDst.buf = s.buf.writeBytes s.dstBase.toNat (freeBytes s.draws s.dstBytes) := rfl
@[simp] theorem State.drawDst_payMem (s : State) :
    s.drawDst.payMem = s.payMem := rfl
@[simp] theorem State.drawDst_trie (s : State) :
    s.drawDst.trie = s.trie := rfl
@[simp] theorem State.drawDst_payUsed (s : State) :
    s.drawDst.payUsed = s.payUsed := rfl
@[simp] theorem State.drawDst_draws (s : State) :
    s.drawDst.draws = s.draws + s.dstBytes := rfl
@[simp] theorem State.drawDst_host (s : State) :
    s.drawDst.host = s.host := rfl

/-! ### setReply -/

@[simp] theorem State.setReply_params (s : State) (r : PortReply) :
    (s.setReply r).params = s.params := rfl
@[simp] theorem State.setReply_ie (s : State) (r : PortReply) :
    (s.setReply r).ie = s.ie := rfl
@[simp] theorem State.setReply_status (s : State) (r : PortReply) :
    (s.setReply r).status = s.status := rfl
@[simp] theorem State.setReply_cmd (s : State) (r : PortReply) :
    (s.setReply r).cmd = s.cmd := rfl
@[simp] theorem State.setReply_srcBase (s : State) (r : PortReply) :
    (s.setReply r).srcBase = s.srcBase := rfl
@[simp] theorem State.setReply_srcLen (s : State) (r : PortReply) :
    (s.setReply r).srcLen = s.srcLen := rfl
@[simp] theorem State.setReply_dstBase (s : State) (r : PortReply) :
    (s.setReply r).dstBase = s.dstBase := rfl
@[simp] theorem State.setReply_dstCap (s : State) (r : PortReply) :
    (s.setReply r).dstCap = s.dstCap := rfl
@[simp] theorem State.setReply_auxBase (s : State) (r : PortReply) :
    (s.setReply r).auxBase = s.auxBase := rfl
@[simp] theorem State.setReply_auxLen (s : State) (r : PortReply) :
    (s.setReply r).auxLen = s.auxLen := rfl
@[simp] theorem State.setReply_outLen (s : State) (r : PortReply) :
    (s.setReply r).outLen = s.outLen := rfl
@[simp] theorem State.setReply_errPos (s : State) (r : PortReply) :
    (s.setReply r).errPos = s.errPos := rfl
@[simp] theorem State.setReply_treeRoot (s : State) (r : PortReply) :
    (s.setReply r).treeRoot = s.treeRoot := rfl
@[simp] theorem State.setReply_tree (s : State) (r : PortReply) :
    (s.setReply r).tree = s.tree := rfl
@[simp] theorem State.setReply_ct (s : State) (r : PortReply) :
    (s.setReply r).ct = s.ct := rfl
@[simp] theorem State.setReply_buf (s : State) (r : PortReply) :
    (s.setReply r).buf = s.buf := rfl
@[simp] theorem State.setReply_payMem (s : State) (r : PortReply) :
    (s.setReply r).payMem = s.payMem := rfl
@[simp] theorem State.setReply_trie (s : State) (r : PortReply) :
    (s.setReply r).trie = s.trie := rfl
@[simp] theorem State.setReply_payUsed (s : State) (r : PortReply) :
    (s.setReply r).payUsed = s.payUsed := rfl
@[simp] theorem State.setReply_draws (s : State) (r : PortReply) :
    (s.setReply r).draws = s.draws := rfl
@[simp] theorem State.setReply_host (s : State) (r : PortReply) :
    (s.setReply r).host = { s.host with reply := r } := rfl

/-! ### The flags of each STATUS update -/

@[simp] theorem Status.succeed_busy (f : Status) : f.succeed.busy = false := rfl
@[simp] theorem Status.succeed_done (f : Status) : f.succeed.done = true := rfl
@[simp] theorem Status.succeed_err (f : Status) : f.succeed.err = false := rfl
@[simp] theorem Status.succeed_drop (f : Status) : f.succeed.drop = f.drop := rfl
@[simp] theorem Status.succeed_errCode (f : Status) : f.succeed.errCode = 0 := rfl
@[simp] theorem Status.fail_busy (f : Status) (e : ErrorKind) : (f.fail e).busy = false := rfl
@[simp] theorem Status.fail_done (f : Status) (e : ErrorKind) : (f.fail e).done = false := rfl
@[simp] theorem Status.fail_err (f : Status) (e : ErrorKind) : (f.fail e).err = true := rfl
@[simp] theorem Status.fail_drop (f : Status) (e : ErrorKind) : (f.fail e).drop = f.drop := rfl
@[simp] theorem Status.fail_errCode (f : Status) (e : ErrorKind) : (f.fail e).errCode = e.code := rfl
@[simp] theorem Status.accept_busy (f : Status) : f.accept.busy = true := rfl
@[simp] theorem Status.accept_done (f : Status) : f.accept.done = false := rfl
@[simp] theorem Status.accept_err (f : Status) : f.accept.err = false := rfl
@[simp] theorem Status.accept_drop (f : Status) : f.accept.drop = f.drop := rfl
@[simp] theorem Status.accept_errCode (f : Status) : f.accept.errCode = 0 := rfl
@[simp] theorem Status.dropped_busy (f : Status) : f.dropped.busy = f.busy := rfl
@[simp] theorem Status.dropped_done (f : Status) : f.dropped.done = f.done := rfl
@[simp] theorem Status.dropped_err (f : Status) : f.dropped.err = f.err := rfl
@[simp] theorem Status.dropped_drop (f : Status) : f.dropped.drop = true := rfl
@[simp] theorem Status.dropped_errCode (f : Status) : f.dropped.errCode = f.errCode := rfl

/-! ### Resets -/

@[simp] theorem State.softReset_params (s : State) : s.softReset.params = s.params := rfl
@[simp] theorem State.softReset_buf (s : State) : s.softReset.buf = s.buf := rfl
@[simp] theorem State.softReset_payMem (s : State) : s.softReset.payMem = s.payMem := rfl
@[simp] theorem State.softReset_draws (s : State) : s.softReset.draws = s.draws := rfl
@[simp] theorem State.softReset_host (s : State) : s.softReset.host = s.host := rfl
@[simp] theorem State.hardReset_params (s : State) : s.hardReset.params = s.params := rfl
@[simp] theorem State.hardReset_draws (s : State) : s.hardReset.draws = s.draws := rfl
@[simp] theorem State.hardReset_host (s : State) :
    s.hardReset.host = { s.host with reply := .none } := rfl
@[simp] theorem State.resetWith_ie (p : Params) (n : Nat) (h : HostSide) :
    (State.resetWith p n h).ie = false := rfl
@[simp] theorem State.resetWith_status (p : Params) (n : Nat) (h : HostSide) :
    (State.resetWith p n h).status = { busy := false, done := false, err := false, drop := false, errCode := 0 } := rfl
@[simp] theorem State.resetWith_cmd (p : Params) (n : Nat) (h : HostSide) :
    (State.resetWith p n h).cmd = 0 := rfl
@[simp] theorem State.resetWith_srcBase (p : Params) (n : Nat) (h : HostSide) :
    (State.resetWith p n h).srcBase = 0 := rfl
@[simp] theorem State.resetWith_srcLen (p : Params) (n : Nat) (h : HostSide) :
    (State.resetWith p n h).srcLen = 0 := rfl
@[simp] theorem State.resetWith_dstBase (p : Params) (n : Nat) (h : HostSide) :
    (State.resetWith p n h).dstBase = 0 := rfl
@[simp] theorem State.resetWith_dstCap (p : Params) (n : Nat) (h : HostSide) :
    (State.resetWith p n h).dstCap = 0 := rfl
@[simp] theorem State.resetWith_auxBase (p : Params) (n : Nat) (h : HostSide) :
    (State.resetWith p n h).auxBase = 0 := rfl
@[simp] theorem State.resetWith_auxLen (p : Params) (n : Nat) (h : HostSide) :
    (State.resetWith p n h).auxLen = 0 := rfl
@[simp] theorem State.resetWith_outLen (p : Params) (n : Nat) (h : HostSide) :
    (State.resetWith p n h).outLen = 0 := rfl
@[simp] theorem State.resetWith_errPos (p : Params) (n : Nat) (h : HostSide) :
    (State.resetWith p n h).errPos = 0 := rfl
@[simp] theorem State.resetWith_treeRoot (p : Params) (n : Nat) (h : HostSide) :
    (State.resetWith p n h).treeRoot = { valid := false, idx := 0 } := rfl
@[simp] theorem State.resetWith_tree (p : Params) (n : Nat) (h : HostSide) :
    (State.resetWith p n h).tree = Vector.replicate 512 0 := rfl
@[simp] theorem State.resetWith_ct (p : Params) (n : Nat) (h : HostSide) :
    (State.resetWith p n h).ct = emptyCodeTable := rfl
@[simp] theorem State.resetWith_buf (p : Params) (n : Nat) (h : HostSide) :
    (State.resetWith p n h).buf = [] := rfl
@[simp] theorem State.resetWith_payMem (p : Params) (n : Nat) (h : HostSide) :
    (State.resetWith p n h).payMem = [] := rfl
@[simp] theorem State.resetWith_trie (p : Params) (n : Nat) (h : HostSide) :
    (State.resetWith p n h).trie = Trie.bare := rfl
@[simp] theorem State.resetWith_payUsed (p : Params) (n : Nat) (h : HostSide) :
    (State.resetWith p n h).payUsed = 0 := rfl
@[simp] theorem State.resetWith_params (p : Params) (n : Nat) (h : HostSide) :
    (State.resetWith p n h).params = p := rfl
@[simp] theorem State.resetWith_draws (p : Params) (n : Nat) (h : HostSide) :
    (State.resetWith p n h).draws = n := rfl
@[simp] theorem State.resetWith_host (p : Params) (n : Nat) (h : HostSide) :
    (State.resetWith p n h).host = h := rfl
@[simp] theorem State.softReset_ie (s : State) : s.softReset.ie = false := rfl
@[simp] theorem State.hardReset_ie (s : State) : s.hardReset.ie = false := rfl
@[simp] theorem State.softReset_status (s : State) : s.softReset.status = { busy := false, done := false, err := false, drop := false, errCode := 0 } := rfl
@[simp] theorem State.hardReset_status (s : State) : s.hardReset.status = { busy := false, done := false, err := false, drop := false, errCode := 0 } := rfl
@[simp] theorem State.softReset_cmd (s : State) : s.softReset.cmd = 0 := rfl
@[simp] theorem State.hardReset_cmd (s : State) : s.hardReset.cmd = 0 := rfl
@[simp] theorem State.softReset_srcBase (s : State) : s.softReset.srcBase = 0 := rfl
@[simp] theorem State.hardReset_srcBase (s : State) : s.hardReset.srcBase = 0 := rfl
@[simp] theorem State.softReset_srcLen (s : State) : s.softReset.srcLen = 0 := rfl
@[simp] theorem State.hardReset_srcLen (s : State) : s.hardReset.srcLen = 0 := rfl
@[simp] theorem State.softReset_dstBase (s : State) : s.softReset.dstBase = 0 := rfl
@[simp] theorem State.hardReset_dstBase (s : State) : s.hardReset.dstBase = 0 := rfl
@[simp] theorem State.softReset_dstCap (s : State) : s.softReset.dstCap = 0 := rfl
@[simp] theorem State.hardReset_dstCap (s : State) : s.hardReset.dstCap = 0 := rfl
@[simp] theorem State.softReset_auxBase (s : State) : s.softReset.auxBase = 0 := rfl
@[simp] theorem State.hardReset_auxBase (s : State) : s.hardReset.auxBase = 0 := rfl
@[simp] theorem State.softReset_auxLen (s : State) : s.softReset.auxLen = 0 := rfl
@[simp] theorem State.hardReset_auxLen (s : State) : s.hardReset.auxLen = 0 := rfl
@[simp] theorem State.softReset_outLen (s : State) : s.softReset.outLen = 0 := rfl
@[simp] theorem State.hardReset_outLen (s : State) : s.hardReset.outLen = 0 := rfl
@[simp] theorem State.softReset_errPos (s : State) : s.softReset.errPos = 0 := rfl
@[simp] theorem State.hardReset_errPos (s : State) : s.hardReset.errPos = 0 := rfl
@[simp] theorem State.softReset_treeRoot (s : State) : s.softReset.treeRoot = { valid := false, idx := 0 } := rfl
@[simp] theorem State.hardReset_treeRoot (s : State) : s.hardReset.treeRoot = { valid := false, idx := 0 } := rfl
@[simp] theorem State.softReset_tree (s : State) : s.softReset.tree = Vector.replicate 512 0 := rfl
@[simp] theorem State.hardReset_tree (s : State) : s.hardReset.tree = Vector.replicate 512 0 := rfl
@[simp] theorem State.softReset_ct (s : State) : s.softReset.ct = emptyCodeTable := rfl
@[simp] theorem State.hardReset_ct (s : State) : s.hardReset.ct = emptyCodeTable := rfl
@[simp] theorem State.hardReset_buf (s : State) : s.hardReset.buf = [] := rfl
@[simp] theorem State.hardReset_payMem (s : State) : s.hardReset.payMem = [] := rfl
@[simp] theorem State.softReset_trie (s : State) : s.softReset.trie = Trie.bare := rfl
@[simp] theorem State.hardReset_trie (s : State) : s.hardReset.trie = Trie.bare := rfl
@[simp] theorem State.softReset_payUsed (s : State) : s.softReset.payUsed = 0 := rfl
@[simp] theorem State.hardReset_payUsed (s : State) : s.hardReset.payUsed = 0 := rfl

/-! ### The host's side -/

/-- Taking the turn changes the schedule alone. -/
theorem State.takeTurn_eq (s : State) :
    s.takeTurn = { s with host := { s.host with schedule := s.takeTurn.host.schedule } } := by
  unfold State.takeTurn; split <;> rfl

/-- Only the host's schedule differs after the turn was taken: the pending events stay. -/
@[simp] theorem State.takeTurn_pending (s : State) : s.takeTurn.host.pending = s.host.pending := by
  unfold State.takeTurn; split <;> rfl

@[simp] theorem State.takeTurn_params (s : State) : s.takeTurn.params = s.params := by
  rw [State.takeTurn_eq]
@[simp] theorem State.takeTurn_ie (s : State) : s.takeTurn.ie = s.ie := by
  rw [State.takeTurn_eq]
@[simp] theorem State.takeTurn_status (s : State) : s.takeTurn.status = s.status := by
  rw [State.takeTurn_eq]
@[simp] theorem State.takeTurn_cmd (s : State) : s.takeTurn.cmd = s.cmd := by
  rw [State.takeTurn_eq]
@[simp] theorem State.takeTurn_srcBase (s : State) : s.takeTurn.srcBase = s.srcBase := by
  rw [State.takeTurn_eq]
@[simp] theorem State.takeTurn_srcLen (s : State) : s.takeTurn.srcLen = s.srcLen := by
  rw [State.takeTurn_eq]
@[simp] theorem State.takeTurn_dstBase (s : State) : s.takeTurn.dstBase = s.dstBase := by
  rw [State.takeTurn_eq]
@[simp] theorem State.takeTurn_dstCap (s : State) : s.takeTurn.dstCap = s.dstCap := by
  rw [State.takeTurn_eq]
@[simp] theorem State.takeTurn_auxBase (s : State) : s.takeTurn.auxBase = s.auxBase := by
  rw [State.takeTurn_eq]
@[simp] theorem State.takeTurn_auxLen (s : State) : s.takeTurn.auxLen = s.auxLen := by
  rw [State.takeTurn_eq]
@[simp] theorem State.takeTurn_outLen (s : State) : s.takeTurn.outLen = s.outLen := by
  rw [State.takeTurn_eq]
@[simp] theorem State.takeTurn_errPos (s : State) : s.takeTurn.errPos = s.errPos := by
  rw [State.takeTurn_eq]
@[simp] theorem State.takeTurn_treeRoot (s : State) : s.takeTurn.treeRoot = s.treeRoot := by
  rw [State.takeTurn_eq]
@[simp] theorem State.takeTurn_tree (s : State) : s.takeTurn.tree = s.tree := by
  rw [State.takeTurn_eq]
@[simp] theorem State.takeTurn_ct (s : State) : s.takeTurn.ct = s.ct := by
  rw [State.takeTurn_eq]
@[simp] theorem State.takeTurn_buf (s : State) : s.takeTurn.buf = s.buf := by
  rw [State.takeTurn_eq]
@[simp] theorem State.takeTurn_payMem (s : State) : s.takeTurn.payMem = s.payMem := by
  rw [State.takeTurn_eq]
@[simp] theorem State.takeTurn_trie (s : State) : s.takeTurn.trie = s.trie := by
  rw [State.takeTurn_eq]
@[simp] theorem State.takeTurn_payUsed (s : State) : s.takeTurn.payUsed = s.payUsed := by
  rw [State.takeTurn_eq]
@[simp] theorem State.takeTurn_draws (s : State) : s.takeTurn.draws = s.draws := by
  rw [State.takeTurn_eq]

end Sys2Proof.Machine
end

