-- ==== Sys2Proof/Laws/Memory.lean ====
section
/-! SUPPORT. The laws of sorted maps, memories and the trie's map: read after write, what a write leaves alone, and that every operation keeps the canonical form. -/

namespace Sys2Proof.Machine

/-- What the canonical form needs of an order on keys. -/
structure IsStrictOrder {κ : Type} (lt : κ → κ → Bool) : Prop where
  irrefl : ∀ a, lt a a = false
  trans : ∀ a b c, lt a b = true → lt b c = true → lt a c = true
  total : ∀ a b, lt a b = false → lt b a = false → a = b

theorem addrLt_order : IsStrictOrder addrLt where
  irrefl a := by simp [addrLt]
  trans a b c h1 h2 := by simp [addrLt] at *; omega
  total a b h1 h2 := by simp [addrLt] at *; omega

theorem pathLt_order : IsStrictOrder pathLt where
  irrefl a := by
    induction a with
    | nil => rfl
    | cons d x ih => simp [pathLt, ih]
  trans a := by
    induction a with
    | nil => intro b c h1 h2; cases b <;> cases c <;> simp_all [pathLt]
    | cons d x ih =>
      intro b c h1 h2
      cases b with
      | nil => simp [pathLt] at h1
      | cons e y =>
        cases c with
        | nil => simp [pathLt] at h2
        | cons f z =>
          simp only [pathLt, Bool.or_eq_true, Bool.and_eq_true, decide_eq_true_eq] at *
          rcases h1 with h1 | ⟨rfl, h1⟩ <;> rcases h2 with h2 | ⟨rfl, h2⟩
          · exact .inl (lt_trans h1 h2)
          · exact .inl h1
          · exact .inl h2
          · exact .inr ⟨rfl, ih y z h1 h2⟩
  total a := by
    induction a with
    | nil => intro b h1 h2; cases b <;> simp_all [pathLt]
    | cons d x ih =>
      intro b h1 h2
      cases b with
      | nil => simp [pathLt] at h2
      | cons e y =>
        simp only [pathLt, Bool.or_eq_false_iff, Bool.and_eq_false_iff, decide_eq_false_iff_not] at h1 h2
        have hde : d = e := le_antisymm (not_lt.1 h2.1) (not_lt.1 h1.1)
        subst hde
        rw [ih y (by simpa using h1.2) (by simpa using h2.2)]

section SortedMapLaws

variable {κ α : Type} {lt : κ → κ → Bool}

/-- A key of the map after a put is the key put or one of the map before. -/
theorem SortedMap.mem_put {k : κ} {v : α} {m : List (κ × α)} {e : κ × α}
    (h : e ∈ SortedMap.put lt k v m) : e = (k, v) ∨ e ∈ m := by
  induction m with
  | nil => simpa [SortedMap.put] using h
  | cons f rest ih =>
    simp only [SortedMap.put] at h
    split at h
    · simpa using h
    · split at h
      · rcases List.mem_cons.1 h with h | h
        · exact .inr (by simp [h])
        · rcases ih h with h | h
          · exact .inl h
          · exact .inr (by simp [h])
      · rcases List.mem_cons.1 h with h | h
        · exact .inl h
        · exact .inr (by simp [h])

/-- A put keeps the canonical form. -/
theorem SortedMap.wf_put (hlt : IsStrictOrder lt) (k : κ) (v : α) {m : List (κ × α)}
    (h : SortedMap.wf lt m = true) : SortedMap.wf lt (SortedMap.put lt k v m) = true := by
  induction m with
  | nil => simp [SortedMap.put, SortedMap.wf]
  | cons e rest ih =>
    simp only [SortedMap.wf, Bool.and_eq_true, List.all_eq_true] at h
    simp only [SortedMap.put]
    split
    · rename_i h1
      simp only [SortedMap.wf, Bool.and_eq_true, List.all_eq_true, List.mem_cons, forall_eq_or_imp]
      exact ⟨⟨h1, fun x hx => hlt.trans _ _ _ h1 (h.1 x hx)⟩, h⟩
    · split
      · rename_i h1 h2
        simp only [SortedMap.wf, Bool.and_eq_true, List.all_eq_true]
        refine ⟨fun x hx => ?_, ih h.2⟩
        rcases SortedMap.mem_put hx with rfl | hx
        · exact h2
        · exact h.1 x hx
      · rename_i h1 h2
        have hkq := hlt.total _ _ (by simpa using h1) (by simpa using h2)
        simp only [SortedMap.wf, Bool.and_eq_true, List.all_eq_true]
        exact ⟨fun x hx => hkq ▸ h.1 x hx, h.2⟩

variable [DecidableEq κ]

/-- Read after write: the value just put at a key, and every other key as before. -/
theorem SortedMap.find_put (hlt : IsStrictOrder lt) (k k' : κ) (v : α) (m : List (κ × α)) :
    SortedMap.find k' (SortedMap.put lt k v m) = if k' = k then some v else SortedMap.find k' m := by
  induction m with
  | nil => rfl
  | cons e rest ih =>
    obtain ⟨q, u⟩ := e
    simp only [SortedMap.put]
    split
    · rfl
    · split
      · rename_i h1 h2
        have hkq : k ≠ q := by rintro rfl; simp [hlt.irrefl] at h2
        simp only [SortedMap.find, ih]
        by_cases h3 : k' = q
        · subst h3; simp [Ne.symm hkq]
        · simp [h3]
      · rename_i h1 h2
        have hkq := hlt.total _ _ (by simpa using h1) (by simpa using h2)
        subst hkq
        simp only [SortedMap.find]
        split <;> rfl

/-- A key that is not found stands in no entry. -/
theorem SortedMap.find_eq_none {k : κ} {m : List (κ × α)} :
    SortedMap.find k m = none ↔ ∀ e ∈ m, e.1 ≠ k := by
  induction m with
  | nil => simp [SortedMap.find]
  | cons e rest ih =>
    obtain ⟨q, u⟩ := e
    simp only [SortedMap.find]
    by_cases h : k = q
    · simp [h]
    · simp [h, ih, Ne.symm h]

/-- A value that is found stands in an entry. -/
theorem SortedMap.mem_of_find {k : κ} {v : α} {m : List (κ × α)} (h : SortedMap.find k m = some v) :
    (k, v) ∈ m := by
  induction m with
  | nil => simp [SortedMap.find] at h
  | cons e rest ih =>
    obtain ⟨q, u⟩ := e
    simp only [SortedMap.find] at h
    split at h
    · simp_all
    · exact List.mem_cons_of_mem _ (ih h)

/-- In a canonical map every entry is the one found at its key. -/
theorem SortedMap.find_of_mem (hlt : IsStrictOrder lt) {k : κ} {v : α} {m : List (κ × α)}
    (hw : SortedMap.wf lt m = true) (h : (k, v) ∈ m) : SortedMap.find k m = some v := by
  induction m with
  | nil => simp at h
  | cons e rest ih =>
    obtain ⟨q, u⟩ := e
    simp only [SortedMap.wf, Bool.and_eq_true, List.all_eq_true] at hw
    simp only [SortedMap.find]
    rcases List.mem_cons.1 h with h | h
    · simp_all
    · have hq := hw.1 _ h
      have : k ≠ q := by rintro rfl; simp [hlt.irrefl] at hq
      simp [this, ih hw.2 h]

/-- A put at a key that is not in the map adds one entry. -/
theorem SortedMap.length_put_absent (hlt : IsStrictOrder lt) {k : κ} (v : α) {m : List (κ × α)}
    (h : SortedMap.find k m = none) : (SortedMap.put lt k v m).length = m.length + 1 := by
  induction m with
  | nil => rfl
  | cons e rest ih =>
    obtain ⟨q, u⟩ := e
    simp only [SortedMap.find] at h
    split at h
    · simp at h
    · rename_i hkq
      simp only [SortedMap.put]
      split
      · rfl
      · split
        · simp [ih h]
        · rename_i h1 h2
          exact absurd (hlt.total _ _ (by simpa using h1) (by simpa using h2)) hkq

/-- A put at a key of a canonical map replaces its entry. -/
theorem SortedMap.length_put_present (hlt : IsStrictOrder lt) {k : κ} (v : α) {m : List (κ × α)}
    (hw : SortedMap.wf lt m = true) (h : (SortedMap.find k m).isSome = true) :
    (SortedMap.put lt k v m).length = m.length := by
  induction m with
  | nil => simp [SortedMap.find] at h
  | cons e rest ih =>
    obtain ⟨q, u⟩ := e
    simp only [SortedMap.wf, Bool.and_eq_true, List.all_eq_true] at hw
    simp only [SortedMap.find] at h
    by_cases hkq : k = q
    · subst hkq; simp [SortedMap.put, hlt.irrefl]
    · simp only [hkq, if_false] at h
      obtain ⟨u', hu⟩ := Option.isSome_iff_exists.1 h
      have hqk : lt q k = true := hw.1 _ (SortedMap.mem_of_find hu)
      have hkq' : lt k q = false := by
        by_contra hc
        have := hlt.trans _ _ _ hqk (by simpa using hc)
        simp [hlt.irrefl] at this
      simp [SortedMap.put, hqk, hkq', ih hw.2 h]

/-- Two canonical maps that agree at every key are the same list. -/
theorem SortedMap.ext (hlt : IsStrictOrder lt) {m n : List (κ × α)} (hm : SortedMap.wf lt m = true)
    (hn : SortedMap.wf lt n = true) (h : ∀ k, SortedMap.find k m = SortedMap.find k n) : m = n := by
  induction m generalizing n with
  | nil =>
    cases n with
    | nil => rfl
    | cons e rest => have := h e.1; simp [SortedMap.find] at this
  | cons e rest ih =>
    cases n with
    | nil => have := h e.1; simp [SortedMap.find] at this
    | cons f rest' =>
      obtain ⟨k, v⟩ := e
      obtain ⟨q, u⟩ := f
      have hm' := hm
      have hn' := hn
      simp only [SortedMap.wf, Bool.and_eq_true, List.all_eq_true] at hm hn
      have hkq : k = q := by
        by_contra hne
        have h1 := h k
        have h2 := h q
        simp only [SortedMap.find, if_true, hne, if_false, Ne.symm hne] at h1 h2
        have a1 := hn.1 _ (SortedMap.mem_of_find h1.symm)
        have a2 := hm.1 _ (SortedMap.mem_of_find h2)
        have := hlt.trans _ _ _ a1 a2
        simp [hlt.irrefl] at this
      subst hkq
      have hv := h k
      simp only [SortedMap.find, if_true, Option.some.injEq] at hv
      subst hv
      rw [ih hm.2 hn.2 fun x => ?_]
      have hx := h x
      simp only [SortedMap.find] at hx
      by_cases hxk : x = k
      · subst hxk
        have n1 : SortedMap.find x rest = none := SortedMap.find_eq_none.2 fun e he hc => by
          have := hm.1 e he; simp [hc, hlt.irrefl] at this
        have n2 : SortedMap.find x rest' = none := SortedMap.find_eq_none.2 fun e he hc => by
          have := hn.1 e he; simp [hc, hlt.irrefl] at this
        rw [n1, n2]
      · simpa [hxk] using hx

end SortedMapLaws

/-! ### Memories -/

/-- Read after write, and what a write leaves alone. -/
theorem Memory.read_write (m : Memory) (a b : Nat) (v : Byte) :
    (m.write a v).read b = if b = a then some v else m.read b :=
  SortedMap.find_put addrLt_order a b v m

/-- A write keeps the canonical form. -/
theorem Memory.wf_write (m : Memory) (a : Nat) (v : Byte) (h : m.wf = true) : (m.write a v).wf = true :=
  SortedMap.wf_put addrLt_order a v h

/-- Writing a string keeps the canonical form. -/
theorem Memory.wf_writeBytes (m : Memory) (base : Nat) (bs : Bytes) (h : m.wf = true) :
    (m.writeBytes base bs).wf = true := by
  induction bs generalizing m base with
  | nil => exact h
  | cons v rest ih => exact ih _ _ (Memory.wf_write m base v h)

/-- The memory of State.reset is canonical. -/
theorem Memory.wf_reset : Memory.wf State.reset.buf = true := rfl

/-- What a string write leaves at every address: index `k` at `base + k`, the rest alone (R61). -/
theorem Memory.read_writeBytes (m : Memory) (base : Nat) (bs : Bytes) (a : Nat) :
    (m.writeBytes base bs).read a =
      if base ≤ a ∧ a < base + bs.length then bs[a - base]? else m.read a := by
  induction bs generalizing m base with
  | nil => simp [Memory.writeBytes]
  | cons v rest ih =>
    simp only [Memory.writeBytes, ih, Memory.read_write, List.length_cons]
    by_cases h1 : a = base
    · subst h1; simp
    · by_cases h2 : base + 1 ≤ a ∧ a < base + 1 + rest.length
      · rw [if_pos h2, if_pos (by omega), show a - base = (a - (base + 1)) + 1 by omega,
          List.getElem?_cons_succ]
      · rw [if_neg h2, if_neg h1, if_neg (by omega)]

/-- A string just written reads back. -/
theorem Memory.read_writeBytes_index (m : Memory) (base : Nat) (bs : Bytes) (k : Nat) (h : k < bs.length) :
    (m.writeBytes base bs).read (base + k) = bs[k]? := by
  rw [Memory.read_writeBytes, if_pos (by omega), Nat.add_sub_cancel_left]

/-- Outside the written string every byte is as before. -/
theorem Memory.read_writeBytes_outside (m : Memory) (base : Nat) (bs : Bytes) (a : Nat)
    (h : a < base ∨ base + bs.length ≤ a) : (m.writeBytes base bs).read a = m.read a := by
  rw [Memory.read_writeBytes, if_neg (by omega)]

/-- The bytes of a string that is read, one by one. -/
theorem Memory.readBytes_eq_some {m : Memory} {base len : Nat} {bs : Bytes} :
    m.readBytes base len = some bs ↔ bs.length = len ∧ ∀ k, k < len → m.read (base + k) = bs[k]? := by
  induction len generalizing base bs with
  | zero =>
    simp only [Memory.readBytes, Option.some.injEq, List.length_eq_zero_iff]
    exact ⟨fun h => ⟨h.symm, fun k hk => absurd hk (by omega)⟩, fun h => h.1.symm⟩
  | succ n ih =>
    simp only [Memory.readBytes]
    constructor
    · intro h
      split at h
      · rename_i v rest hv hrest
        obtain ⟨hl, hk⟩ := ih.1 hrest
        simp only [Option.some.injEq] at h
        subst h
        refine ⟨by simp [hl], fun k hk' => ?_⟩
        cases k with
        | zero => simpa using hv
        | succ j => simpa [Nat.add_assoc, Nat.add_comm 1] using hk j (by omega)
      · simp at h
    · rintro ⟨hl, hk⟩
      cases bs with
      | nil => simp at hl
      | cons v rest =>
        have h0 := hk 0 (by omega)
        simp only [Nat.add_zero, List.getElem?_cons_zero] at h0
        have hr : Memory.readBytes m (base + 1) n = some rest := ih.2 ⟨by simpa using hl, fun k hk' => by
          have := hk (k + 1) (by omega)
          simpa [Nat.add_assoc, Nat.add_comm 1] using this⟩
        rw [h0, hr]

/-- Reading a string back where it was written. -/
theorem Memory.readBytes_writeBytes (m : Memory) (base : Nat) (bs : Bytes) :
    (m.writeBytes base bs).readBytes base bs.length = some bs :=
  Memory.readBytes_eq_some.2 ⟨rfl, fun k h => Memory.read_writeBytes_index m base bs k h⟩

/-! ### The trie -/

/-- The nodes after a put: the node put and the nodes before. -/
theorem Trie.has_put (t : Trie) (w v : List Digit) (p : Option Bytes) :
    (t.put w p).has v = (decide (v = w) || t.has v) := by
  simp only [Trie.has, Trie.put, SortedMap.find_put pathLt_order]
  by_cases h : v = w <;> simp [h]

/-- The payloads after a put: the one put, and every other node's as before. -/
theorem Trie.payload_put (t : Trie) (w v : List Digit) (p : Option Bytes) :
    (t.put w p).payload v = if v = w then p else t.payload v := by
  simp only [Trie.payload, Trie.put, SortedMap.find_put pathLt_order]
  by_cases h : v = w <;> simp [h]

/-- A put keeps the canonical form of the trie. -/
theorem Trie.wf_put (t : Trie) (w : List Digit) (p : Option Bytes) (h : t.wf = true) :
    (t.put w p).wf = true :=
  SortedMap.wf_put pathLt_order w p h

/-- A put of a new node adds one node. -/
theorem Trie.length_put_absent (t : Trie) (w : List Digit) (p : Option Bytes) (h : t.has w = false) :
    (t.put w p).length = t.length + 1 :=
  SortedMap.length_put_absent pathLt_order p (by simpa [Trie.has] using h)

/-- A put at a node of a canonical trie adds none. -/
theorem Trie.length_put_present (t : Trie) (w : List Digit) (p : Option Bytes) (hw : t.wf = true)
    (h : t.has w = true) : (t.put w p).length = t.length :=
  SortedMap.length_put_present pathLt_order p hw h

/-- The children of a node are the digits that lead to a node (R48). -/
theorem Trie.isLeaf_iff (t : Trie) (w : List Digit) :
    t.isLeaf w = true ↔ ∀ d, t.has (w ++ [d]) = false := by
  simp [Trie.isLeaf, Trie.children, List.filter_eq_nil_iff]

/-- A node with a child is no leaf. -/
theorem Trie.isLeaf_false_of_child (t : Trie) (w : List Digit) (d : Digit) (h : t.has (w ++ [d]) = true) :
    t.isLeaf w = false := by
  by_contra hc
  have := (Trie.isLeaf_iff t w).1 (by simpa using hc) d
  simp [h] at this

end Sys2Proof.Machine
end

