-- ==== Sys2Proof/Laws/Ops.lean ====
section
/-! SUPPORT. For each shared operation one lemma that says everything it can do, for callers to cite instead of unfolding it. -/

namespace Sys2Proof.Machine

/-! ### Sequencing -/

@[simp] theorem Run.andThen_ok {α β : Type} (a : α) (f : α → Run β) : (Run.ok a).andThen f = f a := rfl
@[simp] theorem Run.andThen_raised {α β : Type} (e : ErrorKind) (pos : Word) (f : α → Run β) :
    (Run.raised e pos : Run α).andThen f = .raised e pos := rfl
@[simp] theorem Run.andThen_fault {α β : Type} (x : Fault) (f : α → Run β) :
    (Run.fault x : Run α).andThen f = .fault x := rfl

/-- A sequence ends in a value only through a value of its first part. -/
theorem Run.andThen_eq_ok {α β : Type} {r : Run α} {f : α → Run β} {b : β} :
    r.andThen f = .ok b ↔ ∃ a, r = .ok a ∧ f a = .ok b := by
  cases r <;> simp [Run.andThen]

/-- A sequence raises where its first part does, or where the rest does. -/
theorem Run.andThen_eq_raised {α β : Type} {r : Run α} {f : α → Run β} {e : ErrorKind} {pos : Word} :
    r.andThen f = .raised e pos ↔ r = .raised e pos ∨ ∃ a, r = .ok a ∧ f a = .raised e pos := by
  cases r <;> simp [Run.andThen]

/-- A sequence faults where its first part does, or where the rest does. -/
theorem Run.andThen_eq_fault {α β : Type} {r : Run α} {f : α → Run β} {x : Fault} :
    r.andThen f = .fault x ↔ r = .fault x ∨ ∃ a, r = .ok a ∧ f a = .fault x := by
  cases r <;> simp [Run.andThen]

/-! ### The two ways a command ends -/

/-- Everything the end of an output command can do. -/
theorem endOutput_eq_next {s t : State} {r : Run Bytes} :
    endOutput s r = .next t ↔
      (∃ out, r = .ok out ∧ t = (s.commitOutput out).finishOk out.length) ∨
      (∃ e pos, r = .raised e pos ∧ t = s.drawDst.raiseError e pos) := by
  cases r <;> simp [endOutput, eq_comm]

/-- Everything the end of a table command can do. -/
theorem endTable_eq_next {s t : State} {r : Run (State × Nat)} :
    endTable s r = .next t ↔
      (∃ s' n, r = .ok (s', n) ∧ t = s'.finishOk n) ∨ (∃ e pos, r = .raised e pos ∧ t = s.raiseError e pos) := by
  rcases r with ⟨⟨s', n⟩⟩ | _ | _ <;> simp [endTable, eq_comm]

/-- No output command is refused. -/
theorem endOutput_not_refused (s : State) (r : Run Bytes) (x : Refusal) : endOutput s r ≠ .refused x := by
  cases r <;> simp [endOutput]

/-- No table command is refused. -/
theorem endTable_not_refused (s : State) (r : Run (State × Nat)) (x : Refusal) : endTable s r ≠ .refused x := by
  rcases r with ⟨⟨s', n⟩⟩ | _ | _ <;> simp [endTable]

/-- A committed output is the success record of the claims. -/
theorem succeedsOutput_commit (s : State) (out : Bytes) :
    SucceedsOutput s ((s.commitOutput out).finishOk out.length) out :=
  ⟨rfl, fun _ hk => Memory.read_writeBytes_index _ _ _ _ hk, fun _ ha => Memory.read_writeBytes_outside _ _ _ _ ha⟩

@[simp] theorem freeBytes_length (start n : Nat) : (freeBytes start n).length = n := by simp [freeBytes]

/-- The DST range below BUF_BYTES lies in the DST range. -/
theorem State.dstBytes_le (s : State) : s.dstBytes ≤ s.dstCap.toNat := by
  unfold State.dstBytes; omega

/-- A drawn DST range with the error record is the failure record of the claims. -/
theorem failsOutput_draw (s : State) (e : ErrorKind) (pos : Word) :
    FailsOutput s (s.drawDst.raiseError e pos) e.code pos := by
  have hd := s.dstBytes_le
  refine ⟨rfl, fun a ha => Memory.read_writeBytes_outside _ _ _ _ ?_, fun a h1 h2 h3 => ?_⟩
  · simp only [freeBytes_length]; omega
  · have h4 : a < s.dstBase.toNat + s.dstBytes := by unfold State.dstBytes; omega
    show ((s.buf.writeBytes s.dstBase.toNat (freeBytes s.draws s.dstBytes)).read a).isSome = true
    rw [Memory.read_writeBytes, if_pos ⟨h1, by simpa using h4⟩]
    rw [List.getElem?_eq_getElem (by simp; omega)]
    rfl

/-- The error record of a table command is the failure record of the claims. -/
theorem failsWith_raise (s : State) (e : ErrorKind) (pos : Word) : FailsWith s (s.raiseError e pos) e.code pos := rfl

/-! ### Output -/

/-- A string that fits is appended. -/
theorem append_ok {cap : Nat} {out str : Bytes} {pos : Nat} (h : out.length + str.length ≤ cap) :
    append cap out str pos = .ok (out ++ str) := if_pos h

/-- A string that does not fit raises AllocationFailure. -/
theorem append_full {cap : Nat} {out str : Bytes} {pos : Nat} (h : cap < out.length + str.length) :
    append cap out str pos = .raised .allocationFailure (wordOf pos) := if_neg (by omega)

/-- Everything an append can do. -/
theorem append_eq_ok {cap : Nat} {out str out' : Bytes} {pos : Nat} :
    append cap out str pos = .ok out' ↔ out.length + str.length ≤ cap ∧ out' = out ++ str := by
  unfold append; split <;> simp_all [eq_comm]

theorem append_eq_raised {cap : Nat} {out str : Bytes} {pos : Nat} {e : ErrorKind} {p : Word} :
    append cap out str pos = .raised e p ↔
      cap < out.length + str.length ∧ e = .allocationFailure ∧ p = wordOf pos := by
  unfold append; split
  · simp; omega
  · simp [eq_comm]; omega

theorem append_not_fault {cap : Nat} {out str : Bytes} {pos : Nat} {x : Fault} :
    append cap out str pos ≠ .fault x := by
  unfold append; split <;> simp

/-- `repeat(p, n)` of R9 as the concatenation of `n` copies. -/
theorem repeatBytes_eq (p : Bytes) (n : Nat) : repeatBytes p n = (List.replicate n p).flatten := by
  cases p with
  | nil => simp [repeatBytes]
  | cons v rest => rfl

theorem repeatBytes_length (p : Bytes) (n : Nat) : (repeatBytes p n).length = n * p.length := by
  simp [repeatBytes_eq]

/-- A repeated string is appended as any string is. -/
theorem appendRepeat_eq (cap : Nat) (out p : Bytes) (n pos : Nat) :
    appendRepeat cap out p n pos = append cap out (repeatBytes p n) pos := by
  simp [appendRepeat, append, repeatBytes_length]

/-! ### Range checks -/

/-- Everything CheckRanges({SRC}) can do. -/
theorem checkSrc_eq (s : State) :
    checkSrc s = if s.srcOk then .ok () else .raised .rangeFault 0x010 := rfl

theorem checkSrc_ok {s : State} (h : s.srcOk = true) : checkSrc s = .ok () := by simp [checkSrc, h]

theorem outputRangesOk_iff (s : State) :
    outputRangesOk s = true ↔ s.srcOk = true ∧ s.dstOk = true ∧ s.srcDstOverlap = false := by
  simp [outputRangesOk, and_assoc]

/-- CheckRanges({SRC, DST}) passes exactly where the claims say the ranges are good. -/
theorem checkSrcDst_eq_ok (s : State) : checkSrcDst s = .ok () ↔ outputRangesOk s = true := by
  simp only [checkSrcDst, outputRangesOk]
  cases s.srcOk <;> cases s.dstOk <;> cases s.srcDstOverlap <;> simp

theorem checkSrcDst_ok {s : State} (h : outputRangesOk s = true) : checkSrcDst s = .ok () :=
  (checkSrcDst_eq_ok s).2 h

theorem checkSrcDst_not_fault {s : State} {x : Fault} : checkSrcDst s ≠ .fault x := by
  simp only [checkSrcDst]; repeat' split
  all_goals simp

theorem checkSrcDst_raised {s : State} {e : ErrorKind} {p : Word} (h : checkSrcDst s = .raised e p) :
    e = .rangeFault := by
  simp only [checkSrcDst] at h
  repeat' split at h
  all_goals simp_all

theorem checkSrcAux_ok {s : State} (h1 : s.srcOk = true) (h2 : s.auxOk = true) : checkSrcAux s = .ok () := by
  simp [checkSrcAux, h1, h2]

theorem checkSrcAux_eq_ok (s : State) : checkSrcAux s = .ok () ↔ s.srcOk = true ∧ s.auxOk = true := by
  simp only [checkSrcAux]
  cases s.srcOk <;> cases s.auxOk <;> simp

theorem checkSrcAux_not_fault {s : State} {x : Fault} : checkSrcAux s ≠ .fault x := by
  simp only [checkSrcAux]; repeat' split
  all_goals simp

theorem checkSrcAux_raised {s : State} {e : ErrorKind} {p : Word} (h : checkSrcAux s = .raised e p) :
    e = .rangeFault := by
  simp only [checkSrcAux] at h
  repeat' split at h
  all_goals simp_all

/-! ### Reading the operands -/

/-- The engine's reads from SRC index `i` on give the bytes `bs`. -/
def Reads (s : State) (i : Nat) (bs : Bytes) : Prop :=
  ∀ k (h : k < bs.length), src s (i + k) = .ok bs[k]

theorem src_eq_ok {s : State} {k : Nat} {v : Byte} :
    src s k = .ok v ↔ s.buf.read (s.srcBase.toNat + k) = some v := by
  simp only [src, State.memRead]
  cases s.buf.read (s.srcBase.toNat + k) <;> simp

theorem src_not_raised {s : State} {k : Nat} {e : ErrorKind} {p : Word} : src s k ≠ .raised e p := by
  simp only [src, State.memRead]; split <;> simp

/-- Everything a source read can do: the byte, or the fault of R137. -/
theorem src_cases (s : State) (k : Nat) :
    (∃ v, src s k = .ok v ∧ s.buf.read (s.srcBase.toNat + k) = some v) ∨
    (src s k = .fault (.unwrittenByte (s.srcBase.toNat + k)) ∧ s.buf.read (s.srcBase.toNat + k) = none) := by
  simp only [src, State.memRead]
  cases s.buf.read (s.srcBase.toNat + k) <;> simp

theorem reads_nil (s : State) (i : Nat) : Reads s i [] := fun _ h => absurd h (by simp)

theorem reads_cons {s : State} {i : Nat} {b : Byte} {bs : Bytes} :
    Reads s i (b :: bs) ↔ src s i = .ok b ∧ Reads s (i + 1) bs := by
  constructor
  · intro h
    refine ⟨h 0 (by simp), fun k hk => ?_⟩
    have := h (k + 1) (by simpa using hk)
    simpa [Nat.add_assoc, Nat.add_comm 1] using this
  · rintro ⟨h0, h1⟩ k hk
    cases k with
    | zero => simpa using h0
    | succ j =>
      have := h1 j (by simpa using hk)
      simpa [Nat.add_assoc, Nat.add_comm 1] using this

theorem reads_append {s : State} {i : Nat} {as bs : Bytes} :
    Reads s i (as ++ bs) ↔ Reads s i as ∧ Reads s (i + as.length) bs := by
  induction as generalizing i with
  | nil => simp [reads_nil]
  | cons a rest ih =>
    simp only [List.cons_append, reads_cons, ih, List.length_cons, and_assoc]
    rw [show i + 1 + rest.length = i + (rest.length + 1) by omega]

/-- A string read from BUF at the SRC base is what the engine reads. -/
theorem reads_of_readBytes {s : State} {n : Nat} {bs : Bytes}
    (h : s.buf.readBytes s.srcBase.toNat n = some bs) : Reads s 0 bs := by
  obtain ⟨hl, hk⟩ := Memory.readBytes_eq_some.1 h
  intro k hk'
  rw [src_eq_ok, Nat.zero_add, hk k (by omega), List.getElem?_eq_getElem hk']

theorem reads_of_srcString {s : State} {str : Bytes} (h : s.srcString = some str) :
    Reads s 0 str ∧ str.length = s.srcLen.toNat :=
  ⟨reads_of_readBytes h, (Memory.readBytes_eq_some.1 h).1⟩

/-- What the engine reads of a SRC range that begins with `text`. -/
theorem reads_of_startsWith {s : State} {text : Bytes} (h : srcStartsWith s text = true) :
    Reads s 0 text ∧ text.length ≤ s.srcLen.toNat := by
  simp only [srcStartsWith, Bool.and_eq_true, decide_eq_true_eq] at h
  exact ⟨reads_of_readBytes h.2, h.1⟩

/-- The engine's read of the unwritten byte after `text` is the model's fault (R137). -/
theorem reads_of_unwrittenAfter {s : State} {text : Bytes} (h : srcUnwrittenAfter s text = true) :
    Reads s 0 text ∧ text.length < s.srcLen.toNat ∧
      src s text.length = .fault (.unwrittenByte (s.srcBase.toNat + text.length)) := by
  simp only [srcUnwrittenAfter, Bool.and_eq_true, decide_eq_true_eq] at h
  exact ⟨(reads_of_startsWith h.1.1).1, h.1.2, by simp [src, State.memRead, h.2]⟩

/-- The SRC string, from the engine's reads. -/
theorem srcString_of_reads {s : State} {str : Bytes} (h : Reads s 0 str) (hl : str.length = s.srcLen.toNat) :
    s.srcString = some str :=
  Memory.readBytes_eq_some.2 ⟨hl, fun k hk => by
    have := src_eq_ok.1 (h k (by omega))
    rw [Nat.zero_add] at this
    rw [this, List.getElem?_eq_getElem (by omega)]⟩

/-! ### Characters -/

theorem bitOf_ascii (b : Bool) : bitOf (if b then 0x31 else 0x30) = some b := by cases b <;> rfl

/-- The bit of a character and the character of a bit. -/
theorem bitOf_eq_some {c : Byte} {b : Bool} : bitOf c = some b ↔ c = if b then 0x31 else 0x30 := by
  unfold bitOf
  constructor
  · intro h
    split at h
    · simp_all
    · split at h <;> simp_all
  · rintro rfl; cases b <;> rfl

theorem bitOf_eq_none {c : Byte} : bitOf c = none ↔ c ≠ 0x30 ∧ c ≠ 0x31 := by
  unfold bitOf
  split
  · simp_all
  · split <;> simp_all

@[simp] theorem ascii_nil : ascii [] = [] := rfl
theorem ascii_cons (b : Bool) (c : Code) : ascii (b :: c) = (if b then 0x31 else 0x30) :: ascii c := rfl
@[simp] theorem ascii_length (c : Code) : (ascii c).length = c.length := by simp [ascii]
@[simp] theorem ascii_append (c d : Code) : ascii (c ++ d) = ascii c ++ ascii d := by simp [ascii]

theorem ascii_injective : Function.Injective ascii := by
  intro c
  induction c with
  | nil => intro d h; cases d <;> simp_all [ascii]
  | cons b c ih =>
    intro d h
    cases d with
    | nil => simp [ascii] at h
    | cons e d =>
      simp only [ascii_cons, List.cons.injEq] at h
      rw [ih h.2]
      have := h.1
      cases b <;> cases e <;> simp_all

theorem digitOf_digitChar (d : Digit) : digitOf (digitChar d) = some d := by
  revert d; decide

/-- The digit of a character and the character of a digit. -/
theorem digitOf_eq_some {c : Byte} {d : Digit} : digitOf c = some d ↔ c = digitChar d := by
  constructor
  · intro h
    simp only [digitOf] at h
    split at h
    · rename_i hc
      simp only [Option.some.injEq] at h
      subst h
      apply BitVec.eq_of_toNat_eq
      simp [digitChar]; omega
    · simp at h
  · rintro rfl; exact digitOf_digitChar d

@[simp] theorem digitText_nil : digitText [] = [] := rfl
@[simp] theorem digitText_cons (d : Digit) (ds : List Digit) : digitText (d :: ds) = digitChar d :: digitText ds := rfl
@[simp] theorem digitText_append (x y : List Digit) : digitText (x ++ y) = digitText x ++ digitText y := by
  simp [digitText]
@[simp] theorem digitText_length (ds : List Digit) : (digitText ds).length = ds.length := by simp [digitText]

theorem digitChar_injective : Function.Injective digitChar := fun a b h => by
  have := digitOf_digitChar a
  rw [h, digitOf_digitChar] at this
  simpa using this.symm

theorem digitText_injective : Function.Injective digitText :=
  List.map_injective_iff.2 digitChar_injective

end Sys2Proof.Machine
end

