-- ==== Sys2Proof/Laws/Trie.lean ====
section
/-! SUPPORT. The trie operations of TRIE_INSERT: the longest prefix, the added path, the insert, and that the insert keeps the invariants of R49. -/

namespace Sys2Proof.Machine

/-- A node that is not in the trie has no payload. -/
theorem Trie.payload_of_not_has {t : Trie} {w : List Digit} (h : t.has w = false) : t.payload w = none := by
  simp only [Trie.has, Option.isSome_eq_false_iff, Option.isNone_iff_eq_none] at h
  simp [Trie.payload, h]

theorem Trie.has_of_payload {t : Trie} {w : List Digit} {p : Bytes} (h : t.payload w = some p) :
    t.has w = true := by
  by_contra hc
  rw [Trie.payload_of_not_has (by simpa using hc)] at h
  simp at h

/-- A put adds at most the bytes of its payload. -/
theorem Trie.payloadBytes_put (t : Trie) (w : List Digit) (p : Option Bytes) :
    (t.put w p).payloadBytes ≤ t.payloadBytes + (p.getD []).length := by
  simp only [Trie.payloadBytes, Trie.put]
  induction t with
  | nil => simp [SortedMap.put]
  | cons e rest ih =>
    obtain ⟨q, u⟩ := e
    simp only [SortedMap.put]
    split
    · simp; omega
    · split
      · simp; omega
      · simp; omega

/-- What the longest prefix is: within the bound, in the trie where the root is, and no longer one is. -/
theorem Trie.longestPrefix_spec (t : Trie) (key : List Digit) (n : Nat) :
    t.longestPrefix key n ≤ n ∧
    (t.has [] = true → t.has (key.take (t.longestPrefix key n)) = true) ∧
    (∀ j, t.longestPrefix key n < j → j ≤ n → t.has (key.take j) = false) := by
  induction n with
  | zero => exact ⟨Nat.le_refl _, fun h => by simpa [Trie.longestPrefix] using h, fun j h1 h2 => by omega⟩
  | succ n ih =>
    simp only [Trie.longestPrefix]
    split
    · rename_i h
      exact ⟨Nat.le_refl _, fun _ => h, fun j h1 h2 => by omega⟩
    · rename_i h
      refine ⟨by omega, ih.2.1, fun j h1 h2 => ?_⟩
      by_cases hj : j = n + 1
      · subst hj; simpa using h
      · exact ih.2.2 j h1 (by omega)

/-- The longest prefix, from a description of which prefixes are in the trie. -/
theorem Trie.longestPrefix_eq {t : Trie} {key : List Digit} {l0 : Nat} (hl : l0 ≤ key.length)
    (h : ∀ j, j ≤ key.length → (t.has (key.take j) = true ↔ j ≤ l0)) :
    t.longestPrefix key key.length = l0 := by
  obtain ⟨h1, h2, h3⟩ := t.longestPrefix_spec key key.length
  have h0 : t.has [] = true := by simpa using (h 0 (by omega)).2 (by omega)
  have h4 := (h _ h1).1 (h2 h0)
  by_contra hne
  have h5 := h3 l0 (by omega) hl
  rw [(h l0 hl).2 (Nat.le_refl _)] at h5
  simp at h5

/-- A prefix-closed trie holds exactly the prefixes of a key up to its longest one. -/
theorem Trie.has_take_iff {t : Trie} {key : List Digit} (h0 : t.has [] = true)
    (hp : ∀ w d, t.has (w ++ [d]) = true → t.has w = true) {j : Nat} (hj : j ≤ key.length) :
    t.has (key.take j) = true ↔ j ≤ t.longestPrefix key key.length := by
  obtain ⟨h1, h2, h3⟩ := t.longestPrefix_spec key key.length
  constructor
  · intro h
    by_contra hc
    rw [h3 j (by omega) hj] at h
    simp at h
  · intro h
    have key' : ∀ k, k ≤ t.longestPrefix key key.length →
        t.has (key.take (t.longestPrefix key key.length - k)) = true := by
      intro k
      induction k with
      | zero => intro _; exact h2 h0
      | succ k ih =>
        intro hk
        have := ih (by omega)
        have hlt : t.longestPrefix key key.length - (k + 1) < key.length := by omega
        rw [show t.longestPrefix key key.length - k = t.longestPrefix key key.length - (k + 1) + 1 by omega,
          List.take_succ_eq_append_getElem hlt] at this
        exact hp _ _ this
    have := key' (t.longestPrefix key key.length - j) (by omega)
    rwa [show t.longestPrefix key key.length - (t.longestPrefix key key.length - j) = j by omega] at this

/-- The added path: its nodes are new, the rest is as before. -/
theorem Trie.has_addPath (t : Trie) (key : List Digit) (start m : Nat) (v : List Digit) :
    (t.addPath key start m).has v = true ↔
      t.has v = true ∨ ∃ j, start < j ∧ j ≤ start + m ∧ v = key.take j := by
  induction m generalizing t start with
  | zero =>
    simp only [Trie.addPath, Nat.add_zero]
    exact ⟨.inl, fun h => h.elim id fun ⟨j, h1, h2, _⟩ => by omega⟩
  | succ m ih =>
    simp only [Trie.addPath, ih, Trie.has_put, Bool.or_eq_true, decide_eq_true_eq]
    constructor
    · rintro ((h | h) | ⟨j, h1, h2, h3⟩)
      · exact .inr ⟨start + 1, by omega, by omega, h⟩
      · exact .inl h
      · exact .inr ⟨j, by omega, by omega, h3⟩
    · rintro (h | ⟨j, h1, h2, h3⟩)
      · exact .inl (.inr h)
      · by_cases hj : j = start + 1
        · subst hj; exact .inl (.inl h3)
        · exact .inr ⟨j, by omega, by omega, h3⟩

theorem take_inj_of_le {key : List Digit} {i j : Nat} (hi : i ≤ key.length) (hj : j ≤ key.length)
    (h : key.take i = key.take j) : i = j := by
  have := congrArg List.length h
  simp only [List.length_take] at this
  omega

/-- Adding nodes that are all new keeps every payload, adds their number, and keeps the canonical form. -/
theorem Trie.addPath_new (t : Trie) (key : List Digit) (start m : Nat) (hm : start + m ≤ key.length)
    (hnew : ∀ j, start < j → j ≤ start + m → t.has (key.take j) = false) :
    (∀ v, (t.addPath key start m).payload v = t.payload v) ∧
    (t.addPath key start m).length = t.length + m ∧
    (t.wf = true → (t.addPath key start m).wf = true) ∧
    (t.addPath key start m).payloadBytes ≤ t.payloadBytes := by
  induction m generalizing t start with
  | zero => exact ⟨fun _ => rfl, rfl, id, Nat.le_refl _⟩
  | succ m ih =>
    have hfresh := hnew (start + 1) (by omega) (by omega)
    obtain ⟨h1, h2, h3, h4⟩ := ih (t.put (key.take (start + 1)) none) (start + 1) (by omega) fun j hj1 hj2 => by
      rw [Trie.has_put, hnew j (by omega) (by omega), Bool.or_false, decide_eq_false_iff_not]
      intro h
      have := take_inj_of_le (by omega) (by omega) h
      omega
    simp only [Trie.addPath]
    refine ⟨fun v => ?_, ?_, fun h => h3 (Trie.wf_put _ _ _ h), ?_⟩
    · rw [h1, Trie.payload_put]
      split
      · rename_i hv; rw [hv, Trie.payload_of_not_has hfresh]
      · rfl
    · rw [h2, Trie.length_put_absent _ _ _ hfresh]; omega
    · have := Trie.payloadBytes_put t (key.take (start + 1)) none
      simp only [Option.getD_none, List.length_nil, Nat.add_zero] at this
      omega

/-- Everything the insert does to a trie that keeps R49.1 and R49.2 and is canonical. -/
theorem insertedTrie_spec {t : Trie} {key : List Digit} {pay : Bytes} (hw : t.wf = true) (h0 : t.has [] = true)
    (hp : ∀ w d, t.has (w ++ [d]) = true → t.has w = true) :
    (∀ w, (insertedTrie t key pay).has w = (t.has w || w.isPrefixOf key)) ∧
    (∀ w, (insertedTrie t key pay).payload w = if w = key then some pay else t.payload w) ∧
    (insertedTrie t key pay).length = t.length + (key.length - t.longestPrefix key key.length) ∧
    (insertedTrie t key pay).wf = true ∧
    (insertedTrie t key pay).payloadBytes ≤ t.payloadBytes + pay.length := by
  obtain ⟨h1, h2, h3⟩ := t.longestPrefix_spec key key.length
  obtain ⟨a1, a2, a3, a4⟩ := t.addPath_new key (t.longestPrefix key key.length)
    (key.length - t.longestPrefix key key.length) (by omega) fun j hj1 hj2 => h3 j hj1 (by omega)
  have hkey : (t.addPath key (t.longestPrefix key key.length)
      (key.length - t.longestPrefix key key.length)).has key = true := by
    rw [Trie.has_addPath]
    by_cases hl : t.longestPrefix key key.length = key.length
    · left
      have := h2 h0
      rwa [hl, List.take_length] at this
    · exact .inr ⟨key.length, by omega, by omega, by simp⟩
  refine ⟨fun w => ?_, fun w => ?_, ?_, ?_, ?_⟩
  · apply Bool.eq_iff_iff.2
    simp only [insertedTrie, Trie.has_put, Bool.or_eq_true, decide_eq_true_eq, Trie.has_addPath,
      List.isPrefixOf_iff_prefix]
    constructor
    · rintro (rfl | h | ⟨j, -, -, rfl⟩)
      · exact .inr (List.prefix_refl _)
      · exact .inl h
      · exact .inr (List.take_prefix _ _)
    · rintro (h | h)
      · exact .inr (.inl h)
      · rw [List.prefix_iff_eq_take] at h
        have hlen : w.length ≤ key.length := by
          have := congrArg List.length h; simp only [List.length_take] at this; omega
        by_cases hl : w.length ≤ t.longestPrefix key key.length
        · exact .inr (.inl (h ▸ (Trie.has_take_iff h0 hp hlen).2 hl))
        · exact .inr (.inr ⟨w.length, by omega, by omega, h⟩)
  · simp only [insertedTrie, Trie.payload_put, a1]
  · simp only [insertedTrie]
    rw [Trie.length_put_present _ _ _ (a3 hw) hkey, a2]
  · exact Trie.wf_put _ _ _ (a3 hw)
  · have := Trie.payloadBytes_put (t.addPath key (t.longestPrefix key key.length)
      (key.length - t.longestPrefix key key.length)) key (some pay)
    simp only [Option.getD_some] at this
    simp only [insertedTrie]
    omega

/-- The root trie keeps R49. -/
theorem Trie.has_bare (w : List Digit) : Trie.has Trie.bare w = decide (w = []) := by
  by_cases h : w = [] <;> simp [Trie.has, Trie.bare, SortedMap.find, h]

theorem Trie.payload_bare (w : List Digit) : Trie.payload Trie.bare w = none := by
  by_cases h : w = [] <;> simp [Trie.payload, Trie.bare, SortedMap.find, h]

/-- The insert keeps every clause of R49 that speaks of `K` and `P`. -/
theorem insertedTrie_leaf {t : Trie} {key : List Digit} {pay : Bytes} (hw : t.wf = true) (h0 : t.has [] = true)
    (hp : ∀ w d, t.has (w ++ [d]) = true → t.has w = true)
    (hl : ∀ w, w ≠ [] → t.has w = true → t.isLeaf w = true → (t.payload w).isSome = true) :
    ∀ w, w ≠ [] → (insertedTrie t key pay).has w = true → (insertedTrie t key pay).isLeaf w = true →
      ((insertedTrie t key pay).payload w).isSome = true := by
  obtain ⟨a1, a2, -, -, -⟩ := insertedTrie_spec (key := key) (pay := pay) hw h0 hp
  intro w hne hhas hleaf
  rw [a2]
  split
  · rfl
  rename_i hwk
  rw [Trie.isLeaf_iff] at hleaf
  rw [a1, Bool.or_eq_true] at hhas
  rcases hhas with h | h
  · refine hl w hne h ((Trie.isLeaf_iff _ _).2 fun d => ?_)
    have := hleaf d
    rw [a1, Bool.or_eq_false_iff] at this
    exact this.1
  · rw [List.isPrefixOf_iff_prefix] at h
    obtain ⟨rest, rfl⟩ := h
    cases rest with
    | nil => simp at hwk
    | cons d rest =>
      have := hleaf d
      rw [a1, Bool.or_eq_false_iff] at this
      have h2 : (w ++ [d]).isPrefixOf (w ++ d :: rest) = true := by
        rw [List.isPrefixOf_iff_prefix]; exact ⟨rest, by simp⟩
      simp [h2] at this

/-- The prefix closure after an insert. -/
theorem insertedTrie_prefix_closed {t : Trie} {key : List Digit} {pay : Bytes} (hw : t.wf = true)
    (h0 : t.has [] = true) (hp : ∀ w d, t.has (w ++ [d]) = true → t.has w = true) :
    ∀ w d, (insertedTrie t key pay).has (w ++ [d]) = true → (insertedTrie t key pay).has w = true := by
  obtain ⟨a1, -, -, -, -⟩ := insertedTrie_spec (key := key) (pay := pay) hw h0 hp
  intro w d h
  rw [a1, Bool.or_eq_true] at h ⊢
  rcases h with h | h
  · exact .inl (hp w d h)
  · rw [List.isPrefixOf_iff_prefix] at h ⊢
    exact .inr ((List.prefix_append w [d]).trans h)

/-- A prefix of a node is a node. -/
theorem Trie.has_prefix {t : Trie} (hp : ∀ w d, t.has (w ++ [d]) = true → t.has w = true) {w : List Digit}
    (x : List Digit) (h : t.has (w ++ x) = true) : t.has w = true := by
  induction x using List.reverseRecOn with
  | nil => simpa using h
  | append_singleton x d ih =>
    rw [← List.append_assoc] at h
    exact ih (hp _ _ h)

/-- A node is one of the listed entries. -/
theorem Trie.mem_of_has {t : Trie} {w : List Digit} (h : t.has w = true) : ∃ p, (w, p) ∈ t := by
  simp only [Trie.has, Option.isSome_iff_exists] at h
  obtain ⟨p, hp⟩ := h
  exact ⟨p, SortedMap.mem_of_find hp⟩

/-- The invariants of R49, from a check of each listed node. -/
theorem trieOk_of_entries {s : State} (hw : s.trie.wf = true) (h0 : s.trie.has [] = true)
    (he : s.trie.all (fun e => e.1.isEmpty ||
      (s.trie.has e.1.dropLast && (!s.trie.isLeaf e.1 || (s.trie.payload e.1).isSome))) = true)
    (hn : 1 ≤ s.trieUsed ∧ s.trieUsed ≤ s.params.trieNodes) (hp : s.payUsed ≤ s.params.payBytes)
    (hb : s.trie.payloadBytes ≤ s.payUsed) : s.TrieOk := by
  simp only [List.all_eq_true, Bool.or_eq_true, List.isEmpty_iff, Bool.and_eq_true, Bool.not_eq_true'] at he
  refine ⟨hw, h0, fun w d h => ?_, fun w hne h hl => ?_, hn, hp, hb⟩
  · obtain ⟨p, hm⟩ := Trie.mem_of_has h
    rcases he _ hm with h | ⟨h, -⟩
    · simp at h
    · simpa using h
  · obtain ⟨p, hm⟩ := Trie.mem_of_has h
    rcases he _ hm with h | ⟨-, h | h⟩
    · exact absurd h hne
    · rw [hl] at h; simp at h
    · exact h

end Sys2Proof.Machine
end

