-- ==== Sys2Proof/Laws/RleScan.lean ====
section
/-! SUPPORT. What the scans of RLE_ENC, TRIE_INSERT and RLE_DEC do with the bytes they read. -/

namespace Sys2Proof.Machine

/-! ### Runs and decimal counts -/

theorem decimalDigits_length (fuel n : Nat) (h : 1 ≤ n) : (decimalDigits fuel n).length ≤ n := by
  induction fuel generalizing n with
  | zero => simp [decimalDigits]
  | succ fuel ih =>
    simp only [decimalDigits]
    split
    · simpa using h
    · have := ih (n / 10) (by omega)
      simp only [List.length_append, List.length_singleton]
      omega

/-- A count of 2 or more is shorter than the run it counts. -/
theorem dec_length_lt (n : Nat) (h : 2 ≤ n) : (dec n).length < n := by
  obtain ⟨m, rfl⟩ : ∃ m, n = m + 1 := ⟨n - 1, by omega⟩
  simp only [dec, decimalDigits, List.length_map]
  split
  · simp; omega
  · have := decimalDigits_length m ((m + 1) / 10) (by omega)
    simp only [List.length_append, List.length_singleton]
    omega

/-- A token is never longer than its run. -/
theorem tokenOf_length (run : Bytes) : (tokenOf run).length ≤ run.length := by
  cases run with
  | nil => simp [tokenOf]
  | cons c rest =>
    simp only [tokenOf, runToken, List.length_cons]
    split
    · have := dec_length_lt (rest.length + 1) (by omega); omega
    · simp

/-- The decimal digits of a positive number: the number they denote is the number, and the first is not 0 (R9). -/
theorem decimalDigits_spec {fuel n : Nat} (hn : 1 ≤ n) (hf : n ≤ fuel) :
    ∃ (d : Digit) (ds : List Digit), decimalDigits fuel n = (d :: ds).map Fin.val ∧ numberOf (d :: ds) = n ∧ d ≠ 0 := by
  induction fuel generalizing n with
  | zero => omega
  | succ fuel ih =>
    simp only [decimalDigits]
    split
    · rename_i h
      refine ⟨⟨n, h⟩, [], rfl, by simp [numberOf], fun h0 => ?_⟩
      have := congrArg Fin.val h0
      simp at this; omega
    · obtain ⟨d, ds, h1, h2, h3⟩ := ih (n := n / 10) (by omega) (by omega)
      refine ⟨d, ds ++ [⟨n % 10, by omega⟩], by simp [h1], ?_, h3⟩
      simp only [numberOf, List.foldl_cons, List.foldl_append, List.foldl_nil] at h2 ⊢
      rw [h2]; omega

/-- dec(n) is the decimal text of n, with no leading zero (R9). -/
theorem dec_spec {n : Nat} (hn : 1 ≤ n) :
    ∃ (d : Digit) (ds : List Digit), dec n = digitText (d :: ds) ∧ numberOf (d :: ds) = n ∧ d ≠ 0 := by
  obtain ⟨d, ds, h1, h2, h3⟩ := decimalDigits_spec hn (Nat.le_refl n)
  exact ⟨d, ds, by rw [dec, h1]; simp [digitText, digitChar], h2, h3⟩

/-- A list of runs as the encoder sees them: each is one repeated character, and neighbours differ. -/
def GoodRuns (runs : List Bytes) : Prop :=
  (∀ r ∈ runs, ∃ c m, r = List.replicate (m + 1) c) ∧ runs.IsChain (fun a b => a.head? ≠ b.head?)

theorem replicate_of_isChain {c : Byte} {rest : Bytes}
    (h : (c :: rest).IsChain (fun a b => (a == b) = true)) : c :: rest = List.replicate (rest.length + 1) c := by
  induction rest generalizing c with
  | nil => rfl
  | cons d rest ih =>
    rw [List.isChain_cons_cons] at h
    have hcd : c = d := by simpa using h.1
    subst hcd
    have := ih h.2
    rw [List.length_cons, List.replicate_succ, ← this]

/-- The runs of a string are good runs. -/
theorem goodRuns_splitBy (str : Bytes) : GoodRuns (str.splitBy (fun a b => a == b)) := by
  have h1 : ∀ r ∈ str.splitBy (fun a b => a == b), ∃ c m, r = List.replicate (m + 1) c := by
    intro r hr
    have hch := List.isChain_of_mem_splitBy hr
    cases r with
    | nil => exact absurd hr (List.nil_notMem_splitBy _ _)
    | cons c rest => exact ⟨c, rest.length, replicate_of_isChain hch⟩
  refine ⟨h1, ?_⟩
  have h2 := List.isChain_getLast_head_splitBy (fun a b : Byte => a == b) str
  refine List.IsChain.imp_of_mem_imp (fun a b ha hb hab => ?_) h2
  obtain ⟨ha', hb', hne⟩ := hab
  obtain ⟨c, m, rfl⟩ := h1 a ha
  obtain ⟨d, k, rfl⟩ := h1 b hb
  simp only [List.getLast_replicate, List.head_replicate, beq_eq_false_iff_ne] at hne
  simpa [List.replicate_succ] using hne

theorem goodRuns_cons {r : Bytes} {rs : List Bytes} (h : GoodRuns (r :: rs)) : GoodRuns rs :=
  ⟨fun x hx => h.1 x (by simp [hx]), by
    cases rs with
    | nil => exact List.isChain_nil
    | cons b rs => exact (List.isChain_cons_cons.1 h.2).2⟩

theorem tokenOf_replicate (c : Byte) (m : Nat) : tokenOf (List.replicate (m + 1) c) = runToken c (m + 1) := by
  simp [List.replicate_succ, tokenOf]

/-! ### RLE_ENC -/

/-- The inner loop of RLE_ENC finds the end of the run. -/
theorem runEnd_run {s : State} {c : Byte} {j m k : Nat} (hr : Reads s j (List.replicate m c))
    (hk : k = m ∨ (m < k ∧ ∃ b, b ≠ c ∧ src s (j + m) = .ok b)) : runEnd s c k j = .ok (j + m) := by
  induction m generalizing j k with
  | zero =>
    rcases hk with rfl | ⟨hk, b, hb, hs⟩
    · rfl
    · obtain ⟨k, rfl⟩ : ∃ k', k = k' + 1 := ⟨k - 1, by omega⟩
      simp only [Nat.add_zero] at hs
      simp [runEnd, hs, hb]
  | succ m ih =>
    rw [List.replicate_succ, reads_cons] at hr
    obtain ⟨k, rfl⟩ : ∃ k', k = k' + 1 := ⟨k - 1, by omega⟩
    simp only [runEnd, hr.1, Run.andThen_ok, if_true]
    rw [ih hr.2 (by
      rcases hk with hk | ⟨hk, b, hb, hs⟩
      · exact .inl (by omega)
      · exact .inr ⟨by omega, b, hb, by rwa [show j + 1 + m = j + (m + 1) by omega]⟩)]
    rw [show j + 1 + m = j + (m + 1) by omega]

/-- The inner loop of RLE_ENC stops with the fault of the first byte it cannot read. -/
theorem runEnd_fault {s : State} {c : Byte} {j m k : Nat} {x : Fault} (hr : Reads s j (List.replicate m c))
    (hk : m < k) (hs : src s (j + m) = .fault x) : runEnd s c k j = .fault x := by
  induction m generalizing j k with
  | zero =>
    obtain ⟨k, rfl⟩ : ∃ k', k = k' + 1 := ⟨k - 1, by omega⟩
    simp only [Nat.add_zero] at hs
    simp [runEnd, hs]
  | succ m ih =>
    rw [List.replicate_succ, reads_cons] at hr
    obtain ⟨k, rfl⟩ : ∃ k', k = k' + 1 := ⟨k - 1, by omega⟩
    simp only [runEnd, hr.1, Run.andThen_ok, if_true]
    exact ih hr.2 (by omega) (by rwa [show j + 1 + m = j + (m + 1) by omega])

/-- RLE_ENC over one good run: what is left is the append of its token. A run with no run after it ends the input. -/
theorem rleEncScan_run {s : State} {fuel i : Nat} {c : Byte} {m : Nat} {rs : List Bytes} {out : Bytes}
    (hg : GoodRuns (List.replicate (m + 1) c :: rs))
    (hr : Reads s i (List.replicate (m + 1) c ++ rs.flatten))
    (hn : i + (m + 1 + rs.flatten.length) ≤ s.srcLen.toNat) (hlast : rs = [] → i + (m + 1) = s.srcLen.toNat) :
    rleEncScan s (fuel + 1) i out =
      (append s.dstCap.toNat out (tokenOf (List.replicate (m + 1) c)) i).andThen fun out' =>
        rleEncScan s fuel (i + (m + 1)) out' := by
  rw [reads_append, List.length_replicate] at hr
  have h1 := hr.1
  rw [List.replicate_succ, reads_cons] at h1
  have hend : runEnd s c (s.srcLen.toNat - (i + 1)) (i + 1) = .ok (i + 1 + m) := by
    apply runEnd_run h1.2
    cases hrs : rs with
    | nil => left; have := hlast hrs; omega
    | cons r rs' =>
      right
      obtain ⟨d, k, hrd⟩ := hg.1 r (by simp [hrs])
      have hch := hg.2
      rw [hrs, List.isChain_cons_cons] at hch
      have hdc : d ≠ c := by
        have := hch.1
        simp only [hrd, List.replicate_succ, List.head?_cons, ne_eq, Option.some.injEq] at this
        exact fun e => this e.symm
      have h2 := hr.2
      rw [hrs, List.flatten_cons, hrd, List.replicate_succ, List.cons_append, reads_cons] at h2
      refine ⟨?_, d, hdc, ?_⟩
      · simp [hrs, hrd] at hn; omega
      · rw [show i + 1 + m = i + (m + 1) by omega]; exact h2.1
  have hlt : i < s.srcLen.toNat := by omega
  simp only [rleEncScan, hlt, if_true, h1.1, Run.andThen_ok, hend]
  rw [tokenOf_replicate, show i + 1 + m - i = m + 1 by omega, show i + 1 + m = i + (m + 1) by omega]

/-- RLE_ENC follows runs whose tokens fit. With no run after them they end the input. -/
theorem rleEncScan_prefix {s : State} {fuel i : Nat} {before after : List Bytes} {out : Bytes}
    (hg : GoodRuns (before ++ after)) (hr : Reads s i (before ++ after).flatten)
    (hn : i + (before ++ after).flatten.length ≤ s.srcLen.toNat)
    (hlast : after = [] → i + before.flatten.length = s.srcLen.toNat)
    (hf : out.length + (before.flatMap tokenOf).length ≤ s.dstCap.toNat) :
    rleEncScan s (before.length + fuel) i out =
      rleEncScan s fuel (i + before.flatten.length) (out ++ before.flatMap tokenOf) := by
  induction before generalizing i out with
  | nil => simp
  | cons r rs ih =>
    obtain ⟨c, m, rfl⟩ := hg.1 r (by simp)
    simp only [List.cons_append, List.flatten_cons] at hg hr hn
    rw [List.flatMap_cons, List.length_append] at hf
    rw [List.length_cons, show rs.length + 1 + fuel = (rs.length + fuel) + 1 by omega,
      rleEncScan_run hg hr (by simpa using hn)
        (fun h => by
          obtain ⟨rfl, h⟩ := List.append_eq_nil_iff.1 h
          have := hlast h
          simpa using this), append_ok (by omega), Run.andThen_ok]
    rw [reads_append, List.length_replicate] at hr
    rw [ih (goodRuns_cons hg) hr.2 (by simp at hn ⊢; omega)
      (fun h => by have := hlast h; simp at this ⊢; omega) (by simp only [List.length_append]; omega)]
    simp only [List.flatten_cons, List.length_append, List.length_replicate, List.flatMap_cons, List.append_assoc]
    rw [show i + (m + 1) + rs.flatten.length = i + (m + 1 + rs.flatten.length) by omega]

/-- RLE_ENC stops at the end of its input. -/
theorem rleEncScan_end {s : State} {fuel i : Nat} {out : Bytes} (h : s.srcLen.toNat ≤ i) :
    rleEncScan s fuel i out = .ok out := by
  cases fuel with
  | zero => rfl
  | succ f => simp [rleEncScan, Nat.not_lt.2 h]

theorem goodRuns_length {runs : List Bytes} (h : ∀ r ∈ runs, ∃ c m, r = List.replicate (m + 1) c) :
    runs.length ≤ runs.flatten.length := by
  induction runs with
  | nil => simp
  | cons r rs ih =>
    obtain ⟨c, m, rfl⟩ := h r (by simp)
    have := ih fun x hx => h x (by simp [hx])
    simp only [List.length_cons, List.flatten_cons, List.length_append, List.length_replicate]
    omega

/-- Everything RLE_ENC's scan can answer with an output for, given the runs it reads. -/
theorem rleEncScan_eq_ok {s : State} {fuel i : Nat} {runs : List Bytes} {out out' : Bytes}
    (hg : GoodRuns runs) (hr : Reads s i runs.flatten) (hn : i + runs.flatten.length = s.srcLen.toNat)
    (hfuel : runs.length ≤ fuel) (ho : out.length ≤ s.dstCap.toNat) (h : rleEncScan s fuel i out = .ok out') :
    out' = out ++ runs.flatMap tokenOf ∧ out'.length ≤ s.dstCap.toNat := by
  induction runs generalizing fuel i out with
  | nil =>
    rw [rleEncScan_end (by simp at hn; omega)] at h
    simp only [Run.ok.injEq] at h
    subst h
    simpa using ho
  | cons r rs ih =>
    obtain ⟨c, m, rfl⟩ := hg.1 r (by simp)
    obtain ⟨fuel, rfl⟩ : ∃ f, fuel = f + 1 := ⟨fuel - 1, by simp at hfuel; omega⟩
    simp only [List.flatten_cons] at hr hn
    rw [rleEncScan_run hg hr (by simp at hn ⊢; omega) (fun h => by subst h; simpa using hn)] at h
    obtain ⟨o, ha, h⟩ := Run.andThen_eq_ok.1 h
    obtain ⟨hfit, rfl⟩ := append_eq_ok.1 ha
    rw [reads_append, List.length_replicate] at hr
    simp only [List.length_append, List.length_replicate] at hn
    obtain ⟨h1, h2⟩ := ih (goodRuns_cons hg) hr.2 (by omega) (by simpa using hfuel) (by simpa using hfit) h
    exact ⟨by simp [h1], h2⟩

/-- An end of a run that was found was read up to there. -/
theorem runEnd_reads {s : State} {c : Byte} {k j e : Nat} (h : runEnd s c k j = .ok e) :
    ∃ bs, j + bs.length = e ∧ e ≤ j + k ∧ Reads s j bs := by
  induction k generalizing j with
  | zero => simp only [runEnd, Run.ok.injEq] at h; subst h; exact ⟨[], by simp, by simp, reads_nil s j⟩
  | succ k ih =>
    simp only [runEnd, Run.andThen_eq_ok] at h
    obtain ⟨b, hb, h⟩ := h
    split at h
    · obtain ⟨bs, h1, h2, h3⟩ := ih h
      exact ⟨b :: bs, by simp; omega, by omega, reads_cons.2 ⟨hb, h3⟩⟩
    · simp only [Run.ok.injEq] at h; subst h; exact ⟨[], by simp, by omega, reads_nil s j⟩

/-- An RLE_ENC scan that ends in an output has read its whole input. -/
theorem rleEncScan_reads {s : State} {fuel i : Nat} {out out' : Bytes} (hi : i ≤ s.srcLen.toNat)
    (hfuel : s.srcLen.toNat - i ≤ fuel) (h : rleEncScan s fuel i out = .ok out') :
    ∃ bs, i + bs.length = s.srcLen.toNat ∧ Reads s i bs := by
  induction fuel generalizing i out with
  | zero => exact ⟨[], by simp; omega, reads_nil s i⟩
  | succ fuel ih =>
    by_cases hlt : i < s.srcLen.toNat
    · simp only [rleEncScan, hlt, if_true, Run.andThen_eq_ok] at h
      obtain ⟨c, hc, e, he, o, -, h⟩ := h
      obtain ⟨bs, h1, h2, h3⟩ := runEnd_reads he
      obtain ⟨bs', h4, h5⟩ := ih (i := e) (by omega) (by omega) h
      refine ⟨c :: (bs ++ bs'), by simp; omega, reads_cons.2 ⟨hc, reads_append.2 ⟨h3, ?_⟩⟩⟩
      rwa [h1]
    · exact ⟨[], by simp; omega, reads_nil s i⟩

/-! ### TRIE_INSERT -/

/-- The digits of a key are read one by one. -/
theorem readKey_prefix {s : State} {i n : Nat} {ds : List Digit} (h : Reads s i (digitText ds)) :
    readKey s (ds.length + n) i =
      (readKey s n (i + ds.length)).andThen fun rest => .ok (ds ++ rest) := by
  induction ds generalizing i with
  | nil =>
    simp only [List.length_nil, Nat.zero_add, Nat.add_zero, List.nil_append]
    cases readKey s n i <;> rfl
  | cons d rest ih =>
    rw [digitText_cons, reads_cons] at h
    rw [List.length_cons, show rest.length + 1 + n = (rest.length + n) + 1 by omega, readKey, h.1,
      Run.andThen_ok, digitOf_digitChar, show i + (rest.length + 1) = i + 1 + rest.length by omega]
    simp only [ih h.2]
    cases readKey s n (i + 1 + rest.length) <;> rfl

/-- Everything TRIE_INSERT's key scan can answer with a key for. -/
theorem readKey_eq_ok {s : State} {n i : Nat} {ds : List Digit} :
    readKey s n i = .ok ds ↔ ds.length = n ∧ Reads s i (digitText ds) := by
  constructor
  · intro h
    induction n generalizing i ds with
    | zero => simp only [readKey, Run.ok.injEq] at h; subst h; exact ⟨rfl, reads_nil s i⟩
    | succ n ih =>
      simp only [readKey, Run.andThen_eq_ok] at h
      obtain ⟨c, hc, h⟩ := h
      split at h
      · simp at h
      · rename_i d hd
        obtain ⟨rest, hr, h⟩ := Run.andThen_eq_ok.1 h
        simp only [Run.ok.injEq] at h
        subst h
        obtain ⟨hl, hrd⟩ := ih hr
        refine ⟨by simp [hl], ?_⟩
        rw [digitText_cons, reads_cons, ← digitOf_eq_some.1 hd]
        exact ⟨hc, hrd⟩
  · rintro ⟨rfl, h⟩
    have := readKey_prefix (n := 0) h
    simpa [readKey] using this

theorem readKey_raised {s : State} {n i : Nat} {e : ErrorKind} {p : Word}
    (h : readKey s n i = .raised e p) : e = .malformedRLEInput := by
  induction n generalizing i with
  | zero => simp [readKey] at h
  | succ n ih =>
    simp only [readKey, Run.andThen_eq_raised, src_not_raised, false_or] at h
    obtain ⟨c, -, h⟩ := h
    split at h
    · simp_all
    · simp only [Run.andThen_eq_raised, reduceCtorEq, and_false, exists_false, or_false] at h
      exact ih h

theorem aux_eq_ok {s : State} {k : Nat} {v : Byte} :
    aux s k = .ok v ↔ s.buf.read (s.auxBase.toNat + k) = some v := by
  simp only [aux, State.memRead]
  cases s.buf.read (s.auxBase.toNat + k) <;> simp

theorem aux_not_raised {s : State} {k : Nat} {e : ErrorKind} {p : Word} : aux s k ≠ .raised e p := by
  simp only [aux, State.memRead]; split <;> simp

/-- The payload read is the string of the AUX range. -/
theorem readAux_eq_ok {s : State} {n k : Nat} {pay : Bytes} :
    readAux s n k = .ok pay ↔ s.buf.readBytes (s.auxBase.toNat + k) n = some pay := by
  induction n generalizing k pay with
  | zero => simp [readAux, Memory.readBytes]
  | succ n ih =>
    simp only [readAux, Run.andThen_eq_ok, aux_eq_ok, Memory.readBytes]
    constructor
    · rintro ⟨v, hv, rest, hr, h⟩
      rw [ih] at hr
      simp only [Run.ok.injEq] at h
      rw [hv, show s.auxBase.toNat + k + 1 = s.auxBase.toNat + (k + 1) by omega, hr, ← h]
    · intro h
      split at h
      · rename_i v rest hv hr
        exact ⟨v, hv, rest, ih.2 hr, by simpa using h⟩
      · simp at h

/-- The payload scan stops with the fault of the first byte it cannot read. -/
theorem readAux_fault {s : State} {n k : Nat} {pay : Bytes} (hl : pay.length < n)
    (hr : s.buf.readBytes (s.auxBase.toNat + k) pay.length = some pay)
    (hn : s.buf.read (s.auxBase.toNat + (k + pay.length)) = none) :
    readAux s n k = .fault (.unwrittenByte (s.auxBase.toNat + (k + pay.length))) := by
  induction pay generalizing n k with
  | nil =>
    obtain ⟨n, rfl⟩ : ∃ n', n = n' + 1 := ⟨n - 1, by simp at hl; omega⟩
    simp only [List.length_nil, Nat.add_zero] at hn ⊢
    simp [readAux, aux, State.memRead, hn]
  | cons v rest ih =>
    obtain ⟨n, rfl⟩ : ∃ n', n = n' + 1 := ⟨n - 1, by omega⟩
    simp only [List.length_cons, Memory.readBytes] at hl hr hn ⊢
    split at hr
    · rename_i v' rest' hv hrest
      simp only [Option.some.injEq, List.cons.injEq] at hr
      obtain ⟨rfl, rfl⟩ := hr
      have := ih (n := n) (k := k + 1) (by omega) (by rwa [← Nat.add_assoc])
        (by rwa [show k + 1 + rest'.length = k + (rest'.length + 1) by omega])
      rw [show k + 1 + rest'.length = k + (rest'.length + 1) by omega] at this
      simp [readAux, aux_eq_ok.2 hv, this]
    · simp at hr

theorem readAux_not_raised {s : State} {n k : Nat} {e : ErrorKind} {p : Word} : readAux s n k ≠ .raised e p := by
  induction n generalizing k with
  | zero => simp [readAux]
  | succ n ih => simp [readAux, Run.andThen_eq_raised, aux_not_raised, ih]

/-! ### RLE_DEC -/

theorem repeatBytes_numberOf_nil (p : Bytes) : repeatBytes p (numberOf []) = [] := by
  simp [repeatBytes_eq, numberOf]

/-- RLE_DEC descends along a word through inner nodes. -/
theorem rleDecScan_descend {s : State} (hp : ∀ w d, s.trie.has (w ++ [d]) = true → s.trie.has w = true)
    {v w : List Digit} {fuel pos : Nat} {out : Bytes} (hh : s.trie.has (v ++ w) = true)
    (hl : w = [] ∨ s.trie.isLeaf (v ++ w) = false) (hr : Reads s pos (digitText w))
    (hn : pos + w.length ≤ s.srcLen.toNat) :
    rleDecScan s (w.length + fuel) { node := v, pos := pos, out := out } =
      rleDecScan s fuel { node := v ++ w, pos := pos + w.length, out := out } := by
  induction w generalizing v pos with
  | nil => simp
  | cons d rest ih =>
    rw [digitText_cons, reads_cons] at hr
    have hvd : s.trie.has (v ++ [d]) = true := Trie.has_prefix hp rest (by simpa using hh)
    have hinner : s.trie.isLeaf (v ++ [d]) = false := by
      cases rest with
      | nil => simpa using hl
      | cons d' rest' =>
        exact Trie.isLeaf_false_of_child _ _ d' (Trie.has_prefix hp rest' (by simpa using hh))
    simp only [List.length_cons] at hn
    have hlt : pos < s.srcLen.toNat := by omega
    rw [List.length_cons, show rest.length + 1 + fuel = (rest.length + fuel) + 1 by omega]
    simp only [rleDecScan, hlt, if_true, hr.1, Run.andThen_ok, digitOf_digitChar, hvd, rleDescend, hinner,
      Bool.false_eq_true, if_false]
    rw [ih (by simpa using hh) (by
      cases rest with
      | nil => exact .inl rfl
      | cons d' rest' => exact .inr (by simpa using hl)) hr.2 (by omega)]
    simp [Nat.add_assoc, Nat.add_comm 1]

/-- RLE_DEC reads a word that leads from the root to a leaf: the payload is appended, and the walk restarts. -/
theorem rleDecScan_leaf {s : State} (hp : ∀ w d, s.trie.has (w ++ [d]) = true → s.trie.has w = true)
    {w : List Digit} {p : Bytes} {fuel pos : Nat} {out : Bytes} (hne : w ≠ []) (hh : s.trie.has w = true)
    (hl : s.trie.isLeaf w = true) (hpay : s.trie.payload w = some p) (hr : Reads s pos (digitText w))
    (hn : pos + w.length ≤ s.srcLen.toNat) :
    rleDecScan s (w.length + fuel) { node := [], pos := pos, out := out } =
      (append s.dstCap.toNat out p (pos + (w.length - 1))).andThen fun out' =>
        rleDecScan s fuel { node := [], pos := pos + w.length, out := out' } := by
  obtain ⟨v, d, rfl⟩ : ∃ v d, w = v ++ [d] :=
    ⟨w.dropLast, w.getLast hne, (List.dropLast_append_getLast hne).symm⟩
  rw [digitText_append, reads_append, digitText_length, digitText_cons, reads_cons] at hr
  simp only [List.length_append, List.length_singleton] at hn ⊢
  have hlt : pos + v.length < s.srcLen.toNat := by omega
  rw [show v.length + 1 + fuel = v.length + (fuel + 1) by omega]
  rw [rleDecScan_descend hp (by simpa using hp _ _ hh)
    (by
      cases v with
      | nil => exact .inl rfl
      | cons => exact .inr (by simpa using Trie.isLeaf_false_of_child _ _ _ hh)) hr.1 (by omega)]
  simp only [List.nil_append, rleDecScan, hlt, if_true, hr.2.1, Run.andThen_ok, digitOf_digitChar, hh, rleDescend,
    hl, hpay, Nat.add_sub_cancel]
  cases append s.dstCap.toNat out p (pos + v.length) <;> simp [Nat.add_assoc]

/-- RLE_DEC reads a sequence of leaves whose payloads fit. -/
theorem rleDecScan_leaves {s : State} (hp : ∀ w d, s.trie.has (w ++ [d]) = true → s.trie.has w = true)
    {leaves : List (List Digit × Bytes)} {fuel pos : Nat} {out : Bytes} (hl : leafWords s.trie leaves = true)
    (hr : Reads s pos (digitText (leaves.flatMap (fun e => e.1))))
    (hn : pos + (leaves.flatMap (fun e => e.1)).length ≤ s.srcLen.toNat)
    (hf : out.length + (leaves.flatMap (fun e => e.2)).length ≤ s.dstCap.toNat) :
    rleDecScan s ((leaves.flatMap (fun e => e.1)).length + fuel) { node := [], pos := pos, out := out } =
      rleDecScan s fuel
        { node := [], pos := pos + (leaves.flatMap (fun e => e.1)).length,
          out := out ++ leaves.flatMap (fun e => e.2) } := by
  induction leaves generalizing pos out with
  | nil => simp
  | cons e rest ih =>
    simp only [leafWords, List.all_cons, Bool.and_eq_true, Bool.not_eq_true', List.isEmpty_eq_false_iff,
      decide_eq_true_eq] at hl
    obtain ⟨⟨⟨⟨h1, h2⟩, h3⟩, h4⟩, h5⟩ := hl
    simp only [List.flatMap_cons, digitText_append, reads_append, digitText_length, List.length_append] at hr hn hf
    rw [List.flatMap_cons, List.length_append, Nat.add_assoc,
      rleDecScan_leaf hp h1 h2 h3 h4 hr.1 (by omega), append_ok (by omega), Run.andThen_ok,
      ih h5 hr.2 (by omega) (by simp only [List.length_append]; omega)]
    simp [Nat.add_assoc]

/-- The digits of a count are read one by one. -/
theorem countRun_prefix {s : State} {ds : List Digit} {k j cnt : Nat} (hr : Reads s j (digitText ds)) :
    countRun s (ds.length + k) j cnt =
      countRun s k (j + ds.length) (ds.foldl (fun n d => 10 * n + d.val) cnt) := by
  induction ds generalizing j cnt with
  | nil => simp
  | cons d rest ih =>
    rw [digitText_cons, reads_cons] at hr
    rw [List.length_cons, show rest.length + 1 + k = (rest.length + k) + 1 by omega]
    simp only [countRun, hr.1, Run.andThen_ok, digitOf_digitChar, ih hr.2, List.foldl_cons]
    rw [show j + 1 + rest.length = j + (rest.length + 1) by omega]

/-- `e` is where a count ends: at the end of the input, or at a byte of it that is no digit (R112). -/
def CountEnd (s : State) (e : Nat) : Prop :=
  e = s.srcLen.toNat ∨ (e < s.srcLen.toNat ∧ ∃ c, src s e = .ok c ∧ digitOf c = none)

/-- A run of digits up to the end of the input, or up to a byte that is no digit, is read as one number. -/
theorem countRun_digits {s : State} {ds : List Digit} {j cnt : Nat} (hr : Reads s j (digitText ds))
    (he : CountEnd s (j + ds.length)) :
    countRun s (s.srcLen.toNat - j) j cnt = .ok (ds.foldl (fun n d => 10 * n + d.val) cnt, j + ds.length) := by
  rcases he with he | ⟨hlt, c, hc, hd⟩
  · rw [show s.srcLen.toNat - j = ds.length + 0 by omega, countRun_prefix hr]; rfl
  · obtain ⟨k, hk⟩ : ∃ k, s.srcLen.toNat - j = ds.length + (k + 1) := ⟨s.srcLen.toNat - j - ds.length - 1, by omega⟩
    rw [hk, countRun_prefix hr]
    simp [countRun, hc, hd]

/-- RLE_DEC expands a count, and goes on where it ends. -/
theorem rleDecScan_count {s : State} {w : List Digit} {d : Digit} {ds : List Digit} {fuel pos : Nat} {out : Bytes}
    (hno : s.trie.has (w ++ [d]) = false) (hr : Reads s pos (digitText (d :: ds)))
    (he : CountEnd s (pos + (d :: ds).length)) :
    rleDecScan s (fuel + 1) { node := w, pos := pos, out := out } =
      match s.trie.payload w with
      | none => .raised .invalidCountContext (wordOf pos)
      | some p =>
        (append s.dstCap.toNat out (repeatBytes p (numberOf (d :: ds))) pos).andThen fun out' =>
          rleDecScan s fuel { node := [], pos := pos + (d :: ds).length, out := out' } := by
  have hc := countRun_digits (cnt := 0) hr he
  rw [digitText_cons, reads_cons] at hr
  have hlt : pos < s.srcLen.toNat := by
    rcases he with he | ⟨he, -⟩ <;> simp only [List.length_cons] at he <;> omega
  simp only [rleDecScan, hlt, if_true, hr.1, Run.andThen_ok, digitOf_digitChar, hno, Bool.false_eq_true, if_false,
    rleExpand, hc, appendRepeat_eq]
  cases s.trie.payload w with
  | none => rfl
  | some p =>
    simp only [numberOf]
    cases append s.dstCap.toNat out (repeatBytes p ((d :: ds).foldl (fun n d => 10 * n + d.val) 0)) pos <;> rfl

/-- RLE_DEC stops at the end of its input. -/
theorem rleDecScan_end {s : State} {fuel : Nat} {w : RleWalk} (h : s.srcLen.toNat ≤ w.pos) :
    rleDecScan s fuel w = .ok w := by
  cases fuel with
  | zero => rfl
  | succ f => simp [rleDecScan, Nat.not_lt.2 h]

/-- The scan of a digit text the two-mode walk decodes gives the walk's output. -/
theorem rleDecScan_decodes {s : State} (hp : ∀ w d, s.trie.has (w ++ [d]) = true → s.trie.has w = true)
    {ds : List Digit} {o : Bytes} (hd : RleDecodes s.trie ds o) {pos : Nat} {out : Bytes}
    (hr : Reads s pos (digitText ds)) (hn : pos + ds.length = s.srcLen.toNat)
    (hf : out.length + o.length ≤ s.dstCap.toNat) :
    ((rleDecScan s ds.length { node := [], pos := pos, out := out }).andThen fun w => rleDecEnd s w) =
      .ok (out ++ o) := by
  induction hd generalizing pos out with
  | done => simp [rleDecScan, rleDecEnd]
  | leaf w p rest o h1 h2 h3 h4 h5 ih =>
    simp only [digitText_append, reads_append, digitText_length, List.length_append] at hr hn hf
    rw [List.length_append, rleDecScan_leaf hp h1 h2 h3 h4 hr.1 (by omega), append_ok (by omega), Run.andThen_ok,
      ih hr.2 (by omega) (by simp only [List.length_append]; omega), List.append_assoc]
  | inner w p h1 h2 h3 h4 =>
    have := rleDecScan_descend (fuel := 0) (v := []) (out := out) hp (by simpa using h2)
      (.inr (by simpa using h3)) hr (by omega)
    simp only [Nat.add_zero, List.nil_append] at this
    rw [this]
    simp [rleDecScan, rleDecEnd, h1, h4, append_ok hf]
  | count w p d ds h1 h2 h3 h4 =>
    simp only [digitText_append, reads_append, digitText_length, List.length_append] at hr hn
    have hstep := rleDecScan_descend (fuel := (d :: ds).length) (v := []) (out := out) hp (by simpa using h1)
      (by simpa using h2) hr.1 (by omega)
    rw [List.length_append, hstep, List.nil_append, List.length_cons,
      rleDecScan_count h3 hr.2 (.inl (by simp at hn ⊢; omega)), h4]
    simp only
    rw [append_ok hf, Run.andThen_ok, rleDecScan_end (by simp at hn ⊢; omega)]
    simp [rleDecEnd]

/-- Everything a run of digits can be read as. -/
theorem countRun_eq_ok {s : State} {k j cnt c' e : Nat} (h : countRun s k j cnt = .ok (c', e)) :
    ∃ ds : List Digit, Reads s j (digitText ds) ∧ j + ds.length = e ∧ e ≤ j + k ∧
      c' = ds.foldl (fun n d => 10 * n + d.val) cnt ∧
      (e < j + k → ∃ b, src s e = .ok b ∧ digitOf b = none) := by
  induction k generalizing j cnt with
  | zero =>
    simp only [countRun, Run.ok.injEq, Prod.mk.injEq] at h
    obtain ⟨rfl, rfl⟩ := h
    exact ⟨[], reads_nil s j, rfl, by simp, rfl, by simp⟩
  | succ k ih =>
    simp only [countRun, Run.andThen_eq_ok] at h
    obtain ⟨b, hb, h⟩ := h
    split at h
    · rename_i hnone
      simp only [Run.ok.injEq, Prod.mk.injEq] at h
      obtain ⟨rfl, rfl⟩ := h
      exact ⟨[], reads_nil s j, rfl, by omega, rfl, fun _ => ⟨b, hb, hnone⟩⟩
    · rename_i d hd
      obtain ⟨ds, h1, h2, h3, h4, h5⟩ := ih h
      refine ⟨d :: ds, ?_, by simp; omega, by omega, by simpa using h4, fun he => h5 (by omega)⟩
      rw [digitText_cons, reads_cons, ← digitOf_eq_some.1 hd]
      exact ⟨hb, h1⟩

theorem rleDecodes_nil {t : Trie} {o : Bytes} (h : RleDecodes t [] o) : o = [] := by
  generalize hds : ([] : List Digit) = ds at h
  cases h with
  | done => rfl
  | leaf w p rest o h1 => exact absurd (List.append_eq_nil_iff.1 hds.symm).1 h1
  | inner w p h1 => exact absurd hds.symm h1
  | count w p d ds => exact absurd (List.append_eq_nil_iff.1 hds.symm).2 (List.cons_ne_nil _ _)

/-- Everything the end of RLE_DEC can answer with an output for. -/
theorem rleDecEnd_eq_ok {s : State} {v : List Digit} {pos : Nat} {out o : Bytes}
    (hv : v = [] ∨ (s.trie.has v = true ∧ s.trie.isLeaf v = false)) (ho : out.length ≤ s.dstCap.toNat)
    (h : rleDecEnd s { node := v, pos := pos, out := out } = .ok o) :
    ∃ o2, RleDecodes s.trie v o2 ∧ o = out ++ o2 ∧ o.length ≤ s.dstCap.toNat := by
  simp only [rleDecEnd] at h
  split at h
  · rename_i hve
    obtain rfl : v = [] := by simpa using hve
    simp only [Run.ok.injEq] at h
    subst h
    exact ⟨[], .done, by simp, ho⟩
  · rename_i hve
    have hve : v ≠ [] := by simpa using hve
    obtain ⟨hhas, hleaf⟩ := hv.resolve_left hve
    split at h
    · simp at h
    · rename_i p hp
      obtain ⟨hfit, rfl⟩ := append_eq_ok.1 h
      exact ⟨p, .inner v p hve hhas hleaf hp, rfl, by simpa using hfit⟩

/-- Everything RLE_DEC's scan and end can answer with an output for. -/
theorem rleDecScan_eq_ok {s : State} (h0 : s.trie.has [] = true) {fuel pos : Nat} {v : List Digit} {out o : Bytes}
    (hv : v = [] ∨ (s.trie.has v = true ∧ s.trie.isLeaf v = false)) (hpos : pos ≤ s.srcLen.toNat)
    (hfuel : s.srcLen.toNat - pos ≤ fuel) (ho : out.length ≤ s.dstCap.toNat)
    (h : ((rleDecScan s fuel { node := v, pos := pos, out := out }).andThen fun w => rleDecEnd s w) = .ok o) :
    ∃ ds o2, Reads s pos (digitText ds) ∧ pos + ds.length = s.srcLen.toNat ∧ RleDecodes s.trie (v ++ ds) o2 ∧
      o = out ++ o2 ∧ o.length ≤ s.dstCap.toNat := by
  induction fuel generalizing pos v out with
  | zero =>
    obtain ⟨o2, h1, h2, h3⟩ := rleDecEnd_eq_ok hv ho h
    exact ⟨[], o2, reads_nil s pos, by simp; omega, by simpa using h1, h2, h3⟩
  | succ fuel ih =>
    by_cases hlt : pos < s.srcLen.toNat
    · simp only [rleDecScan, hlt, if_true] at h
      obtain ⟨w, hw, h⟩ := Run.andThen_eq_ok.1 h
      obtain ⟨c, hc, hw⟩ := Run.andThen_eq_ok.1 hw
      split at hw
      · simp at hw
      rename_i d hd
      have hread : ∀ ds, Reads s (pos + 1) (digitText ds) → Reads s pos (digitText (d :: ds)) := fun ds hds => by
        rw [digitText_cons, reads_cons, ← digitOf_eq_some.1 hd]; exact ⟨hc, hds⟩
      obtain ⟨w1, h1, hw⟩ := Run.andThen_eq_ok.1 hw
      have hcont : ((rleDecScan s fuel w1).andThen fun w => rleDecEnd s w) = .ok o :=
        Run.andThen_eq_ok.2 ⟨w, hw, h⟩
      split at h1
      · rename_i hhas
        simp only [rleDescend] at h1
        split at h1
        · rename_i hleaf
          split at h1
          · simp at h1
          rename_i p hp
          obtain ⟨o1, ha, h1⟩ := Run.andThen_eq_ok.1 h1
          obtain ⟨hfit, rfl⟩ := append_eq_ok.1 ha
          simp only [Run.ok.injEq] at h1
          subst h1
          obtain ⟨ds, o2, r1, r2, r3, r4, r5⟩ := ih (v := []) (pos := pos + 1) (.inl rfl) (by omega) (by omega)
            (by simpa using hfit) hcont
          refine ⟨d :: ds, p ++ o2, hread ds r1, by simp; omega, ?_, by simp [r4], r5⟩
          have := RleDecodes.leaf (v ++ [d]) p ds o2 (by simp) hhas hleaf hp (by simpa using r3)
          simpa using this
        · rename_i hleaf
          simp only [Run.ok.injEq] at h1
          subst h1
          obtain ⟨ds, o2, r1, r2, r3, r4, r5⟩ := ih (v := v ++ [d]) (pos := pos + 1)
            (.inr ⟨hhas, by simpa using hleaf⟩) (by omega) (by omega) ho hcont
          exact ⟨d :: ds, o2, hread ds r1, by simp; omega, by simpa using r3, r4, r5⟩
      · rename_i hhas
        simp only [rleExpand] at h1
        obtain ⟨⟨cnt, e⟩, hcr, h1⟩ := Run.andThen_eq_ok.1 h1
        split at h1
        · simp at h1
        rename_i p hp
        obtain ⟨o1, ha, h1⟩ := Run.andThen_eq_ok.1 h1
        rw [appendRepeat_eq] at ha
        obtain ⟨hfit, rfl⟩ := append_eq_ok.1 ha
        simp only [Run.ok.injEq] at h1
        subst h1
        obtain ⟨cs, c1, c2, c3, c4, c5⟩ := countRun_eq_ok hcr
        cases cs with
        | nil =>
          simp only [List.length_nil, Nat.add_zero] at c2
          subst c2
          obtain ⟨b, hb, hn⟩ := c5 (by omega)
          simp_all
        | cons d' ds =>
          simp only [List.length_cons] at c2
          obtain ⟨ds', o2, r1, r2, r3, r4, r5⟩ := ih (v := []) (pos := e) (.inl rfl) (by omega) (by omega)
            (by simpa using hfit) hcont
          have hds' : ds' = [] := by
            cases ds' with
            | nil => rfl
            | cons d2 ds2 =>
              rw [digitText_cons, reads_cons] at r1
              obtain ⟨b, hb, hn⟩ := c5 (by simp at r2; omega)
              rw [r1.1] at hb
              simp only [Run.ok.injEq] at hb
              subst hb
              simp [digitOf_digitChar] at hn
          subst hds'
          have ho2 := rleDecodes_nil r3
          subst ho2
          have hdd : d' = d := by
            rw [digitText_cons, reads_cons, hc] at c1
            have := c1.1
            simp only [Run.ok.injEq] at this
            rw [this, digitOf_digitChar] at hd
            simpa using hd
          subst hdd
          simp only [List.length_nil, Nat.add_zero] at r2
          refine ⟨d' :: ds, repeatBytes p (numberOf (d' :: ds)), c1, by simp; omega, ?_, ?_, r5⟩
          · refine .count v p d' ds ?_ ?_ (by simpa using hhas) hp
            · rcases hv with rfl | hv
              · exact h0
              · exact hv.1
            · exact hv.imp id (·.2)
          · rw [r4, c4]; simp [numberOf]
    · rw [rleDecScan_end (by simpa using hlt), Run.andThen_ok] at h
      obtain ⟨o2, h1, h2, h3⟩ := rleDecEnd_eq_ok hv ho h
      exact ⟨[], o2, reads_nil s pos, by simp; omega, by simpa using h1, h2, h3⟩

/-- The output of RLE_DEC never outgrows DST. -/
theorem rleDecScan_length {s : State} {fuel : Nat} {w w' : RleWalk} (ho : w.out.length ≤ s.dstCap.toNat)
    (h : rleDecScan s fuel w = .ok w') : w'.out.length ≤ s.dstCap.toNat := by
  induction fuel generalizing w with
  | zero => simp only [rleDecScan, Run.ok.injEq] at h; subst h; exact ho
  | succ fuel ih =>
    simp only [rleDecScan] at h
    split at h
    · obtain ⟨c, -, h⟩ := Run.andThen_eq_ok.1 h
      split at h
      · simp at h
      obtain ⟨w1, h1, h⟩ := Run.andThen_eq_ok.1 h
      refine ih ?_ h
      split at h1
      · simp only [rleDescend] at h1
        split at h1
        · split at h1
          · simp at h1
          obtain ⟨o1, ha, h1⟩ := Run.andThen_eq_ok.1 h1
          obtain ⟨hfit, rfl⟩ := append_eq_ok.1 ha
          simp only [Run.ok.injEq] at h1
          subst h1
          simpa using hfit
        · simp only [Run.ok.injEq] at h1
          subst h1
          exact ho
      · simp only [rleExpand] at h1
        obtain ⟨⟨cnt, e⟩, -, h1⟩ := Run.andThen_eq_ok.1 h1
        split at h1
        · simp at h1
        obtain ⟨o1, ha, h1⟩ := Run.andThen_eq_ok.1 h1
        rw [appendRepeat_eq] at ha
        obtain ⟨hfit, rfl⟩ := append_eq_ok.1 ha
        simp only [Run.ok.injEq] at h1
        subst h1
        simpa using hfit
    · simp only [Run.ok.injEq] at h; subst h; exact ho

theorem rleDecOutput_length {s : State} {fuel : Nat} {w w' : RleWalk} {out : Bytes}
    (ho : w.out.length ≤ s.dstCap.toNat) (h : rleDecScan s fuel w = .ok w') (he : rleDecEnd s w' = .ok out) :
    out.length ≤ s.dstCap.toNat := by
  have hl := rleDecScan_length ho h
  simp only [rleDecEnd] at he
  split at he
  · simp only [Run.ok.injEq] at he; subst he; exact hl
  · split at he
    · simp at he
    · obtain ⟨hfit, rfl⟩ := append_eq_ok.1 he
      simpa using hfit

end Sys2Proof.Machine
end

