-- ==== Sys2Proof/Laws/Scan.lean ====
section
/-! SUPPORT. What each scan of a command does with the bytes it reads: over a prefix it can follow, and at its end. -/

namespace Sys2Proof.Machine

@[simp] theorem bitText_nil : bitText [] = [] := rfl
@[simp] theorem bitText_cons (c : Code) (cs : List Code) : bitText (c :: cs) = ascii c ++ bitText cs := rfl
@[simp] theorem bitText_append (cs ds : List Code) : bitText (cs ++ ds) = bitText cs ++ bitText ds := by
  simp [bitText]

/-- A bit-string as the ASCII text of all its bits. -/
theorem bitText_eq (cs : List Code) : bitText cs = ascii cs.flatten := by
  induction cs with
  | nil => rfl
  | cons c rest ih => simp [ih]

/-! ### CT_LOAD -/

/-- The characters of a code are read one by one. -/
theorem readCode_prefix {s : State} {i n : Nat} {code : Code} (h : Reads s i (ascii code)) :
    readCode s (code.length + n) i =
      (readCode s n (i + code.length)).andThen fun rest => .ok (code ++ rest) := by
  induction code generalizing i with
  | nil =>
    simp only [List.length_nil, Nat.zero_add, Nat.add_zero, List.nil_append]
    cases readCode s n i <;> rfl
  | cons b rest ih =>
    rw [ascii_cons, reads_cons] at h
    rw [List.length_cons, show rest.length + 1 + n = (rest.length + n) + 1 by omega, readCode, h.1,
      Run.andThen_ok, bitOf_ascii, show i + (rest.length + 1) = i + 1 + rest.length by omega]
    simp only [ih h.2]
    cases readCode s n (i + 1 + rest.length) <;> rfl

/-- Everything CT_LOAD's scan can answer with a code for. -/
theorem readCode_eq_ok {s : State} {n i : Nat} {code : Code} :
    readCode s n i = .ok code ↔ code.length = n ∧ Reads s i (ascii code) := by
  constructor
  · intro h
    induction n generalizing i code with
    | zero => simp only [readCode, Run.ok.injEq] at h; subst h; exact ⟨rfl, reads_nil s i⟩
    | succ n ih =>
      simp only [readCode, Run.andThen_eq_ok] at h
      obtain ⟨c, hc, h⟩ := h
      split at h
      · simp at h
      · rename_i b hb
        obtain ⟨rest, hr, h⟩ := Run.andThen_eq_ok.1 h
        simp only [Run.ok.injEq] at h
        subst h
        obtain ⟨hl, hrd⟩ := ih hr
        refine ⟨by simp [hl], ?_⟩
        rw [ascii_cons, reads_cons, ← bitOf_eq_some.1 hb]
        exact ⟨hc, hrd⟩
  · rintro ⟨rfl, h⟩
    have := readCode_prefix (n := 0) h
    simpa [readCode] using this

/-- The only error of CT_LOAD's scan. -/
theorem readCode_raised {s : State} {n i : Nat} {e : ErrorKind} {p : Word}
    (h : readCode s n i = .raised e p) : e = .malformedHuffmanInput := by
  induction n generalizing i with
  | zero => simp [readCode] at h
  | succ n ih =>
    simp only [readCode, Run.andThen_eq_raised, src_not_raised, false_or] at h
    obtain ⟨c, -, h⟩ := h
    split at h
    · simp_all
    · simp only [Run.andThen_eq_raised, reduceCtorEq, and_false, exists_false, or_false] at h
      exact ih h

/-! ### HUF_ENC -/

/-- HUF_ENC follows a prefix whose bytes have codes that fit. -/
theorem hufEncScan_prefix {s : State} {i n : Nat} {pre : Bytes} {codes : List Code} {out : Bytes}
    (hr : Reads s i pre) (hc : pre.map (codeAt s.ct) = codes.map some)
    (hf : out.length + (bitText codes).length ≤ s.dstCap.toNat) :
    hufEncScan s (pre.length + n) i out = hufEncScan s n (i + pre.length) (out ++ bitText codes) := by
  induction pre generalizing i codes out with
  | nil =>
    have : codes = [] := by simpa using hc.symm
    subst this
    simp
  | cons b rest ih =>
    cases codes with
    | nil => simp at hc
    | cons c cs =>
      simp only [List.map_cons, List.cons.injEq] at hc
      simp only [bitText_cons, List.length_append] at hf
      rw [reads_cons] at hr
      rw [List.length_cons, show rest.length + 1 + n = (rest.length + n) + 1 by omega, hufEncScan, hr.1,
        Run.andThen_ok, hc.1]
      simp only
      rw [append_ok (by omega), Run.andThen_ok, ih hr.2 hc.2 (by simp only [List.length_append]; omega)]
      rw [bitText_cons, List.append_assoc, show i + 1 + rest.length = i + (rest.length + 1) by omega]

/-- Everything HUF_ENC's scan can answer with an output for. -/
theorem hufEncScan_eq_ok {s : State} {n i : Nat} {out out' : Bytes} (ho : out.length ≤ s.dstCap.toNat)
    (h : hufEncScan s n i out = .ok out') :
    ∃ str codes, str.length = n ∧ Reads s i str ∧ str.map (codeAt s.ct) = codes.map some ∧
      out' = out ++ bitText codes ∧ out'.length ≤ s.dstCap.toNat := by
  induction n generalizing i out with
  | zero =>
    simp only [hufEncScan, Run.ok.injEq] at h
    subst h
    exact ⟨[], [], rfl, reads_nil s i, rfl, by simp, ho⟩
  | succ n ih =>
    simp only [hufEncScan, Run.andThen_eq_ok] at h
    obtain ⟨b, hb, h⟩ := h
    split at h
    · simp at h
    · rename_i c hc
      obtain ⟨o, ha, h⟩ := Run.andThen_eq_ok.1 h
      obtain ⟨hfit, rfl⟩ := append_eq_ok.1 ha
      obtain ⟨str, codes, hl, hrd, hmap, rfl, hlen⟩ := ih (by simpa using hfit) h
      refine ⟨b :: str, c :: codes, by simp [hl], reads_cons.2 ⟨hb, hrd⟩, by simp [hc, hmap], by simp, ?_⟩
      simpa using hlen

/-! ### HUF_DEC -/

/-- A walk of at least one step starts at an internal node. -/
theorem treeWalk_cons_internal {tree : TreeMemory} {b : Bool} {rest : Code} {i j : BitVec 9}
    (h : treeWalk tree (b :: rest) i = some j) :
    ∃ l r c, nodeAt tree i = .internal l r ∧ (if b then r else l) = some c ∧ treeWalk tree rest c = some j := by
  simp only [treeWalk] at h
  cases hn : nodeAt tree i with
  | leaf sym => simp [hn] at h
  | internal l r =>
    simp only [hn] at h
    cases hc : (if b then r else l) with
    | none => simp [hc] at h
    | some c => exact ⟨l, r, c, rfl, hc, by simpa [hc] using h⟩

/-- HUF_DEC follows the bits of a path that ends on an internal node. -/
theorem hufDecScan_path {s : State} {i n : Nat} {part : Code} {node j : BitVec 9} {depth : Nat} {out : Bytes}
    (hv : s.treeRoot.valid = true) (hr : Reads s i (ascii part)) (hw : treeWalk s.tree part node = some j)
    (hj : part = [] ∨ ∃ l r, nodeAt s.tree j = .internal l r) :
    hufDecScan s (part.length + n) i { node := node, depth := depth, out := out } =
      hufDecScan s n (i + part.length) { node := j, depth := depth + part.length, out := out } := by
  induction part generalizing i node depth with
  | nil => simp only [treeWalk, Option.some.injEq] at hw; subst hw; simp
  | cons b rest ih =>
    obtain ⟨l, r, c, hn, hc, hw'⟩ := treeWalk_cons_internal hw
    have hci : ∃ l' r', nodeAt s.tree c = .internal l' r' := by
      cases rest with
      | nil =>
        simp only [treeWalk, Option.some.injEq] at hw'
        subst hw'
        simpa using hj
      | cons b' rest' =>
        obtain ⟨l', r', -, h', -⟩ := treeWalk_cons_internal hw'
        exact ⟨l', r', h'⟩
    have hj' : rest = [] ∨ ∃ l r, nodeAt s.tree j = .internal l r := by
      rcases hj with hj | hj
      · simp at hj
      · exact .inr hj
    obtain ⟨l', r', hci⟩ := hci
    rw [ascii_cons, reads_cons] at hr
    rw [List.length_cons, show rest.length + 1 + n = (rest.length + n) + 1 by omega, hufDecScan, hr.1,
      Run.andThen_ok, bitOf_ascii]
    simp only [hufDecBit, hv, hn, hc, hci, Bool.not_true, Bool.false_eq_true, if_false, Run.andThen_ok]
    rw [ih hr.2 hw' hj', show i + 1 + rest.length = i + (rest.length + 1) by omega,
      show depth + 1 + rest.length = depth + (rest.length + 1) by omega]

/-- HUF_DEC's step from an internal node into a leaf. -/
theorem hufDecBit_leaf {s : State} {i : Nat} {b : Bool} {node : BitVec 9} {depth : Nat} {out : Bytes}
    {l r : Option (BitVec 9)} {c : BitVec 9} {sym : Byte} (hv : s.treeRoot.valid = true)
    (hn : nodeAt s.tree node = .internal l r) (hc : (if b then r else l) = some c)
    (hl : nodeAt s.tree c = .leaf sym) :
    hufDecBit s i b { node := node, depth := depth, out := out } =
      (append s.dstCap.toNat out [sym] i).andThen fun out' =>
        .ok { node := s.treeRoot.idx, depth := 0, out := out' } := by
  simp only [hufDecBit, hv, hn, hc, hl, Bool.not_true, Bool.false_eq_true, if_false]

/-- A path to a leaf splits into a path to an internal node and one more step. -/
theorem treeWalk_split {tree : TreeMemory} {code : Code} {i k : BitVec 9} (hne : code ≠ [])
    (h : treeWalk tree code i = some k) :
    ∃ part b j l r, code = part ++ [b] ∧ treeWalk tree part i = some j ∧ nodeAt tree j = .internal l r ∧
      (if b then r else l) = some k := by
  induction code generalizing i with
  | nil => exact absurd rfl hne
  | cons b rest ih =>
    obtain ⟨l, r, c, hn, hc, hw⟩ := treeWalk_cons_internal h
    cases rest with
    | nil =>
      simp only [treeWalk, Option.some.injEq] at hw
      subst hw
      exact ⟨[], b, i, l, r, rfl, rfl, hn, hc⟩
    | cons b' rest' =>
      obtain ⟨part, b'', j, l', r', hcode, hpart, hj, hk⟩ := ih (by simp) hw
      refine ⟨b :: part, b'', j, l', r', by simp [hcode], ?_, hj, hk⟩
      simp [treeWalk, hn, hc, hpart]

/-- The walk along a concatenation. -/
theorem treeWalk_append {tree : TreeMemory} {a b : Code} {i : BitVec 9} :
    treeWalk tree (a ++ b) i = (treeWalk tree a i).bind (treeWalk tree b) := by
  induction a generalizing i with
  | nil => rfl
  | cons x rest ih =>
    simp only [List.cons_append, treeWalk]
    cases nodeAt tree i with
    | leaf => rfl
    | internal l r =>
      cases x
      · cases l <;> simp [ih]
      · cases r <;> simp [ih]

/-- What it is to be a codeword: the code "0" of a single leaf, or a path of at least one step to a leaf. -/
theorem isCodeword_iff {tree : TreeMemory} {r : BitVec 9} {code : Code} {sym : Byte} :
    isCodeword tree r code sym = true ↔
      (nodeAt tree r = .leaf sym ∧ code = [false]) ∨
      (code ≠ [] ∧ ∃ j, treeWalk tree code r = some j ∧ nodeAt tree j = .leaf sym) := by
  unfold isCodeword
  cases hn : nodeAt tree r with
  | leaf x =>
    simp only [decide_eq_true_eq]
    constructor
    · rintro ⟨rfl, rfl⟩; exact .inl ⟨rfl, rfl⟩
    · rintro (⟨h1, h2⟩ | ⟨h1, j, h2, h3⟩)
      · simp only [TreeNode.leaf.injEq] at h1; exact ⟨h2, h1.symm⟩
      · cases code with
        | nil => exact absurd rfl h1
        | cons b rest => simp [treeWalk, hn] at h2
  | internal l r' =>
    simp only [reduceCtorEq, false_and, false_or]
    cases code with
    | nil => simp [treeWalk, hn]
    | cons b rest =>
      cases hw : treeWalk tree (b :: rest) r with
      | none => simp
      | some j => simp

/-- HUF_DEC reads one codeword: its symbol is appended and the walk is back at the root. -/
theorem hufDecScan_codeword {s : State} {i n : Nat} {code : Code} {sym : Byte} {out : Bytes}
    (hv : s.treeRoot.valid = true) (hcw : isCodeword s.tree s.treeRoot.idx code sym = true)
    (hr : Reads s i (ascii code)) (hf : out.length + 1 ≤ s.dstCap.toNat) :
    hufDecScan s (code.length + n) i { node := s.treeRoot.idx, depth := 0, out := out } =
      hufDecScan s n (i + code.length) { node := s.treeRoot.idx, depth := 0, out := out ++ [sym] } := by
  rcases isCodeword_iff.1 hcw with ⟨hl, rfl⟩ | ⟨hne, k, hw, hk⟩
  · rw [ascii_cons, reads_cons] at hr
    rw [show [false].length + n = n + 1 by simp [Nat.add_comm], hufDecScan, hr.1, Run.andThen_ok, bitOf_ascii]
    simp only [hufDecBit, hv, hl, Bool.not_true, Bool.false_eq_true, if_false]
    rw [append_ok (by simpa using hf)]
    simp
  · obtain ⟨part, b, j, l, r, rfl, hpart, hj, hc⟩ := treeWalk_split hne hw
    rw [ascii_append, reads_append, ascii_length] at hr
    rw [List.length_append, Nat.add_assoc, hufDecScan_path hv hr.1 hpart (.inr ⟨l, r, hj⟩)]
    have h2 := hr.2
    rw [ascii_cons, reads_cons] at h2
    rw [show [b].length + n = n + 1 by simp [Nat.add_comm], hufDecScan, h2.1, Run.andThen_ok, bitOf_ascii]
    simp only
    rw [hufDecBit_leaf hv hj hc hk, append_ok (by simpa using hf)]
    simp [Nat.add_assoc]

/-- HUF_DEC reads a sequence of codewords. -/
theorem hufDecScan_codewords {s : State} {i n : Nat} {pairs : List (Code × Byte)} {out : Bytes}
    (hv : pairs = [] ∨ s.treeRoot.valid = true)
    (hcw : ∀ e ∈ pairs, isCodeword s.tree s.treeRoot.idx e.1 e.2 = true)
    (hr : Reads s i (bitText (pairs.map (fun e => e.1)))) (hf : out.length + pairs.length ≤ s.dstCap.toNat) :
    hufDecScan s ((bitText (pairs.map (fun e => e.1))).length + n) i
        { node := s.treeRoot.idx, depth := 0, out := out } =
      hufDecScan s n (i + (bitText (pairs.map (fun e => e.1))).length)
        { node := s.treeRoot.idx, depth := 0, out := out ++ pairs.map (fun e => e.2) } := by
  induction pairs generalizing i out with
  | nil => simp
  | cons e rest ih =>
    have hv' : s.treeRoot.valid = true := by simpa using hv
    simp only [List.map_cons, bitText_cons, reads_append, ascii_length, List.length_cons] at hr hf
    rw [List.map_cons, bitText_cons, List.length_append, ascii_length, Nat.add_assoc,
      hufDecScan_codeword hv' (hcw e (by simp)) hr.1 (by omega),
      ih (.inr hv') (fun x hx => hcw x (by simp [hx])) hr.2 (by simp; omega)]
    simp [Nat.add_assoc]

/-- Everything HUF_DEC's scan can answer with a walk for: the bits read so far are a sequence of codewords and a
path to the walk's node. -/
theorem hufDecScan_eq_ok {s : State} {n i : Nat} {part : Code} {node : BitVec 9} {out : Bytes} {w' : HufWalk}
    (hp : treeWalk s.tree part s.treeRoot.idx = some node)
    (hd : part = [] ∨ ∃ l r, nodeAt s.tree node = .internal l r)
    (h : hufDecScan s n i { node := node, depth := part.length, out := out } = .ok w') :
    ∃ (bits : Code) (pairs : List (Code × Byte)) (part' : Code), bits.length = n ∧ Reads s i (ascii bits) ∧
      part ++ bits = (pairs.map (fun e => e.1)).flatten ++ part' ∧
      (∀ e ∈ pairs, isCodeword s.tree s.treeRoot.idx e.1 e.2 = true) ∧
      w'.depth = part'.length ∧ w'.out = out ++ pairs.map (fun e => e.2) ∧
      (n = 0 ∨ s.treeRoot.valid = true) ∧
      (out.length ≤ s.dstCap.toNat → w'.out.length ≤ s.dstCap.toNat) := by
  induction n generalizing i part node out with
  | zero =>
    simp only [hufDecScan, Run.ok.injEq] at h
    subst h
    exact ⟨[], [], part, rfl, reads_nil s i, by simp, by simp, rfl, by simp, .inl rfl, id⟩
  | succ n ih =>
    simp only [hufDecScan, Run.andThen_eq_ok] at h
    obtain ⟨c, hc, h⟩ := h
    split at h
    · simp at h
    rename_i b hb
    obtain ⟨w1, h1, h⟩ := Run.andThen_eq_ok.1 h
    have hread : ∀ bits, Reads s (i + 1) (ascii bits) → Reads s i (ascii (b :: bits)) := fun bits hbits => by
      rw [ascii_cons, reads_cons, ← bitOf_eq_some.1 hb]; exact ⟨hc, hbits⟩
    simp only [hufDecBit] at h1
    split at h1
    · simp at h1
    rename_i hv
    have hv : s.treeRoot.valid = true := by simpa using hv
    split at h1
    · -- the single leaf
      rename_i sym hn
      have hpart : part = [] := by
        rcases hd with hd | ⟨l, r, hd⟩
        · exact hd
        · simp [hn] at hd
      subst hpart
      simp only [treeWalk, Option.some.injEq] at hp
      subst hp
      split at h1
      · simp at h1
      rename_i hbf
      have hbf : b = false := by simpa using hbf
      subst hbf
      obtain ⟨o, ha, h1⟩ := Run.andThen_eq_ok.1 h1
      obtain ⟨hfit, rfl⟩ := append_eq_ok.1 ha
      simp only [Run.ok.injEq] at h1
      subst h1
      obtain ⟨bits, pairs, part', hl, hrd, heq, hcw, hdep, hout, -, hcap⟩ :=
        ih (part := []) (node := s.treeRoot.idx) rfl (.inl rfl) h
      refine ⟨false :: bits, ([false], sym) :: pairs, part', by simp [hl], hread _ hrd, ?_, ?_, hdep, ?_,
        .inr hv, fun _ => hcap (by simpa using hfit)⟩
      · simpa using heq
      · intro e he
        rcases List.mem_cons.1 he with rfl | he
        · exact isCodeword_iff.2 (.inl ⟨hn, rfl⟩)
        · exact hcw e he
      · simp [hout]
    · rename_i l r hn
      split at h1
      · simp at h1
      rename_i child hchild
      have hwalk : treeWalk s.tree (part ++ [b]) s.treeRoot.idx = some child := by
        rw [treeWalk_append, hp, Option.bind_some]
        simp [treeWalk, hn, hchild]
      split at h1
      · rename_i sym hleaf
        obtain ⟨o, ha, h1⟩ := Run.andThen_eq_ok.1 h1
        obtain ⟨hfit, rfl⟩ := append_eq_ok.1 ha
        simp only [Run.ok.injEq] at h1
        subst h1
        obtain ⟨bits, pairs, part', hl, hrd, heq, hcw, hdep, hout, -, hcap⟩ :=
          ih (part := []) (node := s.treeRoot.idx) rfl (.inl rfl) h
        refine ⟨b :: bits, (part ++ [b], sym) :: pairs, part', by simp [hl], hread _ hrd, ?_, ?_, hdep, ?_,
          .inr hv, fun _ => hcap (by simpa using hfit)⟩
        · simpa using heq
        · intro e he
          rcases List.mem_cons.1 he with rfl | he
          · exact isCodeword_iff.2 (.inr ⟨by simp, child, hwalk, hleaf⟩)
          · exact hcw e he
        · simp [hout]
      · rename_i l' r' hint
        simp only [Run.ok.injEq] at h1
        subst h1
        obtain ⟨bits, pairs, part', hl, hrd, heq, hcw, hdep, hout, -, hcap⟩ :=
          ih (part := part ++ [b]) (node := child) hwalk (.inr ⟨l', r', hint⟩) (by simpa using h)
        exact ⟨b :: bits, pairs, part', by simp [hl], hread _ hrd, by simpa using heq, hcw, hdep, hout,
          .inr hv, hcap⟩

end Sys2Proof.Machine
end

