-- ==== Sys2Proof/Laws/Tree.lean ====
section
/-! SUPPORT. Trees, their paths, and what the walk of GEN_CODES makes of them. -/

namespace Sys2Proof.Machine

/-! ### The code table -/

@[simp] theorem codeAt_setCode (t : CodeTable) (x y : Byte) (c : Option Code) :
    codeAt (setCode t x c) y = if y = x then c else codeAt t y := by
  simp only [codeAt, setCode, Vector.getElem_set]
  by_cases h : y = x
  · simp [h]
  · have : x.toNat ≠ y.toNat := fun e => h (BitVec.eq_of_toNat_eq e.symm)
    simp [h, this]

@[simp] theorem codeAt_empty (x : Byte) : codeAt emptyCodeTable x = none :=
  Vector.getElem_replicate x.isLt

@[simp] theorem codeCount_empty : codeCount emptyCodeTable = 0 := by
  rw [codeCount, emptyCodeTable, Vector.toList_replicate, List.countP_replicate]
  rfl

/-- A code set at an entry that has none adds one entry. -/
theorem codeCount_setCode {t : CodeTable} {x : Byte} {c : Code} (h : codeAt t x = none) :
    codeCount (setCode t x (some c)) = codeCount t + 1 := by
  have hx : x.toNat < t.toList.length := by simpa using x.isLt
  have h' : t.toList[x.toNat] = none := by simpa [codeAt] using h
  simp only [codeCount, setCode, Vector.toList_set]
  rw [List.countP_set (h := hx)]
  simp [h']

/-! ### Trees -/

theorem HuffTree.symbols_pos (t : HuffTree) : 1 ≤ t.symbols.length := by
  induction t with
  | leaf s => simp [HuffTree.symbols]
  | node l r ihl ihr => simp only [HuffTree.symbols, List.length_append]; omega

/-- A full binary tree of N leaves is at most N - 1 deep. -/
theorem HuffTree.depth_lt (t : HuffTree) : HuffTree.depth t < t.symbols.length := by
  induction t with
  | leaf s => simp [HuffTree.symbols, HuffTree.depth]
  | node l r ihl ihr =>
    have := HuffTree.symbols_pos l
    have := HuffTree.symbols_pos r
    simp only [HuffTree.symbols, HuffTree.depth, List.length_append]; omega

/-- There are at most 256 distinct symbols. -/
theorem symbols_length_le {l : List Byte} (h : l.Nodup) : l.length ≤ 256 := by
  have := (h.map (f := BitVec.toFin) fun a b e => BitVec.eq_of_toFin_eq e).length_le_card
  rwa [List.length_map, Fintype.card_fin] at this

theorem HuffTree.paths_fst (t : HuffTree) : t.paths.map Prod.fst = t.symbols := by
  induction t with
  | leaf s => rfl
  | node l r ihl ihr => simp [HuffTree.paths, HuffTree.symbols, ← ihl, ← ihr, Function.comp_def]

theorem HuffTree.path_length_le {t : HuffTree} {x : Byte} {c : Code} (h : (x, c) ∈ t.paths) :
    c.length ≤ HuffTree.depth t := by
  induction t generalizing c with
  | leaf s => simp only [HuffTree.paths, List.mem_singleton, Prod.mk.injEq] at h; simp [h.2]
  | node l r ihl ihr =>
    simp only [HuffTree.paths, List.mem_append, List.mem_map, Prod.mk.injEq, Prod.exists] at h
    rcases h with ⟨y, d, hm, rfl, rfl⟩ | ⟨y, d, hm, rfl, rfl⟩
    · have := ihl hm; simp only [HuffTree.depth, List.length_cons]; omega
    · have := ihr hm; simp only [HuffTree.depth, List.length_cons]; omega

/-- The paths to two leaves are never one a prefix of the other. -/
theorem HuffTree.paths_prefix_free {t : HuffTree} {x y : Byte} {c d : Code} (hx : (x, c) ∈ t.paths)
    (hy : (y, d) ∈ t.paths) (hne : x ≠ y) : ¬ c <+: d := by
  induction t generalizing c d with
  | leaf s => simp only [HuffTree.paths, List.mem_singleton, Prod.mk.injEq] at hx hy; exact absurd (hx.1.trans hy.1.symm) hne
  | node l r ihl ihr =>
    simp only [HuffTree.paths, List.mem_append, List.mem_map, Prod.mk.injEq, Prod.exists] at hx hy
    rcases hx with ⟨_, c', hx, rfl, rfl⟩ | ⟨_, c', hx, rfl, rfl⟩ <;>
      rcases hy with ⟨_, d', hy, rfl, rfl⟩ | ⟨_, d', hy, rfl, rfl⟩
    · rw [List.cons_prefix_cons]; exact fun h => ihl hx hy h.2
    · rw [List.cons_prefix_cons]; simp
    · rw [List.cons_prefix_cons]; simp
    · rw [List.cons_prefix_cons]; exact fun h => ihr hx hy h.2

theorem lookup_eq_some_mem {l : List (Byte × Code)} {x : Byte} {c : Code} (h : l.lookup x = some c) :
    (x, c) ∈ l := by
  induction l with
  | nil => simp at h
  | cons e rest ih =>
    obtain ⟨y, d⟩ := e
    by_cases hxy : x = y
    · subst hxy; simp at h; simp [h]
    · have : (x == y) = false := by simpa using hxy
      simp only [List.lookup, this] at h
      exact List.mem_cons_of_mem _ (ih h)

theorem lookup_of_mem {l : List (Byte × Code)} (hn : (l.map Prod.fst).Nodup) {x : Byte} {c : Code}
    (h : (x, c) ∈ l) : l.lookup x = some c := by
  induction l with
  | nil => simp at h
  | cons e rest ih =>
    obtain ⟨y, d⟩ := e
    simp only [List.map_cons, List.nodup_cons] at hn
    rcases List.mem_cons.1 h with h1 | h1
    · simp only [Prod.mk.injEq] at h1
      obtain ⟨rfl, rfl⟩ := h1
      simp
    · have hxy : x ≠ y := by
        rintro rfl
        exact hn.1 (List.mem_map_of_mem (f := Prod.fst) h1)
      have : (x == y) = false := by simpa using hxy
      simp only [List.lookup, this]
      exact ih hn.2 h1

/-- With distinct symbols, looking a symbol up finds exactly its path. -/
theorem HuffTree.lookup_paths {t : HuffTree} (hn : t.symbols.Nodup) {x : Byte} {c : Code} :
    t.paths.lookup x = some c ↔ (x, c) ∈ t.paths :=
  ⟨lookup_eq_some_mem, lookup_of_mem (by rwa [HuffTree.paths_fst])⟩

theorem HuffTree.mem_symbols_iff {t : HuffTree} {x : Byte} : x ∈ t.symbols ↔ ∃ c, (x, c) ∈ t.paths := by
  rw [← HuffTree.paths_fst]; simp

theorem holdsTree_leaf {tree : TreeMemory} {sym : Byte} {i : BitVec 9} :
    holdsTree tree (.leaf sym) i = true ↔ nodeAt tree i = .leaf sym := by simp [holdsTree]

theorem holdsTree_node {tree : TreeMemory} {l r : HuffTree} {i : BitVec 9} :
    holdsTree tree (.node l r) i = true ↔
      ∃ a b, nodeAt tree i = .internal (some a) (some b) ∧ holdsTree tree l a = true ∧ holdsTree tree r b = true := by
  simp only [holdsTree]
  cases nodeAt tree i with
  | leaf => simp
  | internal x y => cases x <;> cases y <;> simp

/-- A path of a held tree is a walk to the leaf of its symbol. -/
theorem treeWalk_of_path {tree : TreeMemory} {t : HuffTree} {i : BitVec 9} (hh : holdsTree tree t i = true)
    {x : Byte} {c : Code} (h : (x, c) ∈ t.paths) :
    ∃ j, treeWalk tree c i = some j ∧ nodeAt tree j = .leaf x := by
  induction t generalizing i c with
  | leaf s =>
    simp only [HuffTree.paths, List.mem_singleton, Prod.mk.injEq] at h
    obtain ⟨rfl, rfl⟩ := h
    exact ⟨i, rfl, holdsTree_leaf.1 hh⟩
  | node l r ihl ihr =>
    obtain ⟨a, b, hn, hl, hr⟩ := holdsTree_node.1 hh
    simp only [HuffTree.paths, List.mem_append, List.mem_map, Prod.mk.injEq, Prod.exists] at h
    rcases h with ⟨_, c', hx, rfl, rfl⟩ | ⟨_, c', hx, rfl, rfl⟩
    · obtain ⟨j, hw, hj⟩ := ihl hl hx
      exact ⟨j, by simp [treeWalk, hn, hw], hj⟩
    · obtain ⟨j, hw, hj⟩ := ihr hr hx
      exact ⟨j, by simp [treeWalk, hn, hw], hj⟩

/-! ### The walk of GEN_CODES -/

/-- What a finished walk below a node leaves in the table: the paths of the tree it found, each behind the path to
the node, in entries that had no code; and every other entry as before. -/
def Walked (t t' : CodeTable) (path : Code) (tr : HuffTree) : Prop :=
  tr.symbols.Nodup ∧ (∀ x ∈ tr.symbols, codeAt t x = none) ∧
  (∀ x c, codeAt t' x = some c ↔ (∃ d, (x, d) ∈ tr.paths ∧ c = path ++ d) ∨ codeAt t x = some c) ∧
  codeCount t' = codeCount t + tr.symbols.length

theorem walked_leaf {t : CodeTable} {path : Code} {sym : Byte} (h : codeAt t sym = none) :
    Walked t (setCode t sym (some path)) path (.leaf sym) := by
  refine ⟨by simp [HuffTree.symbols], by simpa [HuffTree.symbols] using h, fun x c => ?_, ?_⟩
  · simp only [codeAt_setCode, HuffTree.paths, List.mem_singleton, Prod.mk.injEq]
    by_cases hx : x = sym
    · subst hx
      simp [h, eq_comm]
    · simp [hx]
  · simp [codeCount_setCode h, HuffTree.symbols]

theorem walked_node {t t1 t2 : CodeTable} {path : Code} {l r : HuffTree}
    (h1 : Walked t t1 (path ++ [false]) l) (h2 : Walked t1 t2 (path ++ [true]) r) :
    Walked t t2 path (.node l r) := by
  obtain ⟨n1, f1, e1, c1⟩ := h1
  obtain ⟨n2, f2, e2, c2⟩ := h2
  have hfr : ∀ x ∈ r.symbols, codeAt t x = none ∧ x ∉ l.symbols := by
    intro x hx
    have hn := f2 x hx
    constructor
    · cases hc : codeAt t x with
      | none => rfl
      | some c => rw [(e1 x c).2 (.inr hc)] at hn; simp at hn
    · intro hxl
      obtain ⟨d, hd⟩ := HuffTree.mem_symbols_iff.1 hxl
      rw [(e1 x _).2 (.inl ⟨d, hd, rfl⟩)] at hn
      simp at hn
  refine ⟨?_, ?_, ?_, ?_⟩
  · simp only [HuffTree.symbols]
    exact n1.append n2 fun x hl hr => (hfr x hr).2 hl
  · intro x hx
    rcases List.mem_append.1 hx with hx | hx
    · exact f1 x hx
    · exact (hfr x hx).1
  · intro x c
    simp only [e2, e1, HuffTree.paths, List.mem_append, List.mem_map, Prod.mk.injEq, Prod.exists]
    constructor
    · rintro (⟨d, hd, rfl⟩ | ⟨d, hd, rfl⟩ | h)
      · exact .inl ⟨true :: d, .inr ⟨x, d, hd, rfl, rfl⟩, by simp⟩
      · exact .inl ⟨false :: d, .inl ⟨x, d, hd, rfl, rfl⟩, by simp⟩
      · exact .inr h
    · rintro (⟨_, ⟨_, d, hd, rfl, rfl⟩ | ⟨_, d, hd, rfl, rfl⟩, rfl⟩ | h)
      · exact .inr (.inl ⟨d, hd, by simp⟩)
      · exact .inl ⟨d, hd, by simp⟩
      · exact .inr (.inr h)
  · simp only [HuffTree.symbols, List.length_append]; omega

/-- GEN_CODES walks a held tree that is not too deep and whose symbols are new. -/
theorem visit_of_tree {tree : TreeMemory} {tr : HuffTree} {d : Nat} {i : BitVec 9} {path : Code} {t : CodeTable}
    (hh : holdsTree tree tr i = true) (hd : HuffTree.depth tr ≤ d) (hn : tr.symbols.Nodup)
    (hf : ∀ x ∈ tr.symbols, codeAt t x = none) :
    ∃ t', visit tree d i path t = .ok t' ∧ Walked t t' path tr := by
  induction tr generalizing d i path t with
  | leaf sym =>
    have hs := hf sym (by simp [HuffTree.symbols])
    refine ⟨setCode t sym (some path), ?_, walked_leaf hs⟩
    unfold visit
    simp [holdsTree_leaf.1 hh, hs]
  | node l r ihl ihr =>
    obtain ⟨a, b, hnode, hl, hr⟩ := holdsTree_node.1 hh
    simp only [HuffTree.depth] at hd
    obtain ⟨d, rfl⟩ : ∃ d', d = d' + 1 := ⟨d - 1, by omega⟩
    simp only [HuffTree.symbols, List.nodup_append] at hn hf
    obtain ⟨hnl, hnr, hdisj⟩ := hn
    obtain ⟨t1, hv1, hw1⟩ := ihl (path := path ++ [false]) (t := t) hl (d := d) (by omega) hnl
      (fun x hx => hf x (by simp [hx]))
    obtain ⟨t2, hv2, hw2⟩ := ihr (path := path ++ [true]) (t := t1) hr (d := d) (by omega) hnr
      (fun x hx => by
        cases hc : codeAt t1 x with
        | none => rfl
        | some c =>
          rcases (hw1.2.2.1 x c).1 hc with ⟨e, he, -⟩ | h
          · exact absurd rfl (hdisj x (HuffTree.mem_symbols_iff.2 ⟨e, he⟩) x hx)
          · rw [hf x (by simp [hx])] at h; simp at h)
    refine ⟨t2, ?_, walked_node hw1 hw2⟩
    unfold visit
    simp only [hnode, hv1, Run.andThen_ok, hv2]

/-- Along a walk of `genWalk` GEN_CODES comes to the node it names, with the codes of the subtrees before it set:
an error raised there is the error of the whole walk. -/
theorem visit_genWalk {tree : TreeMemory} {d : Nat} {path : Code} {i j : BitVec 9} {before : List HuffTree}
    (h : genWalk tree d path i before = some j) {p : Code} {t : CodeTable}
    (hn : (before.flatMap HuffTree.symbols).Nodup) (hf : ∀ x ∈ before.flatMap HuffTree.symbols, codeAt t x = none) :
    path.length ≤ d ∧ ∃ t', (∀ x ∈ before.flatMap HuffTree.symbols, (codeAt t' x).isSome = true) ∧
      (∀ x, (codeAt t x).isSome = true → (codeAt t' x).isSome = true) ∧
      ∀ e q, visit tree (d - path.length) j (p ++ path) t' = .raised e q → visit tree d i p t = .raised e q := by
  induction path generalizing d i before p t with
  | nil =>
    cases before with
    | nil =>
      simp only [genWalk, Option.some.injEq] at h
      subst h
      exact ⟨by simp, t, by simp, fun _ h => h, fun e q h => by simpa using h⟩
    | cons => simp [genWalk] at h
  | cons b rest ih =>
    cases d with
    | zero => simp [genWalk] at h
    | succ d =>
      simp only [genWalk] at h
      split at h
      · rename_i l r hnode
        cases b with
        | false =>
          obtain ⟨hl, t', h1, h2, h3⟩ := ih (p := p ++ [false]) (t := t) (by simpa using h) hn hf
          refine ⟨by simpa using hl, t', h1, h2, fun e q hv => ?_⟩
          have := h3 e q (by simpa using hv)
          unfold visit
          simp [hnode, this]
        | true =>
          simp only [if_true] at h
          cases before with
          | nil => simp at h
          | cons tr before =>
            simp only [Bool.and_eq_true, decide_eq_true_eq, Option.ite_none_right_eq_some] at h
            obtain ⟨⟨hh, hd⟩, h⟩ := h
            simp only [List.flatMap_cons, List.nodup_append] at hn
            obtain ⟨hn1, hn2, hdis⟩ := hn
            obtain ⟨t1, hv1, hw1⟩ := visit_of_tree (path := p ++ [false]) (t := t) hh hd hn1
              (fun x hx => hf x (by simp [hx]))
            obtain ⟨hl, t', h1, h2, h3⟩ := ih (p := p ++ [true]) (t := t1) h hn2 (fun x hx => by
              cases hc : codeAt t1 x with
              | none => rfl
              | some c =>
                rcases (hw1.2.2.1 x c).1 hc with ⟨e, he, -⟩ | hc
                · exact absurd rfl (hdis x (HuffTree.mem_symbols_iff.2 ⟨e, he⟩) x hx)
                · have := hf x (by rw [List.flatMap_cons]; exact List.mem_append_right _ hx)
                  rw [this] at hc; simp at hc)
            refine ⟨by simpa using hl, t', ?_, ?_, fun e q hv => ?_⟩
            · intro x hx
              rw [List.flatMap_cons] at hx
              rcases List.mem_append.1 hx with hx | hx
              · obtain ⟨c, hc⟩ := HuffTree.mem_symbols_iff.1 hx
                exact h2 x (by rw [(hw1.2.2.1 x _).2 (.inl ⟨c, hc, rfl⟩)]; rfl)
              · exact h1 x hx
            · intro x hx
              obtain ⟨c, hc⟩ := Option.isSome_iff_exists.1 hx
              exact h2 x (by rw [(hw1.2.2.1 x c).2 (.inr hc)]; rfl)
            · have := h3 e q (by simpa using hv)
              unfold visit
              simp [hnode, hv1, this]
      · simp at h

/-- A node that is its own left child leads the walk of GEN_CODES to the depth limit. -/
theorem visit_left_loop {tree : TreeMemory} {i r : BitVec 9} (h : nodeAt tree i = .internal (some i) (some r)) (d : Nat)
    (path : Code) (t : CodeTable) : visit tree d i path t = .raised .codeLengthExceeded (i.setWidth 32) := by
  induction d generalizing path t with
  | zero => unfold visit; simp [h]
  | succ d ih => unfold visit; simp [h, ih]

/-- Everything the walk of GEN_CODES can answer with a table for. -/
theorem visit_eq_ok {tree : TreeMemory} {d : Nat} {i : BitVec 9} {path : Code} {t t' : CodeTable}
    (h : visit tree d i path t = .ok t') :
    ∃ tr, holdsTree tree tr i = true ∧ HuffTree.depth tr ≤ d ∧ Walked t t' path tr := by
  induction d generalizing i path t t' with
  | zero =>
    unfold visit at h
    split at h
    · rename_i sym hn
      split at h
      · simp at h
      · rename_i hs
        simp only [Run.ok.injEq] at h
        subst h
        exact ⟨.leaf sym, holdsTree_leaf.2 hn, by simp [HuffTree.depth], walked_leaf (by simpa using hs)⟩
    · simp at h
    · simp at h
  | succ d ih =>
    unfold visit at h
    split at h
    · rename_i sym hn
      split at h
      · simp at h
      · rename_i hs
        simp only [Run.ok.injEq] at h
        subst h
        exact ⟨.leaf sym, holdsTree_leaf.2 hn, by simp [HuffTree.depth], walked_leaf (by simpa using hs)⟩
    · rename_i a b hn
      simp only [Run.andThen_eq_ok] at h
      obtain ⟨t1, h1, h2⟩ := h
      obtain ⟨l, hl, hdl, hw1⟩ := ih h1
      obtain ⟨r, hr, hdr, hw2⟩ := ih h2
      exact ⟨.node l r, holdsTree_node.2 ⟨a, b, hn, hl, hr⟩, by simp only [HuffTree.depth]; omega,
        walked_node hw1 hw2⟩
    · simp at h

/-- The walk of GEN_CODES never reads BUF, so it never faults. -/
theorem visit_not_fault {tree : TreeMemory} {d : Nat} {i : BitVec 9} {path : Code} {t : CodeTable} {x : Fault} :
    visit tree d i path t ≠ .fault x := by
  induction d generalizing i path t with
  | zero =>
    unfold visit
    repeat' split
    all_goals simp_all
  | succ d ih =>
    unfold visit
    split
    · split <;> simp
    · simp [Run.andThen_eq_fault, ih]
    · simp

/-- The errors of the walk of GEN_CODES. -/
theorem visit_raised {tree : TreeMemory} {d : Nat} {i : BitVec 9} {path : Code} {t : CodeTable} {e : ErrorKind}
    {p : Word} (h : visit tree d i path t = .raised e p) : e = .treeStructureFault ∨ e = .codeLengthExceeded := by
  induction d generalizing i path t with
  | zero =>
    unfold visit at h
    repeat' split at h
    all_goals simp_all
  | succ d ih =>
    unfold visit at h
    split at h
    · split at h <;> simp_all
    · rcases Run.andThen_eq_raised.1 h with h | ⟨t1, -, h⟩
      · exact ih h
      · exact ih h
    · simp_all

end Sys2Proof.Machine
end

