-- ==== Sys2Proof/Laws/Exec.lean ====
section
/-! SUPPORT. Everything a command can do, said once for all commands: the four forms of a next state, the stops, and what a step can do. -/

namespace Sys2Proof.Machine

/-! ### The output a command can commit, and the errors it can raise -/

/-- The pseudocode of an output command, without its end. -/
def outputRun (i : Instr) (s : State) : Run Bytes :=
  (checkSrcDst s).andThen fun _ =>
    match i with
    | .hufEnc => hufEncScan s s.srcLen.toNat 0 []
    | .hufDec =>
      (hufDecScan s s.srcLen.toNat 0 { node := s.treeRoot.idx, depth := 0, out := [] }).andThen fun w => hufDecEnd s w
    | .rleEnc => rleEncScan s s.srcLen.toNat 0 []
    | .rleDec =>
      (rleDecScan s s.srcLen.toNat { node := [], pos := 0, out := [] }).andThen fun w => rleDecEnd s w
    | .nop | .clrCt | .clrTrie | .ctLoad _ | .genCodes | .trieInsert => .ok []

/-- The pseudocode of a command with no output, without its end. -/
def tableRun (i : Instr) (s : State) : Run (State × Nat) :=
  match i with
  | .clrCt => .ok ({ s with ct := emptyCodeTable }, 0)
  | .clrTrie => .ok ({ s with trie := Trie.bare, payUsed := 0 }, 0)
  | .ctLoad sym => runCtLoad sym s
  | .genCodes => runGenCodes s
  | .trieInsert => runTrieInsert s
  | .nop | .hufEnc | .hufDec | .rleEnc | .rleDec => .ok (s, 0)

/-- Every command is its pseudocode with the end of its kind. -/
theorem exec_eq (i : Instr) (s : State) :
    exec i s = if isOutputCommand i then endOutput s (outputRun i s) else endTable s (tableRun i s) := by
  cases i <;> rfl

/-- No command is refused. -/
theorem exec_not_refused (i : Instr) (s : State) (x : Refusal) : exec i s ≠ .refused x := by
  rw [exec_eq]; split
  · exact endOutput_not_refused _ _ _
  · exact endTable_not_refused _ _ _

theorem hufDecScan_raised {s : State} {n i : Nat} {w : HufWalk} {e : ErrorKind} {p : Word}
    (h : hufDecScan s n i w = .raised e p) :
    e = .malformedHuffmanInput ∨ e = .treeTraversalFailure ∨ e = .allocationFailure := by
  induction n generalizing i w with
  | zero => simp [hufDecScan] at h
  | succ n ih =>
    simp only [hufDecScan, Run.andThen_eq_raised, src_not_raised, false_or] at h
    obtain ⟨c, -, h⟩ := h
    split at h
    · simp only [Run.raised.injEq] at h; exact .inl h.1.symm
    · rcases Run.andThen_eq_raised.1 h with h | ⟨w', -, h⟩
      · unfold hufDecBit at h
        repeat' split at h
        all_goals first
          | (simp only [Run.raised.injEq] at h; exact .inr (.inl h.1.symm))
          | (simp only [Run.andThen_eq_raised, append_eq_raised, reduceCtorEq, and_false, exists_false, or_false] at h
             exact .inr (.inr h.2.1))
          | simp at h
      · exact ih h

theorem hufEncScan_raised {s : State} {n i : Nat} {out : Bytes} {e : ErrorKind} {p : Word}
    (h : hufEncScan s n i out = .raised e p) : e = .missingCodeEntry ∨ e = .allocationFailure := by
  induction n generalizing i out with
  | zero => simp [hufEncScan] at h
  | succ n ih =>
    simp only [hufEncScan, Run.andThen_eq_raised, src_not_raised, false_or] at h
    obtain ⟨c, -, h⟩ := h
    split at h
    · simp only [Run.raised.injEq] at h; exact .inl h.1.symm
    · rcases Run.andThen_eq_raised.1 h with h | ⟨w', -, h⟩
      · exact .inr (append_eq_raised.1 h).2.1
      · exact ih h

theorem runEnd_not_raised {s : State} {c : Byte} {k j : Nat} {e : ErrorKind} {p : Word} :
    runEnd s c k j ≠ .raised e p := by
  induction k generalizing j with
  | zero => simp [runEnd]
  | succ k ih =>
    simp only [runEnd, ne_eq, Run.andThen_eq_raised, src_not_raised, false_or, not_exists, not_and]
    intro b _
    split
    · exact ih
    · simp

theorem rleEncScan_raised {s : State} {n i : Nat} {out : Bytes} {e : ErrorKind} {p : Word}
    (h : rleEncScan s n i out = .raised e p) : e = .allocationFailure := by
  induction n generalizing i out with
  | zero => simp [rleEncScan] at h
  | succ n ih =>
    simp only [rleEncScan] at h
    split at h
    · simp only [Run.andThen_eq_raised, src_not_raised, runEnd_not_raised, false_or, append_eq_raised] at h
      obtain ⟨_, -, _, -, h | ⟨_, -, h⟩⟩ := h
      · exact h.2.1
      · exact ih h
    · simp at h

theorem countRun_not_raised {s : State} {k j cnt : Nat} {e : ErrorKind} {p : Word} :
    countRun s k j cnt ≠ .raised e p := by
  induction k generalizing j cnt with
  | zero => simp [countRun]
  | succ k ih =>
    simp only [countRun, ne_eq, Run.andThen_eq_raised, src_not_raised, false_or, not_exists, not_and]
    intro b _
    split
    · simp
    · exact ih

theorem rleDecScan_raised {s : State} {n : Nat} {w : RleWalk} {e : ErrorKind} {p : Word}
    (h : rleDecScan s n w = .raised e p) :
    e = .malformedRLEInput ∨ e = .allocationFailure ∨ e = .invalidCountContext := by
  induction n generalizing w with
  | zero => simp [rleDecScan] at h
  | succ n ih =>
    simp only [rleDecScan] at h
    split at h
    · simp only [Run.andThen_eq_raised, src_not_raised, false_or] at h
      obtain ⟨c, -, h⟩ := h
      split at h
      · simp only [Run.raised.injEq] at h; exact .inl h.1.symm
      rcases Run.andThen_eq_raised.1 h with h | ⟨w', -, h⟩
      · split at h
        · simp only [rleDescend] at h
          repeat' split at h
          all_goals first
            | (simp only [Run.andThen_eq_raised, append_eq_raised, reduceCtorEq, and_false, exists_false, or_false] at h
               exact .inr (.inl h.2.1))
            | simp at h
        · simp only [rleExpand, Run.andThen_eq_raised, countRun_not_raised, false_or] at h
          obtain ⟨⟨cnt, j⟩, -, h⟩ := h
          simp only at h
          split at h
          · simp only [Run.raised.injEq] at h; exact .inr (.inr h.1.symm)
          · rw [appendRepeat_eq] at h
            simp only [Run.andThen_eq_raised, append_eq_raised, reduceCtorEq, and_false, exists_false, or_false] at h
            exact .inr (.inl h.2.1)
      · exact ih h
    · simp at h

/-- An output command commits a string that fits in DST. -/
theorem outputRun_length {i : Instr} {s : State} {out : Bytes} (h : outputRun i s = .ok out) :
    out.length ≤ s.dstCap.toNat := by
  obtain ⟨u, -, h⟩ := Run.andThen_eq_ok.1 h
  cases i with
  | hufEnc =>
    obtain ⟨_, _, _, _, _, _, h⟩ := hufEncScan_eq_ok (by simp) h
    exact h
  | hufDec =>
    obtain ⟨w, hw, h⟩ := Run.andThen_eq_ok.1 h
    obtain ⟨_, _, _, _, _, _, _, _, _, _, hl⟩ :=
      hufDecScan_eq_ok (part := []) (node := s.treeRoot.idx) rfl (.inl rfl) hw
    simp only [hufDecEnd] at h
    split at h
    · simp at h
    · simp only [Run.ok.injEq] at h; subst h; exact hl (by simp)
  | rleEnc =>
    obtain ⟨bs, hb, hr⟩ := rleEncScan_reads (by omega) (by omega) h
    have hfl : (bs.splitBy (fun a b => a == b)).flatten = bs := List.flatten_splitBy ..
    have hg := goodRuns_splitBy bs
    have hlen := goodRuns_length hg.1
    rw [hfl] at hlen
    exact (rleEncScan_eq_ok hg (by rwa [hfl]) (by rwa [hfl]) (by omega) (by simp) h).2
  | rleDec =>
    obtain ⟨w, hw, h⟩ := Run.andThen_eq_ok.1 h
    exact rleDecOutput_length (by simp) hw h
  | _ => simp only [Run.ok.injEq] at h; subst h; simp

/-- The errors of an output command. None of them is IllegalCommand. -/
theorem outputRun_raised {i : Instr} {s : State} {e : ErrorKind} {p : Word} (h : outputRun i s = .raised e p) :
    e ≠ .illegalCommand ∧ (outputRangesOk s = true → e ≠ .rangeFault) := by
  rcases Run.andThen_eq_raised.1 h with h | ⟨u, hu, h⟩
  · have he := checkSrcDst_raised h
    subst he
    refine ⟨by simp, fun ho => ?_⟩
    rw [checkSrcDst_ok ho] at h; simp at h
  · cases i with
    | hufEnc => rcases hufEncScan_raised h with rfl | rfl <;> simp
    | hufDec =>
      rcases Run.andThen_eq_raised.1 h with h | ⟨w, -, h⟩
      · rcases hufDecScan_raised h with rfl | rfl | rfl <;> simp
      · simp only [hufDecEnd] at h
        split at h
        · simp only [Run.raised.injEq] at h; rw [← h.1]; simp
        · simp at h
    | rleEnc => rw [rleEncScan_raised h]; simp
    | rleDec =>
      rcases Run.andThen_eq_raised.1 h with h | ⟨w, -, h⟩
      · rcases rleDecScan_raised h with rfl | rfl | rfl <;> simp
      · simp only [rleDecEnd] at h
        split at h
        · simp at h
        · split at h
          · simp only [Run.raised.injEq] at h; rw [← h.1]; simp
          · rw [(append_eq_raised.1 h).2.1]; simp
    | _ => simp at h

/-- What the pseudocode of a command with no output can change. -/
def TableFrame (i : Instr) (s s' : State) : Prop :=
  s' = { s with ct := s'.ct, trie := s'.trie, payMem := s'.payMem, payUsed := s'.payUsed } ∧
  (writesCodeTable i = false → s'.ct = s.ct) ∧
  (writesTrie i = false → s'.trie = s.trie ∧ s'.payMem = s.payMem ∧ s'.payUsed = s.payUsed)

theorem tableRun_ok {i : Instr} {s s' : State} {n : Nat} (h : tableRun i s = .ok (s', n)) : TableFrame i s s' := by
  cases i with
  | ctLoad sym =>
    simp only [tableRun, runCtLoad] at h
    obtain ⟨u, -, h⟩ := Run.andThen_eq_ok.1 h
    split at h
    · simp at h
    obtain ⟨code, -, h⟩ := Run.andThen_eq_ok.1 h
    simp only [Run.ok.injEq, Prod.mk.injEq] at h
    obtain ⟨rfl, rfl⟩ := h
    exact ⟨rfl, by simp [writesCodeTable], fun _ => ⟨rfl, rfl, rfl⟩⟩
  | genCodes =>
    simp only [tableRun, runGenCodes] at h
    split at h
    · simp at h
    obtain ⟨tab, -, h⟩ := Run.andThen_eq_ok.1 h
    simp only [Run.ok.injEq, Prod.mk.injEq] at h
    obtain ⟨rfl, rfl⟩ := h
    exact ⟨rfl, by simp [writesCodeTable], fun _ => ⟨rfl, rfl, rfl⟩⟩
  | trieInsert =>
    simp only [tableRun, runTrieInsert] at h
    obtain ⟨u, -, h⟩ := Run.andThen_eq_ok.1 h
    obtain ⟨key, -, h⟩ := Run.andThen_eq_ok.1 h
    split at h
    · simp at h
    split at h
    · simp at h
    obtain ⟨pay, -, h⟩ := Run.andThen_eq_ok.1 h
    simp only [Run.ok.injEq, Prod.mk.injEq] at h
    obtain ⟨rfl, rfl⟩ := h
    exact ⟨rfl, fun _ => rfl, by simp [writesTrie]⟩
  | _ =>
    simp only [tableRun, Run.ok.injEq, Prod.mk.injEq] at h
    obtain ⟨rfl, rfl⟩ := h
    simp [TableFrame, writesCodeTable, writesTrie]

/-- The errors of a command with no output. None of them is IllegalCommand. -/
theorem tableRun_raised {i : Instr} {s : State} {e : ErrorKind} {p : Word} (h : tableRun i s = .raised e p) :
    e ≠ .illegalCommand := by
  cases i with
  | ctLoad sym =>
    simp only [tableRun, runCtLoad] at h
    rcases Run.andThen_eq_raised.1 h with h | ⟨u, -, h⟩
    · simp only [checkSrc] at h; split at h <;> simp at h; rw [← h.1]; simp
    split at h
    · simp only [Run.raised.injEq] at h; rw [← h.1]; simp
    rcases Run.andThen_eq_raised.1 h with h | ⟨u, -, h⟩
    · rw [readCode_raised h]; simp
    · simp at h
  | genCodes =>
    simp only [tableRun, runGenCodes] at h
    split at h
    · simp only [Run.raised.injEq] at h; rw [← h.1]; simp
    rcases Run.andThen_eq_raised.1 h with h | ⟨u, -, h⟩
    · split at h
      · simp at h
      · rcases visit_raised h with rfl | rfl <;> simp
    · simp at h
  | trieInsert =>
    simp only [tableRun, runTrieInsert] at h
    rcases Run.andThen_eq_raised.1 h with h | ⟨u, -, h⟩
    · rw [checkSrcAux_raised h]; simp
    rcases Run.andThen_eq_raised.1 h with h | ⟨u, -, h⟩
    · rw [readKey_raised h]; simp
    split at h
    · simp only [Run.raised.injEq] at h; rw [← h.1]; simp
    split at h
    · simp only [Run.raised.injEq] at h; rw [← h.1]; simp
    rcases Run.andThen_eq_raised.1 h with h | ⟨u, -, h⟩
    · exact absurd h readAux_not_raised
    · simp at h
  | _ => simp [tableRun] at h

/-- Everything a command's next state can be. -/
theorem exec_eq_next {i : Instr} {s t : State} (h : exec i s = .next t) :
    (isOutputCommand i = true ∧ ∃ out, outputRun i s = .ok out ∧ out.length ≤ s.dstCap.toNat ∧
      t = (s.commitOutput out).finishOk out.length) ∨
    (isOutputCommand i = true ∧ ∃ e pos, outputRun i s = .raised e pos ∧ e ≠ .illegalCommand ∧
      t = s.drawDst.raiseError e pos) ∨
    (isOutputCommand i = false ∧ ∃ s' n, tableRun i s = .ok (s', n) ∧ TableFrame i s s' ∧ t = s'.finishOk n) ∨
    (isOutputCommand i = false ∧ ∃ e pos, tableRun i s = .raised e pos ∧ e ≠ .illegalCommand ∧
      t = s.raiseError e pos) := by
  rw [exec_eq] at h
  split at h
  · rename_i ho
    rcases endOutput_eq_next.1 h with ⟨out, hr, ht⟩ | ⟨e, pos, hr, ht⟩
    · exact .inl ⟨ho, out, hr, outputRun_length hr, ht⟩
    · exact .inr (.inl ⟨ho, e, pos, hr, (outputRun_raised hr).1, ht⟩)
  · rename_i ho
    have ho : isOutputCommand i = false := by simpa using ho
    rcases endTable_eq_next.1 h with ⟨s', n, hr, ht⟩ | ⟨e, pos, hr, ht⟩
    · exact .inr (.inr (.inl ⟨ho, s', n, hr, tableRun_ok hr, ht⟩))
    · exact .inr (.inr (.inr ⟨ho, e, pos, hr, tableRun_raised hr, ht⟩))

end Sys2Proof.Machine
end

