-- ==== Sys2Proof/Laws/Footprint.lean ====
section
/-! SUPPORT. The footprint of a command: with its operand bytes written no scan faults, and a scan reads BUF only inside the operand ranges (R67). -/

namespace Sys2Proof.Machine

/-! ### No fault on written operands -/

/-- A written SRC byte can be read. -/
theorem written_src {s : State} (h : srcWritten s = true) (ho : s.srcOk = true) {k : Nat}
    (hk : k < s.srcLen.toNat) : ∃ v, src s k = .ok v := by
  simp only [srcWritten, ho, Bool.not_true, Bool.false_or, Option.isSome_iff_exists] at h
  obtain ⟨str, hs⟩ := h
  have hr := reads_of_srcString hs
  exact ⟨_, by simpa using hr.1 k (by omega)⟩

theorem no_fault_readCode {s : State} (hw : ∀ k < s.srcLen.toNat, ∃ v, src s k = .ok v) {n i : Nat}
    (h : i + n ≤ s.srcLen.toNat) {x : Fault} : readCode s n i ≠ .fault x := by
  induction n generalizing i with
  | zero => simp [readCode]
  | succ n ih =>
    obtain ⟨v, hv⟩ := hw i (by omega)
    simp only [readCode, hv, Run.andThen_ok]
    split
    · simp
    · simp only [ne_eq, Run.andThen_eq_fault, ih (i := i + 1) (by omega)]; simp

theorem no_fault_readKey {s : State} (hw : ∀ k < s.srcLen.toNat, ∃ v, src s k = .ok v) {n i : Nat}
    (h : i + n ≤ s.srcLen.toNat) {x : Fault} : readKey s n i ≠ .fault x := by
  induction n generalizing i with
  | zero => simp [readKey]
  | succ n ih =>
    obtain ⟨v, hv⟩ := hw i (by omega)
    simp only [readKey, hv, Run.andThen_ok]
    split
    · simp
    · simp only [ne_eq, Run.andThen_eq_fault, ih (i := i + 1) (by omega)]; simp

theorem no_fault_hufEnc {s : State} (hw : ∀ k < s.srcLen.toNat, ∃ v, src s k = .ok v) {n i : Nat}
    {out : Bytes} (h : i + n ≤ s.srcLen.toNat) {x : Fault} : hufEncScan s n i out ≠ .fault x := by
  induction n generalizing i out with
  | zero => simp [hufEncScan]
  | succ n ih =>
    obtain ⟨v, hv⟩ := hw i (by omega)
    simp only [hufEncScan, hv, Run.andThen_ok]
    split
    · simp
    · simp only [ne_eq, Run.andThen_eq_fault, append_not_fault, ih (i := i + 1) (by omega)]; simp

theorem no_fault_hufDecBit {s : State} {i : Nat} {b : Bool} {w : HufWalk} {x : Fault} :
    hufDecBit s i b w ≠ .fault x := by
  unfold hufDecBit
  repeat' split
  all_goals simp [Run.andThen_eq_fault, append_not_fault]

theorem no_fault_hufDec {s : State} (hw : ∀ k < s.srcLen.toNat, ∃ v, src s k = .ok v) {n i : Nat}
    {w : HufWalk} (h : i + n ≤ s.srcLen.toNat) {x : Fault} : hufDecScan s n i w ≠ .fault x := by
  induction n generalizing i w with
  | zero => simp [hufDecScan]
  | succ n ih =>
    obtain ⟨v, hv⟩ := hw i (by omega)
    simp only [hufDecScan, hv, Run.andThen_ok]
    split
    · simp
    · simp only [ne_eq, Run.andThen_eq_fault, no_fault_hufDecBit, ih (i := i + 1) (by omega)]; simp

/-- The end of a run lies in the bytes scanned. -/
theorem runEnd_le {s : State} {c : Byte} {k j e : Nat} (h : runEnd s c k j = .ok e) : j ≤ e ∧ e ≤ j + k := by
  obtain ⟨bs, h1, h2, -⟩ := runEnd_reads h; omega

theorem no_fault_runEnd {s : State} (hw : ∀ k < s.srcLen.toNat, ∃ v, src s k = .ok v) {c : Byte} {k j : Nat}
    (h : j + k ≤ s.srcLen.toNat) {x : Fault} : runEnd s c k j ≠ .fault x := by
  induction k generalizing j with
  | zero => simp [runEnd]
  | succ k ih =>
    obtain ⟨v, hv⟩ := hw j (by omega)
    simp only [runEnd, hv, Run.andThen_ok]
    split
    · exact ih (by omega)
    · simp

theorem no_fault_rleEnc {s : State} (hw : ∀ k < s.srcLen.toNat, ∃ v, src s k = .ok v) {n i : Nat}
    {out : Bytes} {x : Fault} : rleEncScan s n i out ≠ .fault x := by
  induction n generalizing i out with
  | zero => simp [rleEncScan]
  | succ n ih =>
    simp only [rleEncScan]
    split
    · obtain ⟨v, hv⟩ := hw i (by omega)
      simp only [hv, Run.andThen_ok, ne_eq, Run.andThen_eq_fault, append_not_fault,
        no_fault_runEnd hw (show i + 1 + (s.srcLen.toNat - (i + 1)) ≤ s.srcLen.toNat by omega), ih]
      simp
    · simp

theorem no_fault_countRun {s : State} (hw : ∀ k < s.srcLen.toNat, ∃ v, src s k = .ok v) {k j cnt : Nat}
    (h : j + k ≤ s.srcLen.toNat) {x : Fault} : countRun s k j cnt ≠ .fault x := by
  induction k generalizing j cnt with
  | zero => simp [countRun]
  | succ k ih =>
    obtain ⟨v, hv⟩ := hw j (by omega)
    simp only [countRun, hv, Run.andThen_ok]
    split
    · simp
    · exact ih (by omega)

/-- With the trie invariants a leaf has its payload, so RLE_DEC does not fault either. -/
theorem no_fault_rleDec {s : State} (hinv : s.TrieOk) (hw : ∀ k < s.srcLen.toNat, ∃ v, src s k = .ok v)
    {n : Nat} {w : RleWalk} {x : Fault} : rleDecScan s n w ≠ .fault x := by
  induction n generalizing w with
  | zero => simp [rleDecScan]
  | succ n ih =>
    simp only [rleDecScan]
    split
    · rename_i hlt
      obtain ⟨v, hv⟩ := hw w.pos hlt
      simp only [hv, Run.andThen_ok]
      split
      · simp
      rename_i d hd
      simp only [ne_eq, Run.andThen_eq_fault, ih, and_false, exists_false, or_false]
      split
      · rename_i hh
        simp only [rleDescend]
        split
        · rename_i hl
          have := hinv.2.2.2.1 (w.node ++ [d]) (by simp) hh hl
          split
          · simp_all
          · simp [Run.andThen_eq_fault, append_not_fault]
        · simp
      · simp only [rleExpand, Run.andThen_eq_fault,
          no_fault_countRun hw (show w.pos + (s.srcLen.toNat - w.pos) ≤ s.srcLen.toNat by omega), false_or, not_exists, not_and]
        rintro ⟨cnt, j⟩ -
        simp only
        split
        · simp
        · simp [Run.andThen_eq_fault, appendRepeat_eq, append_not_fault]
    · simp

theorem no_fault_readAux {s : State} (h : auxWritten s = true) (ho : s.auxOk = true) {x : Fault} :
    readAux s s.auxLen.toNat 0 ≠ .fault x := by
  simp only [auxWritten, ho, Bool.not_true, Bool.false_or, Option.isSome_iff_exists] at h
  obtain ⟨str, hs⟩ := h
  rw [readAux_eq_ok.2 (by simpa [State.auxString] using hs)]; simp

/-! ### Only the operand ranges are read -/

section
variable {s u : State} (hb : ∀ k, k < s.srcLen.toNat → src u k = src s k)
include hb

theorem cong_readCode {n i : Nat} (h : i + n ≤ s.srcLen.toNat) : readCode u n i = readCode s n i := by
  induction n generalizing i with
  | zero => rfl
  | succ n ih => simp only [readCode, hb i (by omega), ih (i := i + 1) (by omega)]

theorem cong_readKey {n i : Nat} (h : i + n ≤ s.srcLen.toNat) : readKey u n i = readKey s n i := by
  induction n generalizing i with
  | zero => rfl
  | succ n ih => simp only [readKey, hb i (by omega), ih (i := i + 1) (by omega)]

theorem cong_hufEnc (hct : u.ct = s.ct) (hcap : u.dstCap = s.dstCap) {n i : Nat} {out : Bytes}
    (h : i + n ≤ s.srcLen.toNat) : hufEncScan u n i out = hufEncScan s n i out := by
  induction n generalizing i out with
  | zero => rfl
  | succ n ih => simp only [hufEncScan, hb i (by omega), hct, hcap, ih (i := i + 1) (by omega)]

theorem cong_hufDec (hct : u.tree = s.tree) (hr : u.treeRoot = s.treeRoot) (hcap : u.dstCap = s.dstCap)
    {n i : Nat} {w : HufWalk} (h : i + n ≤ s.srcLen.toNat) : hufDecScan u n i w = hufDecScan s n i w := by
  induction n generalizing i w with
  | zero => rfl
  | succ n ih => simp only [hufDecScan, hb i (by omega), hufDecBit, hct, hr, hcap, ih (i := i + 1) (by omega)]

theorem cong_runEnd {c : Byte} {k j : Nat} (h : j + k ≤ s.srcLen.toNat) : runEnd u c k j = runEnd s c k j := by
  induction k generalizing j with
  | zero => rfl
  | succ n ih => simp only [runEnd, hb j (by omega), ih (j := j + 1) (by omega)]

theorem cong_rleEnc (hl : u.srcLen = s.srcLen) (hcap : u.dstCap = s.dstCap) {n i : Nat} {out : Bytes} :
    rleEncScan u n i out = rleEncScan s n i out := by
  induction n generalizing i out with
  | zero => rfl
  | succ n ih =>
    simp only [rleEncScan, hl, hcap]
    split
    · simp only [hb i (by omega),
        cong_runEnd hb (show i + 1 + (s.srcLen.toNat - (i + 1)) ≤ s.srcLen.toNat by omega), ih]
    · rfl

theorem cong_countRun {k j cnt : Nat} (h : j + k ≤ s.srcLen.toNat) :
    countRun u k j cnt = countRun s k j cnt := by
  induction k generalizing j cnt with
  | zero => rfl
  | succ n ih => simp only [countRun, hb j (by omega), ih (j := j + 1) (by omega)]

theorem cong_rleDec (hl : u.srcLen = s.srcLen) (ht : u.trie = s.trie) (hcap : u.dstCap = s.dstCap) {n : Nat}
    {w : RleWalk} : rleDecScan u n w = rleDecScan s n w := by
  induction n generalizing w with
  | zero => rfl
  | succ n ih =>
    simp only [rleDecScan, hl]
    split
    · simp only [hb w.pos (by omega), rleDescend, rleExpand, hl, ht, hcap,
        cong_countRun hb (show w.pos + (s.srcLen.toNat - w.pos) ≤ s.srcLen.toNat by omega), ih]
    · rfl

end

theorem cong_readAux {s u : State} {n k : Nat} (hb : ∀ j, k ≤ j → j < k + n → aux u j = aux s j) :
    readAux u n k = readAux s n k := by
  induction n generalizing k with
  | zero => rfl
  | succ n ih =>
    simp only [readAux, hb k (by omega) (by omega),
      ih (k := k + 1) (fun j h1 h2 => hb j (by omega) (by omega))]

end Sys2Proof.Machine
end

