-- ==== Sys2Proof/Laws/PerInstr.lean ====
section
/-! SUPPORT. The per-instruction family EncodedFields: what the fields of each command's word hold (R76 to R78). -/

namespace Sys2Proof.Laws.EncodedFields

open Sys2Proof

/-- The command is well-formed, its word's reserved bits are 0, its opcode and symbol name the command in the map
of R78, and its symbol is 0 unless the opcode is CT_LOAD's (R77). -/
def Statement (i : Instr) : Prop :=
  i.wf = true ∧ reservedField (encode i) = 0 ∧
  commandOf (opField (encode i)) (symField (encode i)) = some i ∧
  (opField (encode i) = 0x10#8 ∨ symField (encode i) = 0#8)

theorem nop : Statement .nop := by unfold Statement; decide
theorem clrCt : Statement .clrCt := by unfold Statement; decide
theorem clrTrie : Statement .clrTrie := by unfold Statement; decide
theorem ctLoad (sym : Byte) : Statement (.ctLoad sym) := by
  refine ⟨rfl, reservedField_commandWord _ _, ?_, .inl (opField_commandWord _ _)⟩
  rw [encode, opField_commandWord, symField_commandWord]
  rfl
theorem genCodes : Statement .genCodes := by unfold Statement; decide
theorem hufEnc : Statement .hufEnc := by unfold Statement; decide
theorem hufDec : Statement .hufDec := by unfold Statement; decide
theorem rleEnc : Statement .rleEnc := by unfold Statement; decide
theorem trieInsert : Statement .trieInsert := by unfold Statement; decide
theorem rleDec : Statement .rleDec := by unfold Statement; decide

end Sys2Proof.Laws.EncodedFields
end

