-- ==== Sys2Proof/Laws/Step.lean ====
section
/-! SUPPORT. Everything a step can do: who moves, what the engine's step is, and what each host event leaves. -/

namespace Sys2Proof.Machine

/-! ### Turns -/

/-- The engine moves only while BUSY = 1. -/
theorem turn_engine {s : State} (h : s.turn = some .engine) : s.status.busy = true := by
  unfold State.turn at h
  split at h
  · assumption
  · split at h <;> simp at h

/-- The host moves only with an event pending. -/
theorem turn_host {s : State} (h : s.turn = some .host) : ∃ e rest, s.host.pending = e :: rest := by
  unfold State.turn at h
  split at h
  · split at h
    · rename_i e rest _ hp _; exact ⟨e, rest, hp⟩
    · simp at h
  · split at h
    · simp at h
    · rename_i e rest hp; exact ⟨e, rest, hp⟩

/-- Taking the turn changes the schedule alone. -/
theorem takeTurn_eq (s : State) : ∃ h, s.takeTurn = { s with host := h } := by
  unfold State.takeTurn; split
  · exact ⟨_, rfl⟩
  · exact ⟨s.host, rfl⟩

/-- With BUSY = 0 the host has the next move. -/
theorem hostsTurn_idle {s : State} (h : s.status.busy = false) : hostsTurn s = true := by simp [hostsTurn, h]

/-- With the host next in the schedule the host has the next move. -/
theorem hostsTurn_scheduled {s : State} (h : s.host.schedule.head? = some .host) :
    hostsTurn s = true := by simp [hostsTurn, h]

/-- Everything a step can do: nothing, the engine's step on a legal or an illegal word, or one host event. -/
theorem step_cases {s t : State} (h : step s = .next t) :
    (s.turn = none ∧ t = s) ∨
    (s.turn = some .engine ∧ ((∃ i, decode s.cmd = .ok i ∧ exec i s.takeTurn = .next t) ∨
       ((∃ e, decode s.cmd = .error e) ∧ t = s.takeTurn.raiseError .illegalCommand noPos))) ∨
    (s.turn = some .host ∧ ∃ e rest, s.host.pending = e :: rest ∧
      hostEvent { s.takeTurn with host := { s.takeTurn.host with pending := rest } } e = .next t) := by
  simp only [step, moveOf] at h
  split at h
  · rename_i ht; simp at h; exact .inl ⟨ht, h.symm⟩
  · rename_i ht
    refine .inr (.inl ⟨ht, ?_⟩)
    simp only [engineMove] at h
    rw [show s.takeTurn.cmd = s.cmd by simp] at h
    split at h
    · rename_i i hd; exact .inl ⟨i, hd, h⟩
    · rename_i e hd; simp [execIllegal] at h; exact .inr ⟨⟨e, hd⟩, h.symm⟩
  · rename_i ht
    refine .inr (.inr ⟨ht, ?_⟩)
    obtain ⟨e, rest, hp⟩ := turn_host ht
    refine ⟨e, rest, hp, ?_⟩
    simp only [hostMove] at h
    rw [show s.takeTurn.host.pending = s.host.pending by simp [State.takeTurn]; split <;> rfl] at h
    rw [hp] at h
    exact h

/-- When the host has the move, the step is its oldest pending event. -/
theorem step_host {s : State} (h : hostsTurn s = true) (e : HostEvent) (rest : List HostEvent) :
    step (withEvents s e rest) =
      hostEvent { s with host := { pending := rest, schedule := scheduleAfter s, reply := s.host.reply } } e := by
  rcases s with ⟨p, ie, ⟨busy, done, err, drop, ec⟩, cmd,
    sb, sl, db, dc, ab, al, ol, ep, tr, tree, ct, buf, pm, trie, pu, dr, ⟨pend, sch, rep⟩⟩
  cases busy with
  | false => rfl
  | true =>
    cases sch with
    | nil => simp [hostsTurn] at h
    | cons a sch =>
      cases a with
      | engine => simp [hostsTurn] at h
      | host => rfl

/-! ### Host events -/

/-- Everything a host event can leave: a reset, a register write, a buffer write, or the state as it was but for
the host's side. -/
theorem event_cases {s t : State} {e : HostEvent} (h : hostEvent s e = .next t) :
    (e = .hardReset ∧ t = s.hardReset) ∨
    (∃ off v, e = .regWrite 4 off v ∧ off.toNat % 4 = 0 ∧ (s.status.busy = true → Reg.ofOffset off = .cmd) ∧
      t = (writeReg s (Reg.ofOffset off) v).setReply .none) ∨
    (∃ a v, e = .bufWrite a v ∧ a < s.params.bufBytes ∧
      t = State.setReply { s with buf := s.buf.write a v } .none) ∨
    (∃ h, t = { s with host := h }) := by
  cases e with
  | hardReset => simp [hostEvent] at h; exact .inl ⟨rfl, h.symm⟩
  | regRead size off =>
    simp only [hostEvent, hostRegRead] at h
    split at h
    · simp at h
    split at h
    · simp at h
    simp at h; exact .inr (.inr (.inr ⟨_, h.symm⟩))
  | regWrite size off v =>
    simp only [hostEvent, hostRegWrite] at h
    split at h
    · simp at h
    rename_i hform
    split at h
    · simp at h
    rename_i hbusy
    simp at h
    simp [accessFormOk] at hform hbusy
    obtain ⟨rfl, hm⟩ := hform
    exact .inr (.inl ⟨off, v, rfl, hm, hbusy, h.symm⟩)
  | bufRead a =>
    simp only [hostEvent, hostBufRead] at h
    repeat' split at h
    all_goals simp at h
    all_goals exact .inr (.inr (.inr ⟨_, h.symm⟩))
  | bufWrite a v =>
    simp only [hostEvent, hostBufWrite] at h
    split at h
    · simp at h
    split at h
    · simp at h; exact .inr (.inr (.inl ⟨a, v, rfl, by assumption, h.symm⟩))
    · simp at h; exact .inr (.inr (.inr ⟨_, h.symm⟩))
  | wait =>
    simp only [hostEvent, hostWait] at h
    split at h
    · simp at h; exact .inr (.inr (.inr ⟨_, h.symm⟩))
    · simp at h; exact .inr (.inr (.inr ⟨_, h.symm⟩))

/-- Which aligned offsets name the registers whose writes do more than store. -/
theorem ofOffset_inv {off : BitVec 12} (hm : off.toNat % 4 = 0) :
    (Reg.ofOffset off = .ctrl → off = 0x004) ∧ (Reg.ofOffset off = .status → off = 0x008) ∧
    (Reg.ofOffset off = .cmd → off = 0x00C) := by
  have key : ∀ off : BitVec 12, off.toNat % 4 = 0 →
    (Reg.ofOffset off = .ctrl → off = 0x004) ∧ (Reg.ofOffset off = .status → off = 0x008) ∧
    (Reg.ofOffset off = .cmd → off = 0x00C) := by
    decide +kernel
  exact key off hm

/-- The offsets of TREE. -/
theorem ofOffset_tree (n : Nat) (h : n < 512) :
    Reg.ofOffset (BitVec.ofNat 12 (0x800 + 4 * n)) = .tree (BitVec.ofNat 9 n) := by
  have : ∀ m : Fin 512, Reg.ofOffset (BitVec.ofNat 12 (0x800 + 4 * m.val)) = .tree (BitVec.ofNat 9 m.val) := by
    decide +kernel
  exact this ⟨n, h⟩

/-- The reserved offsets below TREE. -/
theorem ofOffset_reserved (n : Nat) (h1 : 18 ≤ n) (h : n < 512) :
    Reg.ofOffset (BitVec.ofNat 12 (4 * n)) = .reserved ∧ (BitVec.ofNat 12 (4 * n)).toNat % 4 = 0 := by
  have : ∀ m : Fin 512, 18 ≤ m.val → Reg.ofOffset (BitVec.ofNat 12 (4 * m.val)) = .reserved ∧
      (BitVec.ofNat 12 (4 * m.val)).toNat % 4 = 0 := by
    decide +kernel
  exact this ⟨n, h⟩ h1

/-- STATUS as a number. -/
theorem status_word_eq (a b c d : Bool) (e : BitVec 8) :
   ({ busy := a, done := b, err := c, drop := d, errCode := e } : Status).word =
      BitVec.ofNat 32 ((if a then 1 else 0) + (if b then 2 else 0) + (if c then 4 else 0) +
        (if d then 8 else 0) + 256 * e.toNat) := by
  revert a b c d e; decide +kernel

end Sys2Proof.Machine
end

