-- ==== Sys2Proof/Tests/Slice0.lean ====
section
/-! SUPPORT. The model's own tests: ill-formed terms, command words written out from R78, single steps with the results of 95_test_vectors.md, and one witness for the hypotheses of each statement. -/

namespace Sys2Proof.Tests

open Sys2Proof Sys2Proof.Machine

/-! ### Well-formedness -/

/-- R139: an access of 2 bytes, and one at an offset that is no multiple of 4 (V-X12). -/
theorem test_wf_event : (HostEvent.regRead 2 0x008).wf = false ∧ (HostEvent.regWrite 1 0x00C 0).wf = false ∧
    (HostEvent.regRead 4 0x009).wf = false ∧ (HostEvent.regWrite 4 0x00E 0).wf = false ∧
    (HostEvent.regRead 4 0x008).wf = true := by decide

/-- R43, R85: TREE has indices 0 to 511. -/
theorem test_wf_stmt : (HostStmt.writeTree 512 0).wf = false ∧ (HostStmt.writeTree 511 0).wf = true := by decide

/-- R86: a second command without a WAIT, by name or as a CMD write. -/
theorem test_wf_program : hostProgramWf [.command .nop, .command .nop] = false ∧
    hostProgramWf [.command .nop, .write .cmd 0] = false ∧
    hostProgramWf [.command .nop, .wait, .command .hufEnc, .wait] = true ∧
    hostProgramWf [.writeTree 512 0] = false := by decide

/-! ### Decoding -/

/-- R76 to R78, bit by bit: bits 31:16 zero, SYM in bits 15:8, OP in bits 7:0. -/
theorem test_decode_words :
    decode 0b00000000000000000000000000000000 = .ok .nop ∧
    decode 0b00000000000000000000000000000001 = .ok .clrCt ∧
    decode 0b00000000000000000000000000000010 = .ok .clrTrie ∧
    decode 0b00000000000000000100000100010000 = .ok (.ctLoad 0x41) ∧
    decode 0b00000000000000000000000000010001 = .ok .genCodes ∧
    decode 0b00000000000000000000000000100000 = .ok .hufEnc ∧
    decode 0b00000000000000000000000000100001 = .ok .hufDec ∧
    decode 0b00000000000000000000000000110000 = .ok .rleEnc ∧
    decode 0b00000000000000000000000000110001 = .ok .trieInsert ∧
    decode 0b00000000000000000000000000110010 = .ok .rleDec := by decide

/-- R80: an unassigned opcode (V-C4), a symbol under HUF_ENC (V-C5), bit 16 set (V-C6). -/
theorem test_decode_illegal : decode 0x00000003 = .error .unassignedOpcode ∧
    decode 0x00000120 = .error .symbolNotZero ∧ decode 0x00010000 = .error .reservedBitsSet := by decide

/-- The lowest lane is the opcode (R63); three bytes are no word. -/
theorem test_decode_lanes : decodeBytes [0x10, 0x41, 0x00, 0x00, 0x55] = .ok (.ctLoad 0x41, [0x55]) ∧
    decodeBytes [0x10, 0x41, 0x00] = .error .truncated := by decide

/-- V-C9. -/
theorem test_disassemble :
    disassemble 0x00004110 = ['C', 'T', '_', 'L', 'O', 'A', 'D', ' ', '0', 'x', '4', '1'] ∧
    disassemble 0x00000032 = ['R', 'L', 'E', '_', 'D', 'E', 'C'] ∧
    disassemble 0x00000040 = ['.', 'w', 'o', 'r', 'd', ' ', '0', 'x', '0', '0', '0', '0', '0', '0', '4', '0'] := by
  decide

/-- The tree words of fixtures T1 and T3. -/
theorem test_tree_words : nodeWord 1 2 = 0x60010002 ∧ leafWord 0x61 = 0x80000061 ∧ nodeLeftWord 1 = 0x40010000 ∧
    nodeRightWord 7 = 0x20000007 ∧ rootWord 0 = 0x80000000 := by decide

/-! ### Small states -/

/-- The reset state with `text` at 0 as SRC and DST at 0x40 (the conventions of 95_test_vectors.md). -/
def srcDst (text : Bytes) (cap : Nat) : State :=
  { State.reset with
    buf := Memory.writeBytes [] 0 text
    srcLen := BitVec.ofNat 32 text.length
    dstBase := 0x40
    dstCap := BitVec.ofNat 32 cap }

/-- The reset state with `key` at 0 as SRC and `pay` at 0x20 as AUX. -/
def srcAux (key pay : Bytes) : State :=
  { State.reset with
    buf := Memory.writeBytes (Memory.writeBytes [] 0 key) 0x20 pay
    srcLen := BitVec.ofNat 32 key.length
    auxBase := 0x20
    auxLen := BitVec.ofNat 32 pay.length }

/-- The tree words at 0, 1, ... and ROOT(0). -/
def withTree (s : State) (words : List (Nat × Word)) : State :=
  { s with
    tree := words.foldl (fun t e => t.setIfInBounds e.1 e.2) s.tree
    treeRoot := { valid := true, idx := 0 } }

def t1 : List (Nat × Word) := [(0, 0x60010002), (1, 0x80000061), (2, 0x60030004), (3, 0x80000063), (4, 0x80000062)]
def t2 : List (Nat × Word) := [(0, 0x8000007A)]
def t3 : List (Nat × Word) := [(0, 0x40010000), (1, 0x80000071)]
def t4 : List (Nat × Word) := [(0, 0x60000000)]
def t5 : List (Nat × Word) := [(0, 0x60010001), (1, 0x80000061)]

/-- The tree of T1. -/
def tree1 : HuffTree := .node (.leaf 0x61) (.node (.leaf 0x63) (.leaf 0x62))

/-- Fixture CT1. -/
def withCodes (s : State) : State :=
  { s with ct := setCode (setCode (setCode s.ct 0x61 (some [false])) 0x63 (some [true, false])) 0x62 (some [true, true]) }

/-- The trie of fixture TA. -/
def trieTA : Trie :=
  [([], none), ([0], none), ([0, 3], none), ([0, 3, 1], none), ([0, 3, 1, 5], none),
    ([0, 3, 1, 5, 0], some [0x30, 0x30, 0x30, 0x31, 0x31, 0x31, 0x31, 0x31, 0x30])]

/-- The trie of fixture TB. -/
def trieTB : Trie := [([], some [0x30, 0x31])]

/-- The trie of fixture TC. -/
def trieTC : Trie := [([], none), ([1], some [0x30, 0x30]), ([1, 2], some [0x30, 0x31, 0x31, 0x30])]

def withTA (s : State) : State := { s with trie := trieTA, payUsed := 9 }
def withTB (s : State) : State := { s with trie := trieTB, payUsed := 2 }
def withTC (s : State) : State := { s with trie := trieTC, payUsed := 6 }

/-- STATUS, OUT_LEN, ERR_POS and the output at DST after a completed step. -/
def result (o : Host.Outcome State Fault Refusal) : Option (Word × Word × Word × Option Bytes) :=
  match o with
  | .next t => some (t.status.word, t.outLen, t.errPos, t.buf.readBytes t.dstBase.toNat t.outLen.toNat)
  | .fault _ => none
  | .refused _ => none

/-- A fact about the next state. -/
def nextIs (o : Host.Outcome State Fault Refusal) (p : State → Bool) : Bool :=
  match o with
  | .next t => p t
  | .fault _ => false
  | .refused _ => false

theorem exists_next {o : Host.Outcome State Fault Refusal} {p : State → Bool} (h : nextIs o p = true) :
    ∃ t, o = .next t ∧ p t = true := by
  cases o with
  | next t => exact ⟨t, rfl, h⟩
  | fault _ => simp [nextIs] at h
  | refused _ => simp [nextIs] at h

/-- The command word run as the next step. -/
def run (s : State) (w : Nat) : Host.Outcome State Fault Refusal := step (s.withFetchWord 32 w)

/-! ### Single steps, with the results of 95_test_vectors.md -/

/-- V-C1. -/
theorem test_nop : result (run State.reset 0x00) = some (0x002, 0, 0, some []) := by decide

/-- V-C2. -/
theorem test_clrCt : nextIs (run (withCodes State.reset) 0x01)
    (fun t => decide (t.status.word = 0x002 ∧ codeAt t.ct 0x61 = none ∧ codeAt t.ct 0x63 = none)) = true := by
  decide

/-- V-C3. -/
theorem test_clrTrie : nextIs (run (withTA State.reset) 0x02)
    (fun t => decide (t.status.word = 0x002 ∧ t.trieUsed = 1 ∧ t.payUsed = 0 ∧ t.trie.has [0] = false)) = true := by
  decide

/-- V-T8. -/
theorem test_ctLoad : nextIs (run (withCodes (srcDst [0x31, 0x30, 0x31] 0)) 0x4110)
    (fun t => decide (t.status.word = 0x002 ∧ t.outLen = 3 ∧ codeAt t.ct 0x41 = some [true, false, true] ∧
      codeAt t.ct 0x61 = some [false])) = true := by decide

/-- V-T9. -/
theorem test_ctLoad_malformed : nextIs (run (srcDst [0x31, 0x30, 0x61] 0) 0x4110)
    (fun t => decide (t.status.word = 0x404 ∧ t.errPos = 2 ∧ codeAt t.ct 0x41 = none)) = true := by decide

/-- V-T1. -/
theorem test_genCodes : nextIs (run (withTree State.reset t1) 0x11)
    (fun t => decide (t.status.word = 0x002 ∧ t.outLen = 3 ∧ codeAt t.ct 0x61 = some [false] ∧
      codeAt t.ct 0x63 = some [true, false] ∧ codeAt t.ct 0x62 = some [true, true] ∧
      codeAt t.ct 0x60 = none)) = true := by decide +kernel

/-- V-T5. -/
theorem test_genCodes_shared : result (run (withTree State.reset t5) 0x11) = some (0x904, 0, 1, some []) := by
  decide +kernel

/-- V-H1. -/
theorem test_hufEnc : result (run (withCodes (srcDst [0x61, 0x61, 0x61, 0x62, 0x62, 0x63] 64)) 0x20) =
    some (0x002, 9, 0, some [0x30, 0x30, 0x30, 0x31, 0x31, 0x31, 0x31, 0x31, 0x30]) := by decide

/-- V-H6. -/
theorem test_hufEnc_full : result (run (withCodes (srcDst [0x62, 0x62] 3)) 0x20) =
    some (0x104, 0, 1, some []) := by decide

/-- V-H8. -/
theorem test_hufDec : result (run (withTree (srcDst [0x31, 0x31, 0x30] 64) t1) 0x21) =
    some (0x002, 2, 0, some [0x62, 0x61]) := by decide +kernel

/-- V-S2. -/
theorem test_hufDec_foreign : result (run (withTree (srcDst [0x30, 0x31, 0x32, 0x30] 64) t1) 0x21) =
    some (0x404, 0, 2, some []) := by decide +kernel

/-- V-R7's shape with 10 equal bytes, V-R6. -/
theorem test_rleEnc : result (run (srcDst (List.replicate 10 0x31) 64) 0x30) =
    some (0x002, 3, 0, some [0x31, 0x31, 0x30]) := by decide

/-- V-R10. -/
theorem test_rleEnc_full : result (run (srcDst [0x30, 0x31, 0x31, 0x31] 2) 0x30) =
    some (0x104, 0, 1, some []) := by decide

/-- V-R13. -/
theorem test_trieInsert : nextIs (run (withTA (srcAux [0x30] [0x31, 0x31])) 0x31)
    (fun t => decide (t.status.word = 0x002 ∧ t.outLen = 0 ∧ t.trieUsed = 6 ∧ t.payUsed = 11 ∧
      t.trie.payload [0] = some [0x31, 0x31])) = true := by decide

/-- V-R16, with room for 4 nodes. -/
theorem test_trieInsert_full : nextIs
    (run { srcAux [0x31, 0x32, 0x33, 0x34, 0x35] [] with params := { Params.vectors with trieNodes := 4 } } 0x31)
    (fun t => decide (t.status.word = 0x104 ∧ t.errPos = 3 ∧ t.trieUsed = 1)) = true := by decide

/-- V-R29. -/
theorem test_rleDec : result (run (withTC (srcDst [0x31, 0x34] 64)) 0x32) =
    some (0x002, 8, 0, some (List.replicate 8 0x30)) := by decide

/-- V-R26. -/
theorem test_rleDec_malformed : result (run (withTB (srcDst [0x32, 0x78] 64)) 0x32) =
    some (0x204, 0, 1, some []) := by decide

/-- V-C8: the illegal word comes before the bad range. -/
theorem test_illegal : result (run { State.reset with srcBase := 600 } 0xFF) =
    some (0xB04, 0, 0xFFFFFFFF, some []) := by decide

/-- V-X5: an error raises IRQ, and a STATUS write of 4 clears ERR, ERRCODE and IRQ. -/
theorem test_irq : nextIs (run { State.reset with ie := true } 0x03)
    (fun t => t.irq && decide ((writeReg t .status 4).status.word = 0 ∧ (writeReg t .status 4).irq = false)) = true := by
  decide

/-- A program of two statements reaches BUSY = 1 with NOP latched (R33, R86). -/
theorem test_program : nextIs (step (State.reset.withProgram [.command .nop, .wait] []))
    (fun t => decide (t.status.busy = true ∧ t.host.pending = [.wait] ∧ t.turn = some .engine)) = true := by
  decide

/-! ### Witnesses: for each statement with hypotheses, a state and operands that meet them, clause by clause -/

/-- `s` with a command latched, BUSY = 1 and the engine's turn. -/
def latched (s : State) (w : Word) : State := s.acceptCommand w

/-- `s` busy, with a host event pending and the host chosen to move. -/
def hostChosen (s : State) (e : HostEvent) : State :=
  { s.acceptCommand 0 with host := { pending := [e], schedule := [.host], reply := .none } }

theorem witness_IllegalWords :
    (latched State.reset 0x00000003).turn = some .engine ∧ (latched State.reset 0x00000120).turn = some .engine ∧
    (latched State.reset 0x00010000).turn = some .engine ∧ (latched State.reset 0x00004110).turn = some .engine := by
  decide

theorem witness_StepRuns :
    (latched State.reset 0x20).turn = some .engine ∧ decode (latched State.reset 0x20).cmd = .ok .hufEnc ∧
    (latched State.reset 0x20).status.busy = true ∧ (latched State.reset 0x20).host.pending = [] ∧
    (hostChosen State.reset .wait).turn = some .host ∧
    ({ hostChosen State.reset .wait with host := { pending := [.wait], schedule := [], reply := .none } } : State).turn
      = some .engine := by decide

theorem witness_Idle : State.reset.status.busy = false ∧ State.reset.host.pending = [] ∧
    (State.reset.withProgram [.wait] []).host.pending = [.wait] := by decide

theorem witness_AcceptedCommand : (hostChosen State.reset .wait).status.busy = true := by decide

/-- Words with a control opcode that are no command, for NopCompletes, ClrCtClearsEveryEntry and
ClrTrieLeavesTheBareRoot; and a NOP with IE = 1. -/
theorem witness_ControlCommands :
    ((0x00000100 : Word).extractLsb' 0 8 = 0x00#8 ∧ (0x00000100 : Word) ≠ 0) ∧
    ((0x80000001 : Word).extractLsb' 0 8 = 0x01#8 ∧ (0x80000001 : Word) ≠ 0x00000001) ∧
    ((0x00010002 : Word).extractLsb' 0 8 = 0x02#8 ∧ (0x00010002 : Word) ≠ 0x00000002) ∧
    (∃ t, exec .nop { State.reset with ie := true } = .next t ∧ t.irq = true) :=
  ⟨by decide, by decide, by decide, exists_next (p := fun t => t.irq) (by decide)⟩

/-- A state after CLR_CT with one input byte, for the last clause of ClrCtClearsEveryEntry. -/
theorem witness_ClrCtClearsEveryEntry : ∃ t u, exec .clrCt (withCodes State.reset) = .next t ∧ u.ct = t.ct ∧
    outputRangesOk u = true ∧ 0 < u.srcLen.toNat ∧ (u.buf.read u.srcBase.toNat).isSome = true := by
  obtain ⟨t, h, -⟩ := exists_next (o := exec .clrCt (withCodes State.reset)) (p := fun _ => true) (by decide)
  exact ⟨t, { srcDst [0x61] 8 with ct := t.ct }, h, rfl, (by decide : outputRangesOk (srcDst [0x61] 8) = true),
    (by decide : 0 < (srcDst [0x61] 8).srcLen.toNat),
    (by decide : ((srcDst [0x61] 8).buf.read (srcDst [0x61] 8).srcBase.toNat).isSome = true)⟩

/-- The text of `srcDst` is its SRC string. -/
theorem srcString_srcDst (text : Bytes) (cap : Nat) (h : text.length < 2 ^ 32) :
    (srcDst text cap).srcString = some text := by
  have hl : (srcDst text cap).srcLen.toNat = text.length := by
    show (BitVec.ofNat 32 text.length).toNat = _
    rw [BitVec.toNat_ofNat, Nat.mod_eq_of_lt h]
  rw [State.srcString, hl]
  exact Memory.readBytes_writeBytes [] 0 text

/-- A text that fits in BUF passes the SRC check. -/
theorem srcOk_srcDst (text : Bytes) (cap : Nat) (h : text.length ≤ 512) : (srcDst text cap).srcOk = true := by
  show decide (0 + (BitVec.ofNat 32 text.length).toNat ≤ 512) = true
  rw [BitVec.toNat_ofNat, Nat.mod_eq_of_lt (by omega)]
  simpa using h

/-- A code of three characters, the empty code, and the longest. -/
theorem witness_CtLoadSetsOneEntry :
    (srcDst [0x31, 0x30, 0x31] 0).srcOk = true ∧
    (srcDst [0x31, 0x30, 0x31] 0).srcString = some (ascii [true, false, true]) ∧
    (srcDst [] 0).srcOk = true ∧ (srcDst [] 0).srcString = some (ascii []) ∧
    (srcDst (ascii (List.replicate 255 true)) 0).srcOk = true ∧
    (srcDst (ascii (List.replicate 255 true)) 0).srcString = some (ascii (List.replicate 255 true)) :=
  ⟨by decide, by decide, by decide, by decide,
    srcOk_srcDst _ _ (by rw [ascii_length, List.length_replicate]; decide),
    srcString_srcDst _ _ (by rw [ascii_length, List.length_replicate]; decide)⟩

theorem witness_CtLoadReportsErrors :
    ({ State.reset with srcBase := 510, srcLen := 3 } : State).srcOk = false ∧
    ({ State.reset with srcLen := 256 } : State).srcOk = true ∧
    255 < ({ State.reset with srcLen := 256 } : State).srcLen.toNat ∧
    (srcDst [0x31, 0x30, 0x61] 0).srcOk = true ∧ (srcDst [0x31, 0x30, 0x61] 0).srcLen.toNat ≤ 255 ∧
    [true, false].length < (srcDst [0x31, 0x30, 0x61] 0).srcLen.toNat ∧ (0x61 : Byte) ≠ 0x30 ∧ (0x61 : Byte) ≠ 0x31 ∧
    (srcDst [0x31, 0x30, 0x61] 0).buf.readBytes 0 3 = some (ascii [true, false] ++ [0x61]) := by decide

theorem witness_GenCodesBuildsTheTable : loadedTree (withTree State.reset t1) tree1 = true ∧
    loadedTree (withTree State.reset t2) (.leaf 0x7A) = true := by decide +kernel

/-- T1 with node 2 changed: it lacks its right child; its right child is the leaf of 'a' again; it is its own left
child. -/
def withNode2 (w : Word) : State := withTree State.reset (t1 ++ [(2, w)])

theorem witness_GenCodesRejectsBrokenTrees :
    State.reset.treeRoot.valid = false ∧
    ((withNode2 0x40030000).treeRoot.valid = true ∧
      genWalk (withNode2 0x40030000).tree 255 [true] 0 [.leaf 0x61] = some 2 ∧
      nodeAt (withNode2 0x40030000).tree 2 = .internal (some 3) none) ∧
    (genWalk (withNode2 0x60030001).tree 255 [true, true] 0 [.leaf 0x61, .leaf 0x63] = some 1 ∧
      nodeAt (withNode2 0x60030001).tree 1 = .leaf 0x61) ∧
    (genWalk (withNode2 0x60020004).tree 255 [true] 0 [.leaf 0x61] = some 2 ∧
      nodeAt (withNode2 0x60020004).tree 2 = .internal (some 2) (some 4)) ∧
    (genWalk (withTree State.reset t4).tree 255 (List.replicate 255 false) 0 [] = some 0 ∧
      nodeAt (withTree State.reset t4).tree 0 = .internal (some 0) (some 0)) ∧
    ([HuffTree.leaf 0x61, .leaf 0x63].flatMap HuffTree.symbols).Nodup := by decide +kernel

theorem witness_GeneratedCodesArePrefixFree :
    (∃ t, exec .genCodes (withTree State.reset t1) = .next t ∧ t.status.done = true) ∧
    (∃ t, exec .genCodes State.reset = .next t ∧ t.status.err = true) ∧
    loadedTree (withTree State.reset t1) tree1 = true ∧ 2 ≤ tree1.symbols.length :=
  ⟨exists_next (p := fun t => t.status.done) (by decide +kernel),
    exists_next (p := fun t => t.status.err) (by decide), by decide +kernel, by decide⟩

theorem witness_HufEncWritesTheBitString :
    outputRangesOk (withCodes (srcDst [0x63, 0x61] 3)) = true ∧
    (withCodes (srcDst [0x63, 0x61] 3)).srcString = some [0x63, 0x61] ∧
    [0x63, 0x61].map (codeAt (withCodes (srcDst [0x63, 0x61] 3)).ct) = [[true, false], [false]].map some ∧
    (bitText [[true, false], [false]]).length ≤ (withCodes (srcDst [0x63, 0x61] 3)).dstCap.toNat := by decide

/-- V-H5 (no code) and V-H6 (a code that does not fit). -/
theorem witness_HufEncReportsTheFirstFailure :
    outputRangesOk (withCodes (srcDst [0x61, 0x64] 64)) = true ∧
    (withCodes (srcDst [0x61, 0x64] 64)).buf.readBytes 0 2 = some ([0x61] ++ [0x64]) ∧
    codeAt (withCodes (srcDst [0x61, 0x64] 64)).ct 0x64 = none ∧
    outputRangesOk (withCodes (srcDst [0x62, 0x62] 3)) = true ∧
    (withCodes (srcDst [0x62, 0x62] 3)).buf.readBytes 0 2 = some ([0x62] ++ [0x62]) ∧
    [0x62].map (codeAt (withCodes (srcDst [0x62, 0x62] 3)).ct) = [[true, true]].map some ∧
    codeAt (withCodes (srcDst [0x62, 0x62] 3)).ct 0x62 = some [true, true] ∧
    (withCodes (srcDst [0x62, 0x62] 3)).dstCap.toNat < (bitText [[true, true]]).length + 2 := by decide

/-- Two codewords with DST filled exactly, and the empty input with no tree. -/
theorem witness_HufDecWritesTheSymbols :
    outputRangesOk (withTree (srcDst [0x31, 0x31, 0x30] 2) t1) = true ∧
    (withTree (srcDst [0x31, 0x31, 0x30] 2) t1).treeRoot.valid = true ∧
    (∀ e ∈ [([true, true], (0x62 : Byte)), ([false], 0x61)],
      isCodeword (withTree (srcDst [0x31, 0x31, 0x30] 2) t1).tree 0 e.1 e.2 = true) ∧
    (withTree (srcDst [0x31, 0x31, 0x30] 2) t1).srcString = some (bitText [[true, true], [false]]) ∧
    outputRangesOk (srcDst [] 0) = true ∧ (srcDst [] 0).srcString = some (bitText []) := by decide +kernel

theorem witness_HufDecSucceedsOnlyOnCodewords :
    ∃ t, exec .hufDec (withTree (srcDst [0x31, 0x31, 0x30] 64) t1) = .next t ∧ t.status.done = true :=
  exists_next (p := fun t => t.status.done) (by decide +kernel)

/-- V-S2 (foreign character), V-H15 (null child), V-H18 (single leaf), V-H12 (full), V-H9 (truncated), V-H13 and
V-H14 (no tree). -/
theorem witness_HufDecReportsTheFirstFailure :
    (hufDecAt (withTree (srcDst [0x30, 0x31, 0x32, 0x30] 64) t1) [([false], 0x61)] [true] 2 = true ∧
      (withTree (srcDst [0x30, 0x31, 0x32, 0x30] 64) t1).buf.readBytes 0 3 =
        some (hufDecRead [([false], 0x61)] [true] ++ [0x32]) ∧ bitOf 0x32 = none) ∧
    (hufDecAt (withTree (srcDst [0x31] 64) t3) [] [] 0 = true ∧
      (withTree (srcDst [0x31] 64) t3).buf.readBytes 0 1 = some (hufDecRead [] [] ++ [0x31]) ∧
      bitOf 0x31 = some true ∧ nodeAt (withTree (srcDst [0x31] 64) t3).tree 0 = .internal (some 1) none) ∧
    (hufDecAt (withTree (srcDst [0x30, 0x31] 64) t2) [([false], 0x7A)] [] 0 = true ∧
      (withTree (srcDst [0x30, 0x31] 64) t2).buf.readBytes 0 2 = some (hufDecRead [([false], 0x7A)] [] ++ [0x31]) ∧
      nodeAt (withTree (srcDst [0x30, 0x31] 64) t2).tree 0 = .leaf 0x7A) ∧
    (hufDecAt (withTree (srcDst [0x30, 0x30, 0x30] 2) t1) [([false], 0x61), ([false], 0x61)] [] 0 = true ∧
      (withTree (srcDst [0x30, 0x30, 0x30] 2) t1).buf.readBytes 0 3 =
        some (hufDecRead [([false], 0x61), ([false], 0x61)] [] ++ [0x30]) ∧
      isCodeword (withTree (srcDst [0x30, 0x30, 0x30] 2) t1).tree 0 ([] ++ [false]) 0x61 = true) ∧
    (hufDecAt (withTree (srcDst [0x31] 64) t1) [] [true] 2 = true ∧
      (withTree (srcDst [0x31] 64) t1).srcString = some (hufDecRead [] [true])) ∧
    (outputRangesOk (srcDst [0x30] 64) = true ∧ (srcDst [0x30] 64).treeRoot.valid = false ∧
      (srcDst [0x30] 64).buf.read 0 = some 0x30 ∧ (srcDst [0x78, 0x30] 64).buf.read 0 = some 0x78) := by decide +kernel

/-- The text "ca" through GEN_CODES, HUF_ENC and HUF_DEC. -/
def roundState (s1 : State) : State := { srcDst [0x63, 0x61] 64 with ct := s1.ct }

/-- The state in which the encoded text of `s3` is decoded. -/
def backState (s3 : State) : State :=
  { withTree State.reset t1 with
    buf := s3.buf, srcBase := 0x40, srcLen := s3.outLen, dstBase := 0x80, dstCap := 2 }

theorem witness_HuffmanRoundTrip : ∃ s1 s3, loadedTree (withTree State.reset t1) tree1 = true ∧
    exec .genCodes (withTree State.reset t1) = .next s1 ∧
    ((roundState s1).ct = s1.ct ∧ outputRangesOk (roundState s1) = true ∧
      (roundState s1).srcString = some [0x63, 0x61] ∧ (∀ b ∈ [(0x63 : Byte), 0x61], b ∈ tree1.symbols)) ∧
    [(0x63 : Byte), 0x61].map (codeAt s1.ct) = [[true, false], [false]].map some ∧
    (bitText [[true, false], [false]]).length ≤ (roundState s1).dstCap.toNat ∧
    exec .hufEnc (roundState s1) = .next s3 ∧
    ((backState s3).tree = (withTree State.reset t1).tree ∧
      (backState s3).treeRoot = (withTree State.reset t1).treeRoot ∧ (backState s3).buf = s3.buf ∧
      outputRangesOk (backState s3) = true ∧ (backState s3).srcBase = (roundState s1).dstBase ∧
      (backState s3).srcLen = s3.outLen ∧ 2 ≤ (backState s3).dstCap.toNat) := by
  obtain ⟨s1, h1, p1⟩ := exists_next (o := exec .genCodes (withTree State.reset t1))
    (p := fun s1 => decide ([(0x63 : Byte), 0x61].map (codeAt s1.ct) = [[true, false], [false]].map some) &&
      nextIs (exec .hufEnc (roundState s1)) (fun s3 => outputRangesOk (backState s3)))
    (by decide +kernel)
  rw [Bool.and_eq_true] at p1
  obtain ⟨s3, h3, p3⟩ := exists_next p1.2
  exact ⟨s1, s3, by decide +kernel, h1, ⟨rfl, (by decide : outputRangesOk (srcDst [0x63, 0x61] 64) = true),
    (by decide : (srcDst [0x63, 0x61] 64).srcString = some [0x63, 0x61]), by decide⟩, of_decide_eq_true p1.1,
    (by decide : (bitText [[true, false], [false]]).length ≤ (64 : Word).toNat), h3,
    rfl, rfl, rfl, p3, rfl, rfl,
    (by decide : 2 ≤ (2 : Word).toNat)⟩

theorem witness_RleEncWritesTheRuns : outputRangesOk (srcDst [0x61, 0x61, 0x62] 3) = true ∧
    (srcDst [0x61, 0x61, 0x62] 3).srcString = some [0x61, 0x61, 0x62] ∧
    (rleText [0x61, 0x61, 0x62]).length ≤ (srcDst [0x61, 0x61, 0x62] 3).dstCap.toNat ∧
    1 ≤ (List.replicate 13 (0x30 : Byte)).length := by decide

/-- V-R10. -/
theorem witness_RleEncReportsTheFirstOverflow : outputRangesOk (srcDst [0x30, 0x31, 0x31, 0x31] 2) = true ∧
    (srcDst [0x30, 0x31, 0x31, 0x31] 2).srcString = some [0x30, 0x31, 0x31, 0x31] ∧
    [(0x30 : Byte), 0x31, 0x31, 0x31].splitBy (fun a b => a == b) = [[0x30]] ++ [0x31, 0x31, 0x31] :: [] ∧
    ([[(0x30 : Byte)]].flatMap tokenOf).length ≤ (srcDst [0x30, 0x31, 0x31, 0x31] 2).dstCap.toNat ∧
    (srcDst [0x30, 0x31, 0x31, 0x31] 2).dstCap.toNat <
      ([[(0x30 : Byte)]].flatMap tokenOf).length + (tokenOf [0x31, 0x31, 0x31]).length := by decide

theorem witness_RleEncLength :
    (∃ t, exec .rleEnc (srcDst [0x61, 0x61, 0x62] 3) = .next t ∧ t.status.done = true) ∧
    (outputRangesOk (srcDst [0x30, 0x33, 0x31] 3) = true ∧
      (srcDst [0x30, 0x33, 0x31] 3).srcString = some [0x30, 0x33, 0x31] ∧
      (srcDst [0x30, 0x33, 0x31] 3).srcLen.toNat ≤ (srcDst [0x30, 0x33, 0x31] 3).dstCap.toNat ∧
      [(0x30 : Byte), 0x33, 0x31].IsChain (fun a b => a ≠ b)) ∧
    (outputRangesOk (srcDst (List.replicate 13 0x30) 13) = true ∧
      (srcDst (List.replicate 13 0x30) 13).srcString = some (List.replicate 13 0x30)) :=
  ⟨exists_next (p := fun t => t.status.done) (by decide), by decide, by decide⟩

/-- A trie that keeps the clauses of R49 that speak of `K` and `P` alone. -/
def entriesOk (t : Trie) : Bool :=
  t.wf && t.has [] &&
    t.all (fun e => e.1.isEmpty || (t.has e.1.dropLast && (!t.isLeaf e.1 || (t.payload e.1).isSome)))

theorem trieOk_of_check {s : State} (h : entriesOk s.trie = true)
    (hn : 1 ≤ s.trie.length ∧ s.trie.length ≤ s.params.trieNodes) (hp : s.payUsed ≤ s.params.payBytes)
    (hb : s.trie.payloadBytes ≤ s.payUsed) : s.TrieOk := by
  simp only [entriesOk, Bool.and_eq_true] at h
  exact trieOk_of_entries h.1.1 h.1.2 h.2 hn hp hb

theorem entriesOk_fixtures : entriesOk trieTA = true ∧ entriesOk trieTB = true ∧ entriesOk trieTC = true := by
  decide

theorem payloadBytes_fixtures : trieTA.payloadBytes = 9 ∧ trieTB.payloadBytes = 2 ∧ trieTC.payloadBytes = 6 := by
  decide

theorem trieOk_TA (s : State) (hn : 6 ≤ s.params.trieNodes) (hp : 9 ≤ s.params.payBytes) : (withTA s).TrieOk := by
  apply trieOk_of_check
  · exact entriesOk_fixtures.1
  · exact ⟨by show 1 ≤ 6; omega, hn⟩
  · exact hp
  · exact payloadBytes_fixtures.1.le

theorem trieOk_TB (s : State) (hn : 1 ≤ s.params.trieNodes) (hp : 2 ≤ s.params.payBytes) : (withTB s).TrieOk := by
  apply trieOk_of_check
  · exact entriesOk_fixtures.2.1
  · exact ⟨by show 1 ≤ 1; omega, hn⟩
  · exact hp
  · exact payloadBytes_fixtures.2.1.le

theorem trieOk_TC (s : State) (hn : 3 ≤ s.params.trieNodes) (hp : 6 ≤ s.params.payBytes) : (withTC s).TrieOk := by
  apply trieOk_of_check
  · exact entriesOk_fixtures.2.2
  · exact ⟨by show 1 ≤ 3; omega, hn⟩
  · exact hp
  · exact payloadBytes_fixtures.2.2.le

/-- A key that shares the prefix "0", the empty key, and a pool filled exactly. -/
theorem witness_TrieInsertAddsTheKey :
    (withTA (srcAux [0x30, 0x37] [0x31])).TrieOk ∧
    ((withTA (srcAux [0x30, 0x37] [0x31])).srcOk = true ∧ (withTA (srcAux [0x30, 0x37] [0x31])).auxOk = true ∧
      (withTA (srcAux [0x30, 0x37] [0x31])).srcString = some (digitText [0, 7]) ∧
      (withTA (srcAux [0x30, 0x37] [0x31])).auxString = some [0x31] ∧
      (∀ j, j ≤ 2 → ((withTA (srcAux [0x30, 0x37] [0x31])).trie.has (([0, 7] : List Digit).take j) = true ↔ j ≤ 1)) ∧
      (withTA (srcAux [0x30, 0x37] [0x31])).trieUsed + (2 - 1) ≤ 16) ∧
    ((srcAux [] []).srcString = some (digitText []) ∧ (srcAux [] []).auxString = some []) :=
  ⟨trieOk_TA _ (by decide) (by decide), by decide, by decide⟩

/-- V-R14, V-R16 and V-R17. -/
theorem witness_TrieInsertReportsErrors :
    ((withTA (srcAux [0x30, 0x61] [])).buf.readBytes 0 2 = some (digitText [0] ++ [0x61]) ∧ digitOf 0x61 = none ∧
      (withTA (srcAux [0x30, 0x61] [])).srcOk = true ∧ (withTA (srcAux [0x30, 0x61] [])).auxOk = true) ∧
    ((srcAux [0x31, 0x32] []).srcString = some (digitText [1, 2]) ∧ (srcAux [0x31, 0x32] []).trie.has [] = true ∧
      (∀ j, j ≤ 2 → ((srcAux [0x31, 0x32] []).trie.has (([1, 2] : List Digit).take j) = true ↔ j ≤ 0)) ∧
      ({ srcAux [0x31, 0x32] [] with params := { Params.vectors with trieNodes := 2 } } : State).params.trieNodes <
        (srcAux [0x31, 0x32] []).trieUsed + (2 - 0)) ∧
    ((srcAux [0x31] [0x30, 0x30, 0x30]).srcString = some (digitText [1]) ∧
      ({ srcAux [0x31] [0x30, 0x30, 0x30] with params := { Params.vectors with payBytes := 2 } } : State).params.payBytes <
        (srcAux [0x31] [0x30, 0x30, 0x30]).payUsed + (srcAux [0x31] [0x30, 0x30, 0x30]).auxLen.toNat) := by
  decide

/-- V-R31 (a leaf, then an inner node at the end) and V-R29 (a count). -/
theorem witness_RleDecFollowsTheTwoModeWalk :
    (withTC (srcDst [0x31, 0x32, 0x31] 6)).TrieOk ∧ outputRangesOk (withTC (srcDst [0x31, 0x32, 0x31] 6)) = true ∧
    (withTC (srcDst [0x31, 0x32, 0x31] 6)).srcString = some (digitText [1, 2, 1]) ∧
    RleDecodes (withTC (srcDst [0x31, 0x32, 0x31] 6)).trie [1, 2, 1] [0x30, 0x31, 0x31, 0x30, 0x30, 0x30] ∧
    RleDecodes (withTC (srcDst [0x31, 0x34] 8)).trie [1, 4] (List.replicate 8 0x30) :=
  ⟨trieOk_TC _ (by decide) (by decide), by decide, by decide,
    .leaf [1, 2] [0x30, 0x31, 0x31, 0x30] [1] [0x30, 0x30] (by decide) (by decide) (by decide)
      (by decide) (.inner [1] [0x30, 0x30] (by decide) (by decide) (by decide) (by decide)),
    .count [1] [0x30, 0x30] 4 [] (by decide) (.inr (by decide)) (by decide) (by decide)⟩

theorem witness_RleDecSucceedsOnlyByTheWalk : (withTC (srcDst [0x31, 0x34] 8)).TrieOk ∧
    ∃ t, exec .rleDec (withTC (srcDst [0x31, 0x34] 8)) = .next t ∧ t.status.done = true :=
  ⟨trieOk_TC _ (by decide) (by decide), exists_next (p := fun t => t.status.done) (by decide)⟩

/-- V-R21 (no digit), a leaf whose payload does not fit, V-S3 (a count with no payload, and the same with a foreign
byte behind it), V-R27 (a payload that does not fit, and the same with a foreign byte behind it), V-R26 (a foreign
byte behind a count), V-R20 (truncated), a payload at the end that does not fit. -/
theorem witness_RleDecReportsTheFirstFailure :
    ((withTA (srcDst [0x30, 0x61] 64)).TrieOk ∧ (withTB (srcDst [0x39] 17)).TrieOk ∧
      (withTC (srcDst [0x31, 0x32] 3)).TrieOk) ∧
    (rleDecAt (withTA (srcDst [0x30, 0x61] 64)) [] [0] = true ∧ digitOf 0x61 = none ∧
      srcStartsWith (withTA (srcDst [0x30, 0x61] 64)) (rleDecRead [] [0] ++ [0x61]) = true) ∧
    (rleDecAt (withTC (srcDst [0x31, 0x32] 3)) [] [1] = true ∧ trieTC.has ([1] ++ [2]) = true ∧
      trieTC.isLeaf ([1] ++ [2]) = true ∧ trieTC.payload ([1] ++ [2]) = some [0x30, 0x31, 0x31, 0x30] ∧
      srcStartsWith (withTC (srcDst [0x31, 0x32] 3)) (rleDecRead [] [1] ++ digitText [2]) = true) ∧
    (rleDecAt (withTA (srcDst [0x30, 0x34] 64)) [] [0] = true ∧ trieTA.has ([0] ++ [4]) = false ∧
      trieTA.payload [0] = none ∧
      (withTA (srcDst [0x30, 0x34] 64)).srcString = some (rleDecRead [] [0] ++ digitText [4]) ∧
      srcStartsWith (withTA (srcDst [0x30, 0x34, 0x61] 64)) (rleDecRead [] [0] ++ digitText [4] ++ [0x61]) = true) ∧
    (rleDecAt (withTB (srcDst [0x39] 17)) [] [] = true ∧ trieTB.has ([] ++ [9]) = false ∧
      trieTB.payload [] = some [0x30, 0x31] ∧
      (withTB (srcDst [0x39] 17)).srcString = some (rleDecRead [] [] ++ digitText [9]) ∧ 17 < 0 + numberOf [9] * 2 ∧
      srcStartsWith (withTB (srcDst [0x39, 0x78] 17)) (rleDecRead [] [] ++ digitText [9] ++ [0x78]) = true) ∧
    (rleDecAt (withTB (srcDst [0x32, 0x78] 4)) [] [] = true ∧ digitOf 0x78 = none ∧ trieTB.has ([] ++ [2]) = false ∧
      srcStartsWith (withTB (srcDst [0x32, 0x78] 4)) (rleDecRead [] [] ++ digitText [2] ++ [0x78]) = true ∧
      0 + numberOf [2] * 2 ≤ 4) ∧
    (rleDecAt (withTA (srcDst [0x30, 0x33] 64)) [] [0, 3] = true ∧ trieTA.payload [0, 3] = none ∧
      (withTA (srcDst [0x30, 0x33] 64)).srcString = some (rleDecRead [] [0, 3])) ∧
    (rleDecAt (withTC (srcDst [0x31] 1)) [] [1] = true ∧ trieTC.payload [1] = some [0x30, 0x30] ∧
      (withTC (srcDst [0x31] 1)).srcString = some (rleDecRead [] [1])) :=
  ⟨⟨trieOk_TA _ (by decide) (by decide), trieOk_TB _ (by decide) (by decide), trieOk_TC _ (by decide) (by decide)⟩,
    by decide, by decide, by decide, by decide, by decide, by decide, by decide⟩

/-- A state with the trie of `s1`, `key` as SRC and `pay` as AUX. -/
def insertState (s1 : State) (key pay : Bytes) : State := { srcAux key pay with trie := s1.trie, payUsed := s1.payUsed }

/-- A state with the trie of `s3` and `text` as SRC. -/
def decodeState (s3 : State) (text : Bytes) (cap : Nat) : State := { srcDst text cap with trie := s3.trie }

/-- One key is inserted after CLR_TRIE, and a text is decoded with it. -/
theorem insert_decode (key pay : Bytes)
    (h : nextIs (exec .clrTrie State.reset)
      (fun s1 => nextIs (exec .trieInsert (insertState s1 key pay)) (fun s3 => s3.status.done)) = true) :
    ∃ s1 s3, exec .clrTrie State.reset = .next s1 ∧ (insertState s1 key pay).trie = s1.trie ∧
      exec .trieInsert (insertState s1 key pay) = .next s3 ∧ s3.status.done = true := by
  obtain ⟨s1, h1, p1⟩ := exists_next h
  obtain ⟨s3, h3, p3⟩ := exists_next p1
  exact ⟨s1, s3, h1, rfl, h3, p3⟩

/-- The document's string, with a DST that holds it exactly and one that is a byte short, in states that hold the
inserted trie. -/
theorem witness_SingleKeyRoundTrip : ∃ s1 s3, exec .clrTrie State.reset = .next s1 ∧
    ((insertState s1 [0x30, 0x33] [0x30, 0x30, 0x30]).trie = s1.trie ∧
      (insertState s1 [0x30, 0x33] [0x30, 0x30, 0x30]).srcString = some (rleText [0x30, 0x30, 0x30]) ∧
      (insertState s1 [0x30, 0x33] [0x30, 0x30, 0x30]).auxString = some [0x30, 0x30, 0x30]) ∧
    exec .trieInsert (insertState s1 [0x30, 0x33] [0x30, 0x30, 0x30]) = .next s3 ∧ s3.status.done = true ∧
    ((decodeState s3 [0x30, 0x33] 3).trie = s3.trie ∧ outputRangesOk (decodeState s3 [0x30, 0x33] 3) = true ∧
      (decodeState s3 [0x30, 0x33] 3).srcString = some (rleText [0x30, 0x30, 0x30])) ∧
    ((decodeState s3 [0x30, 0x33] 2).trie = s3.trie ∧ outputRangesOk (decodeState s3 [0x30, 0x33] 2) = true ∧
      (decodeState s3 [0x30, 0x33] 2).srcString = some (rleText [0x30, 0x30, 0x30])) := by
  obtain ⟨s1, s3, h1, ht, h3, hd⟩ := insert_decode [0x30, 0x33] [0x30, 0x30, 0x30] (by decide)
  exact ⟨s1, s3, h1,
    ⟨ht, (by decide : (srcAux [0x30, 0x33] [0x30, 0x30, 0x30]).srcString = some (rleText [0x30, 0x30, 0x30])),
      (by decide : (srcAux [0x30, 0x33] [0x30, 0x30, 0x30]).auxString = some [0x30, 0x30, 0x30])⟩, h3, hd,
    ⟨rfl, (by decide : outputRangesOk (srcDst [0x30, 0x33] 3) = true),
      (by decide : (srcDst [0x30, 0x33] 3).srcString = some (rleText [0x30, 0x30, 0x30]))⟩,
    ⟨rfl, (by decide : outputRangesOk (srcDst [0x30, 0x33] 2) = true),
      (by decide : (srcDst [0x30, 0x33] 2).srcString = some (rleText [0x30, 0x30, 0x30]))⟩⟩

/-- The key "03", decoded twice in a row; and the empty key, decoded as a count. -/
theorem witness_SingleKeyDecodesOnlyItsRepeats :
    (∃ s1 s3 s5, exec .clrTrie State.reset = .next s1 ∧
      exec .trieInsert (insertState s1 [0x30, 0x33] [0x31]) = .next s3 ∧ s3.status.done = true ∧
      exec .rleDec (decodeState s3 [0x30, 0x33, 0x30, 0x33] 8) = .next s5 ∧ s5.status.done = true) ∧
    (∃ s1 s3 s5, exec .clrTrie State.reset = .next s1 ∧
      exec .trieInsert (insertState s1 [] [0x31]) = .next s3 ∧ s3.status.done = true ∧
      exec .rleDec (decodeState s3 [0x33] 8) = .next s5 ∧ s5.status.done = true) := by
  have chain : ∀ (key text : Bytes), nextIs (exec .clrTrie State.reset) (fun s1 =>
      nextIs (exec .trieInsert (insertState s1 key [0x31])) (fun s3 =>
        s3.status.done && nextIs (exec .rleDec (decodeState s3 text 8)) (fun s5 => s5.status.done))) = true →
      ∃ s1 s3 s5, exec .clrTrie State.reset = .next s1 ∧
        exec .trieInsert (insertState s1 key [0x31]) = .next s3 ∧ s3.status.done = true ∧
        exec .rleDec (decodeState s3 text 8) = .next s5 ∧ s5.status.done = true := by
    intro key text h
    obtain ⟨s1, h1, p1⟩ := exists_next h
    obtain ⟨s3, h3, p3⟩ := exists_next p1
    rw [Bool.and_eq_true] at p3
    obtain ⟨s5, h5, p5⟩ := exists_next p3.2
    exact ⟨s1, s3, s5, h1, h3, p3.1, h5, p5⟩
  exact ⟨chain _ _ (by decide), chain _ _ (by decide)⟩

/-- V-F1, V-F2, V-F3, V-F4 and V-F6: each range outside BUF by one byte, the overlap, and ranges that pass. -/
theorem witness_RangeChecksComeFirst :
    (isOutputCommand .hufEnc = true ∧ 512 < ({ State.reset with srcBase := 510, srcLen := 3 } : State).srcBase.toNat + 3) ∧
    (512 < ({ State.reset with dstBase := 0x1F0, dstCap := 0x11 } : State).dstBase.toNat + 0x11) ∧
    (({ State.reset with srcLen := 6, dstBase := 5, dstCap := 5 } : State).srcDstOverlap = true) ∧
    (({ State.reset with srcLen := 6, dstBase := 6, dstCap := 5 } : State).srcDstOverlap = false) ∧
    (∃ t, exec .rleEnc { State.reset with srcBase := 512 } = .next t ∧ t.status.done = true) ∧
    (∃ t, exec (.ctLoad 0x41) State.reset = .next t ∧ t.status.done = true) ∧
    (512 < ({ State.reset with auxBase := 511, auxLen := 2 } : State).auxBase.toNat + 2) ∧
    (∃ t, exec .trieInsert (srcAux [0x31] []) = .next t ∧ t.status.done = true) ∧
    (∃ t, exec .nop State.reset = .next t ∧ t.status.done = true) :=
  ⟨by decide, by decide, by decide, by decide,
    exists_next (p := fun t => t.status.done) (by decide),
    exists_next (p := fun t => t.status.done) (by decide), by decide,
    exists_next (p := fun t => t.status.done) (by decide),
    exists_next (p := fun t => t.status.done) (by decide)⟩

theorem witness_EveryCommandCompletes : (withTC (srcDst [0x31, 0x34] 8)).TrieOk ∧
    operandsWritten .rleDec (withTC (srcDst [0x31, 0x34] 8)) = true ∧
    operandsWritten .trieInsert (srcAux [0x31] [0x30]) = true ∧
    operandsWritten .hufEnc ({ State.reset with srcBase := 600, srcLen := 1 } : State) = true :=
  ⟨trieOk_TC _ (by decide) (by decide), by decide, by decide, by decide⟩

/-- The next states the statements over all commands speak of: one success and one error of each kind. Meets the
hypotheses of CompletionRecordHasTwoForms, CommandsKeepTheHostRegisters, FailedCommandsKeepTheTables and
CommandsWriteOnlyTheDestination. -/
theorem witness_AllCommands :
    (∃ t, exec .rleEnc (srcDst [0x61, 0x61] 8) = .next t ∧ t.status.done = true) ∧
    (∃ t, exec .rleEnc (srcDst [0x61, 0x61] 1) = .next t ∧ t.status.err = true) ∧
    (∃ t, exec .trieInsert (srcAux [0x31] [0x30]) = .next t ∧ t.status.done = true) ∧
    (∃ t, exec .trieInsert (srcAux [0x61] [0x30]) = .next t ∧ t.status.err = true) :=
  ⟨exists_next (p := fun t => t.status.done) (by decide),
    exists_next (p := fun t => t.status.err) (by decide),
    exists_next (p := fun t => t.status.done) (by decide),
    exists_next (p := fun t => t.status.err) (by decide)⟩

/-- CLR_CT changes CT, CLR_TRIE the trie, and a soft reset the trie too. -/
theorem witness_TablesChange :
    (∃ t, step (latched (withCodes State.reset) 0x01) = .next t ∧
      decide (codeAt t.ct 0x61 ≠ codeAt (latched (withCodes State.reset) 0x01).ct 0x61) = true) ∧
    (∃ t, step (latched (withTA State.reset) 0x02) = .next t ∧
      decide (t.payUsed ≠ (latched (withTA State.reset) 0x02).payUsed) = true) ∧
    (∃ t, step (withEvents (withTA State.reset) (.regWrite 4 0x004 2) []) = .next t ∧
      decide (t.payUsed ≠ (withTA State.reset).payUsed) = true) :=
  ⟨exists_next (by decide), exists_next (by decide), exists_next (by decide)⟩

/-- RLE_ENC with memories that differ outside SRC, its AUX range included; TRIE_INSERT with ones that differ outside
SRC and AUX; NOP reads neither. -/
theorem witness_CommandsReadOnlyTheirOperands :
    (readsSrc .rleEnc = true ∧ readsAux .rleEnc = false ∧
      ∀ k, k < (srcDst [0x61, 0x61] 8).srcLen.toNat →
        (Memory.writeBytes [] 0 [0x61, 0x61, 0x62]).read ((srcDst [0x61, 0x61] 8).srcBase.toNat + k) =
          (srcDst [0x61, 0x61] 8).buf.read ((srcDst [0x61, 0x61] 8).srcBase.toNat + k)) ∧
    (readsSrc .trieInsert = true ∧ readsAux .trieInsert = true ∧ 0 < (srcAux [0x31] [0x30]).auxLen.toNat ∧
      (∀ k, k < (srcAux [0x31] [0x30]).srcLen.toNat →
        (Memory.writeBytes (srcAux [0x31] [0x30]).buf 0x21 [0x77]).read ((srcAux [0x31] [0x30]).srcBase.toNat + k) =
          (srcAux [0x31] [0x30]).buf.read ((srcAux [0x31] [0x30]).srcBase.toNat + k)) ∧
      (∀ k, k < (srcAux [0x31] [0x30]).auxLen.toNat →
        (Memory.writeBytes (srcAux [0x31] [0x30]).buf 0x21 [0x77]).read ((srcAux [0x31] [0x30]).auxBase.toNat + k) =
          (srcAux [0x31] [0x30]).buf.read ((srcAux [0x31] [0x30]).auxBase.toNat + k))) ∧
    (readsSrc .nop = false ∧ readsAux .nop = false) := by decide

/-- `srcDst text` with the SRC range one byte longer than the text, that byte unwritten. -/
def srcShort (text : Bytes) : State := { srcDst text 64 with srcLen := BitVec.ofNat 32 (text.length + 1) }

/-- Key "1" and a payload of two bytes, the second unwritten. -/
def auxShort : State := { srcAux [0x31] [0x30] with auxLen := 2 }

/-- Each place where a command comes to an unwritten byte, and the host's read of the last byte of BUF. -/
theorem witness_UnwrittenBytesFault :
    (isOutputCommand .hufDec = true ∧ outputRangesOk (srcShort []) = true ∧ 0 < (srcShort []).srcLen.toNat ∧
      State.reset.buf.read 0 = none) ∧
    (outputRangesOk (withCodes (srcShort [0x62])) = true ∧ srcUnwrittenAfter (withCodes (srcShort [0x62])) [0x62] = true ∧
      [(0x62 : Byte)].map (codeAt (withCodes (srcShort [0x62])).ct) = [[true, true]].map some) ∧
    (hufDecAt (withTree (srcShort [0x30, 0x31]) t1) [([false], 0x61)] [true] 2 = true ∧
      srcUnwrittenAfter (withTree (srcShort [0x30, 0x31]) t1) (hufDecRead [([false], 0x61)] [true]) = true) ∧
    (outputRangesOk (srcShort [0x61, 0x62, 0x62]) = true ∧
      srcUnwrittenAfter (srcShort [0x61, 0x62, 0x62]) [0x61, 0x62, 0x62] = true ∧
      [(0x61 : Byte), 0x62, 0x62].splitBy (fun a b => a == b) = [[0x61]] ++ [[0x62, 0x62]]) ∧
    (((withTC (srcShort [0x31])).TrieOk ∧ rleDecAt (withTC (srcShort [0x31])) [] [1] = true ∧
        srcUnwrittenAfter (withTC (srcShort [0x31])) (rleDecRead [] [1]) = true) ∧
      ((withTC (srcShort [0x31, 0x34])).TrieOk ∧ rleDecAt (withTC (srcShort [0x31, 0x34])) [] [1] = true ∧
        trieTC.has ([1] ++ [4]) = false ∧
        srcUnwrittenAfter (withTC (srcShort [0x31, 0x34])) (rleDecRead [] [1] ++ digitText [4]) = true)) ∧
    ((srcShort [0x31]).srcOk = true ∧ (srcShort [0x31]).srcLen.toNat ≤ 255 ∧
      srcUnwrittenAfter (srcShort [0x31]) (ascii [true]) = true) ∧
    ((srcShort [0x31]).auxOk = true ∧ srcUnwrittenAfter (srcShort [0x31]) (digitText [1]) = true) ∧
    (auxShort.srcOk = true ∧ auxShort.auxOk = true ∧ auxShort.srcString = some (digitText [1]) ∧
      (∀ j, j ≤ 1 → (auxShort.trie.has (([1] : List Digit).take j) = true ↔ j ≤ 0)) ∧
      auxShort.trieUsed + (1 - 0) ≤ auxShort.params.trieNodes ∧
      auxShort.payUsed + auxShort.auxLen.toNat ≤ auxShort.params.payBytes ∧
      auxUnwrittenAfter auxShort [0x30] = true) ∧
    (State.reset.status.busy = false ∧ 511 < State.reset.params.bufBytes ∧ State.reset.buf.read 511 = none) :=
  ⟨by decide, by decide, by decide +kernel, by decide,
    ⟨⟨trieOk_TC _ (by decide) (by decide), by decide, by decide⟩,
      ⟨trieOk_TC _ (by decide) (by decide), by decide, by decide, by decide⟩⟩,
    by decide, by decide, by decide, by decide⟩

theorem witness_CommandsKeepTheTrieInvariants : (withTA (srcAux [0x37] [0x31])).TrieOk ∧
    ∃ t, exec .trieInsert (withTA (srcAux [0x37] [0x31])) = .next t ∧ t.status.done = true :=
  ⟨trieOk_TA _ (by decide) (by decide), exists_next (p := fun t => t.status.done) (by decide)⟩

/-- An idle block, and a busy one in which the host moves: the hypotheses of the statements of the register port,
the buffer port and WAIT; and the host's turn in both, for the access obligation and hardware reset. -/
theorem witness_HostMoves :
    (State.reset.status.busy = false ∧ hostsTurn State.reset = true) ∧
    ((hostChosen State.reset .wait).status.busy = true ∧
      (hostChosen State.reset .wait).host.schedule.head? = some .host ∧
      hostsTurn (hostChosen State.reset .wait) = true) ∧
    ((0x044 : BitVec 12) ∈ [(0x000 : BitVec 12), 0x028, 0x02C, 0x034, 0x038, 0x03C, 0x040, 0x044]) ∧
    ((0x008 : BitVec 12).toNat % 4 = 0 ∧ (0x00C : BitVec 12).toNat % 4 = 0 ∧ (0xFFC : BitVec 12).toNat % 4 = 0) ∧
    ((511 : Nat) < 512 ∧ (18 : Nat) ≤ 18) ∧
    ((2 : Nat) ≠ 4 ∧ (0x009 : BitVec 12).toNat % 4 ≠ 0) ∧
    (511 < State.reset.params.bufBytes ∧ State.reset.params.bufBytes ≤ 512 ∧
      (srcDst [0x61] 0).buf.read 0 = some 0x61) := by decide

/-- Values that agree in the bits a register has and differ in reserved ones. -/
theorem witness_ReservedBits :
    ((0xFFFFFFFE : Word) &&& 0x00000003 = 0x00000002 &&& 0x00000003) ∧
    ((0xFFFFFFF6 : Word) &&& 0x0000000E = 0x00000006 &&& 0x0000000E) ∧
    ((0xFFFFFFFF : Word) &&& 0x800001FF = 0x800001FF &&& 0x800001FF) := by decide

theorem witness_ResetMeetsTheInvariant : Params.vectors.Wf ∧
    ({ bufBytes := 1, trieNodes := 1, payBytes := 0, regBase := 0 } : Params).Wf := by decide

/-- A state other than reset that meets the invariant, and a step from it that completes. -/
theorem witness_StepKeepsTheInvariant : (latched (withTC (srcDst [0x31, 0x34] 8)) 0x32).Inv ∧
    ∃ t, step (latched (withTC (srcDst [0x31, 0x34] 8)) 0x32) = .next t ∧ t.status.done = true := by
  refine ⟨⟨by decide, ⟨by decide, fun a h => ?_⟩, ⟨rfl, fun a h => ?_⟩, fun sym c h => ?_, ?_, ?_⟩,
    exists_next (p := fun t => t.status.done) (by decide)⟩
  · have h : ((Memory.writeBytes [] 0 [0x31, 0x34]).read a).isSome = true := h
    rw [Memory.read_writeBytes] at h
    split at h
    · rename_i ha
      show a < 512
      simp only [List.length_cons, List.length_nil] at ha
      omega
    · simp [Memory.read, SortedMap.find] at h
  · simp [latched, withTC, srcDst, State.reset, State.resetWith, State.acceptCommand, Memory.read, SortedMap.find] at h
  · have h : codeAt emptyCodeTable sym = some c := h
    simp at h
  · simp [State.StatusOk, latched, State.acceptCommand, Status.accept]
  · exact trieOk_TC _ (by decide) (by decide)

/-- An engine step changes OUT_LEN, an acceptance clears DONE, a STATUS write clears DONE. -/
theorem witness_ResultRegistersChange :
    (∃ t, step (latched (srcDst [0x61] 8) 0x30) = .next t ∧
      decide (t.outLen ≠ (latched (srcDst [0x61] 8) 0x30).outLen) = true) ∧
    (∃ t, step (withEvents { State.reset with status := okStatus State.reset } (.regWrite 4 0x00C 0) []) = .next t ∧
      decide (t.status.done ≠ true) = true) ∧
    (∃ t, step (withEvents { State.reset with status := okStatus State.reset } (.regWrite 4 0x008 2) []) = .next t ∧
      decide (t.status.done ≠ true) = true) :=
  ⟨exists_next (by decide), exists_next (by decide), exists_next (by decide)⟩

end Sys2Proof.Tests
end

section
/-! The invariant of every step (O59): one lemma per clause of `State.Inv` and per operation that could break it,
then the commands, the host events and the step. -/

namespace Sys2Proof.Machine

/-! ### Memories inside their size -/

/-- A memory is canonical and its written bytes lie below `size`: the form of R45 and of R46. -/
def Memory.Inside (m : Memory) (size : Nat) : Prop :=
  m.wf = true ∧ ∀ a, (m.read a).isSome = true → a < size

theorem State.bufOk_iff (s : State) : s.BufOk ↔ s.buf.Inside s.params.bufBytes := Iff.rfl

theorem State.payMemOk_iff (s : State) : s.PayMemOk ↔ s.payMem.Inside s.params.payBytes := Iff.rfl

theorem Memory.inside_nil (size : Nat) : Memory.Inside [] size :=
  ⟨rfl, fun _ h => nomatch h⟩

/-- A string written below `size` leaves the memory inside it. -/
theorem Memory.Inside.writeBytes {m : Memory} {size base : Nat} {bs : Bytes} (hm : m.Inside size)
    (hb : ∀ a, base ≤ a → a < base + bs.length → a < size) : (m.writeBytes base bs).Inside size := by
  obtain ⟨hwf, hlt⟩ := hm
  refine ⟨Memory.wf_writeBytes m base bs hwf, fun a ha => ?_⟩
  rw [Memory.read_writeBytes] at ha
  split at ha
  · next h => exact hb a h.1 h.2
  · exact hlt a ha

/-- A byte written below `size` leaves the memory inside it. -/
theorem Memory.Inside.write {m : Memory} {size a : Nat} {v : Byte} (hm : m.Inside size) (ha : a < size) :
    (m.write a v).Inside size :=
  hm.writeBytes (base := a) (bs := [v]) fun b h1 h2 => by simp only [List.length_singleton] at h2; omega

/-! ### BUF -/

/-- An output command succeeds only with good ranges (R90). -/
theorem outputRun_ranges {i : Instr} {s : State} {out : Bytes} (h : outputRun i s = .ok out) :
    outputRangesOk s = true := by
  obtain ⟨_, hc, -⟩ := Run.andThen_eq_ok.1 h
  exact (checkSrcDst_eq_ok s).1 hc

theorem commitOutput_bufOk {s : State} {out : Bytes} (hs : s.BufOk) (hr : outputRangesOk s = true)
    (hl : out.length ≤ s.dstCap.toNat) : (s.commitOutput out).BufOk := by
  obtain ⟨-, hd, -⟩ := (outputRangesOk_iff s).1 hr
  simp only [State.dstOk, inbuf, decide_eq_true_eq] at hd
  exact Memory.Inside.writeBytes (size := s.params.bufBytes) hs fun a _ h2 => by omega

theorem drawDst_bufOk {s : State} (hs : s.BufOk) : s.drawDst.BufOk :=
  Memory.Inside.writeBytes (size := s.params.bufBytes) hs fun a h1 h2 => by
    rw [freeBytes_length, State.dstBytes] at h2
    omega

/-! ### The completion record -/

/-- The codes of R116. -/
theorem ErrorKind.code_range (e : ErrorKind) : 0x01 ≤ e.code.toNat ∧ e.code.toNat ≤ 0x0B := by
  cases e <;> decide

theorem finishOk_statusOk (s : State) (n : Nat) : (s.finishOk n).StatusOk := by
  simp [State.StatusOk]

theorem raiseError_statusOk (s : State) (e : ErrorKind) (pos : Word) : (s.raiseError e pos).StatusOk := by
  simp [State.StatusOk, e.code_range]

theorem acceptCommand_statusOk (s : State) (v : Word) : (s.acceptCommand v).StatusOk := by
  simp [State.StatusOk]

/-- A STATUS write only clears flags, and ERRCODE together with ERR (R32). -/
theorem writeOneToClear_statusOk {s : State} (hs : s.StatusOk) (v : Word) :
    ({ s with status := s.status.writeOneToClear v } : State).StatusOk := by
  obtain ⟨hexcl, hbusy, hcode0, hcode, hout, hpos⟩ := hs
  cases hv : v.getLsbD 2 with
  | true =>
    simp only [State.StatusOk, Status.writeOneToClear, hv]
    simp +contextual [hbusy, hpos]
  | false =>
    simp only [State.StatusOk, Status.writeOneToClear, hv]
    refine ⟨?_, ?_, ?_, ?_, ?_, ?_⟩
    · simpa using fun hd _ he => hexcl ⟨hd, he⟩
    · simp +contextual [hbusy]
    · simpa using hcode0
    · simpa using hcode
    · simpa using hout
    · simpa using fun hd _ => hpos hd

/-! ### CT -/

theorem emptyCodeTable_codesOk {s : State} (h : s.ct = emptyCodeTable) : s.CodesOk := fun sym c hc => by
  rw [h, codeAt_empty] at hc
  exact nomatch hc

/-- The path to a leaf below an inner node has at least one step. -/
theorem HuffTree.node_path_length_pos {l r : HuffTree} {x : Byte} {c : Code}
    (h : (x, c) ∈ (HuffTree.node l r).paths) : 1 ≤ c.length := by
  simp only [HuffTree.paths, List.mem_append, List.mem_map, Prod.mk.injEq] at h
  rcases h with ⟨_, _, -, rfl⟩ | ⟨_, _, -, rfl⟩ <;> simp

/-- Everything CT_LOAD can answer with a state for. -/
theorem runCtLoad_eq_ok {sym : Byte} {s s' : State} {n : Nat} (h : runCtLoad sym s = .ok (s', n)) :
    ∃ code : Code, code.length ≤ Config.maxCodeLen ∧ s' = { s with ct := setCode s.ct sym (loadedEntry code) } := by
  obtain ⟨_, -, h⟩ := Run.andThen_eq_ok.1 h
  split at h
  · simp at h
  next hlen =>
    obtain ⟨code, hcode, h⟩ := Run.andThen_eq_ok.1 h
    simp only [Run.ok.injEq, Prod.mk.injEq] at h
    have hl := (readCode_eq_ok.1 hcode).1
    exact ⟨code, by omega, h.1.symm⟩

/-- Everything GEN_CODES can answer with a state for: the code "0" of a single leaf, or the paths of a tree whose
root is an inner node. -/
theorem runGenCodes_eq_ok {s s' : State} {n : Nat} (h : runGenCodes s = .ok (s', n)) :
    ∃ t, s' = { s with ct := t } ∧
      ((∃ sym, t = setCode emptyCodeTable sym (some [false])) ∨
       (∃ l r, HuffTree.depth (.node l r) ≤ Config.maxCodeLen ∧ Walked emptyCodeTable t [] (.node l r))) := by
  unfold runGenCodes at h
  split at h
  · simp at h
  obtain ⟨t, ht, h⟩ := Run.andThen_eq_ok.1 h
  simp only [Run.ok.injEq, Prod.mk.injEq] at h
  refine ⟨t, h.1.symm, ?_⟩
  split at ht
  · next sym _ => exact .inl ⟨sym, by simpa [eq_comm] using ht⟩
  · next hroot =>
    obtain ⟨tr, hholds, hdepth, hwalked⟩ := visit_eq_ok ht
    cases tr with
    | leaf sym => rw [holdsTree_leaf.1 hholds] at hroot; exact nomatch hroot
    | node l r => exact .inr ⟨l, r, hdepth, hwalked⟩

theorem ctLoad_codesOk {s : State} (hs : s.CodesOk) {sym : Byte} {code : Code}
    (hl : code.length ≤ Config.maxCodeLen) :
    ({ s with ct := setCode s.ct sym (loadedEntry code) } : State).CodesOk := fun x c hc => by
  rw [codeAt_setCode] at hc
  split at hc
  · cases code <;> simp [loadedEntry] at hc
    subst hc
    exact ⟨by simp, hl⟩
  · exact hs x c hc

theorem genCodes_codesOk {s s' : State} {n : Nat} (h : runGenCodes s = .ok (s', n)) : s'.CodesOk := by
  intro x c hc
  obtain ⟨t, rfl, ⟨sym, rfl⟩ | ⟨l, r, hdepth, -, -, hcodes, -⟩⟩ := runGenCodes_eq_ok h
  · rw [codeAt_setCode, codeAt_empty] at hc
    split at hc
    · cases hc; decide
    · exact nomatch hc
  · rcases (hcodes x c).1 hc with ⟨d, hd, rfl⟩ | h0
    · have hle := HuffTree.path_length_le hd
      exact ⟨HuffTree.node_path_length_pos hd, hle.trans hdepth⟩
    · rw [codeAt_empty] at h0
      exact nomatch h0

/-! ### The trie and PAYMEM -/

/-- The bare root meets R49 wherever the pool has room for it. -/
theorem bareTrie_trieOk {s : State} (ht : s.trie = Trie.bare) (hu : s.payUsed = 0) (hn : 1 ≤ s.params.trieNodes) :
    s.TrieOk := by
  apply trieOk_of_entries <;> simp only [State.trieUsed, ht, hu]
  case hn => exact ⟨Nat.le_refl _, hn⟩
  case hp => exact Nat.zero_le _
  all_goals decide

/-- Everything TRIE_INSERT can answer with a state for: the pool and PAYMEM have room for the key and its payload. -/
theorem runTrieInsert_eq_ok {s s' : State} {n : Nat} (h : runTrieInsert s = .ok (s', n)) :
    ∃ (key : List Digit) (pay : Bytes),
      s.trieUsed + (key.length - s.trie.longestPrefix key key.length) ≤ s.params.trieNodes ∧
      s.payUsed + pay.length ≤ s.params.payBytes ∧
      s' = { s with
        trie := insertedTrie s.trie key pay
        payMem := s.payMem.writeBytes s.payUsed pay
        payUsed := s.payUsed + pay.length } := by
  simp only [runTrieInsert] at h
  obtain ⟨_, -, h⟩ := Run.andThen_eq_ok.1 h
  obtain ⟨key, -, h⟩ := Run.andThen_eq_ok.1 h
  split at h
  · simp at h
  next hnodes =>
  split at h
  · simp at h
  next hbytes =>
  obtain ⟨pay, hpay, h⟩ := Run.andThen_eq_ok.1 h
  simp only [Run.ok.injEq, Prod.mk.injEq] at h
  have hl := (Memory.readBytes_eq_some.1 (readAux_eq_ok.1 hpay)).1
  exact ⟨key, pay, by omega, by omega, by rw [hl]; exact h.1.symm⟩

theorem insertedTrie_trieOk {s : State} (hs : s.TrieOk) {key : List Digit} {pay : Bytes} {m : Memory}
    (hnodes : s.trieUsed + (key.length - s.trie.longestPrefix key key.length) ≤ s.params.trieNodes)
    (hbytes : s.payUsed + pay.length ≤ s.params.payBytes) :
    ({ s with trie := insertedTrie s.trie key pay, payMem := m, payUsed := s.payUsed + pay.length } : State).TrieOk := by
  obtain ⟨hwf, hroot, hprefix, hleaf, ⟨hpos, -⟩, -, hsum⟩ := hs
  obtain ⟨hhas, -, hlen, hwf', hsum'⟩ := insertedTrie_spec (key := key) (pay := pay) hwf hroot hprefix
  simp only [State.trieUsed] at hpos hnodes
  refine ⟨hwf', ?_, insertedTrie_prefix_closed hwf hroot hprefix, insertedTrie_leaf hwf hroot hprefix hleaf,
    ?_, hbytes, ?_⟩
  · simp [hhas, hroot]
  · simp only [State.trieUsed, hlen]; omega
  · simp only; omega

/-! ### Commands -/

/-- The pseudocode of a command with no output keeps the invariants of the tables it may write. -/
theorem tableRun_tablesOk {i : Instr} {s s' : State} {n : Nat} (h : tableRun i s = .ok (s', n)) :
    (s.CodesOk → s'.CodesOk) ∧ (s.PayMemOk → s'.PayMemOk) ∧ (s.TrieOk → s'.TrieOk) := by
  cases i with
  | clrCt =>
    cases h
    exact ⟨fun _ => emptyCodeTable_codesOk rfl, id, id⟩
  | clrTrie =>
    cases h
    exact ⟨id, id, fun ⟨_, _, _, _, hused, _⟩ => bareTrie_trieOk rfl rfl (hused.1.trans hused.2)⟩
  | ctLoad sym =>
    obtain ⟨code, hl, rfl⟩ := runCtLoad_eq_ok h
    exact ⟨fun hs => ctLoad_codesOk hs hl, id, id⟩
  | genCodes =>
    have hc := genCodes_codesOk h
    obtain ⟨t, rfl, -⟩ := runGenCodes_eq_ok h
    exact ⟨fun _ => hc, id, id⟩
  | trieInsert =>
    obtain ⟨key, pay, hnodes, hbytes, rfl⟩ := runTrieInsert_eq_ok h
    exact ⟨id, fun hs => Memory.Inside.writeBytes (size := s.params.payBytes) hs fun a _ h2 => by omega,
      fun hs => insertedTrie_trieOk hs hnodes hbytes⟩
  | _ =>
    cases h
    exact ⟨id, id, id⟩

/-- R49: every command keeps the trie invariants. -/
theorem exec_trieOk {i : Instr} {s t : State} (hs : s.TrieOk) (h : exec i s = .next t) : t.TrieOk := by
  rcases exec_eq_next h with ⟨-, out, -, -, rfl⟩ | ⟨-, e, pos, -, -, rfl⟩ | ⟨-, s', n, hr, -, rfl⟩ |
    ⟨-, e, pos, -, -, rfl⟩
  · exact hs
  · exact hs
  · obtain ⟨-, -, hkeep⟩ := tableRun_tablesOk hr
    exact hkeep hs
  · exact hs

/-- The invariant does not speak of the host's side. -/
theorem State.Inv.withHost {s : State} (hs : s.Inv) (h : HostSide) : ({ s with host := h } : State).Inv := hs

theorem raiseError_inv {s : State} (hs : s.Inv) (e : ErrorKind) (pos : Word) : (s.raiseError e pos).Inv := by
  obtain ⟨hparams, hbuf, hpay, hct, -, htrie⟩ := hs
  exact ⟨hparams, hbuf, hpay, hct, raiseError_statusOk s e pos, htrie⟩

theorem finishOk_inv {s : State} (hs : s.Inv) (n : Nat) : (s.finishOk n).Inv := by
  obtain ⟨hparams, hbuf, hpay, hct, -, htrie⟩ := hs
  exact ⟨hparams, hbuf, hpay, hct, finishOk_statusOk s n, htrie⟩

/-- Every command keeps the invariant. -/
theorem exec_inv {i : Instr} {s t : State} (hs : s.Inv) (h : exec i s = .next t) : t.Inv := by
  obtain ⟨hparams, hbuf, hpay, hct, hstatus, htrie⟩ := hs
  rcases exec_eq_next h with ⟨-, out, hr, hl, rfl⟩ | ⟨-, e, pos, -, -, rfl⟩ | ⟨-, s', n, hr, ⟨hframe, -, -⟩, rfl⟩ |
    ⟨-, e, pos, -, -, rfl⟩
  · exact finishOk_inv (s := s.commitOutput out)
      ⟨hparams, commitOutput_bufOk hbuf (outputRun_ranges hr) hl, hpay, hct, hstatus, htrie⟩ _
  · exact raiseError_inv (s := s.drawDst) ⟨hparams, drawDst_bufOk hbuf, hpay, hct, hstatus, htrie⟩ e pos
  · obtain ⟨kct, kpay, ktrie⟩ := tableRun_tablesOk hr
    have kct := kct hct
    have kpay := kpay hpay
    have ktrie := ktrie htrie
    rw [hframe] at kct kpay ktrie ⊢
    exact finishOk_inv (s := { s with ct := s'.ct, trie := s'.trie, payMem := s'.payMem, payUsed := s'.payUsed })
      ⟨hparams, hbuf, kpay, kct, hstatus, ktrie⟩ n
  · exact raiseError_inv (s := s) ⟨hparams, hbuf, hpay, hct, hstatus, htrie⟩ e pos

/-! ### Resets and host events -/

/-- R55: the state after a hardware reset meets the invariant. -/
theorem resetWith_inv {p : Params} (hp : p.Wf) (n : Nat) (h : HostSide) : (State.resetWith p n h).Inv :=
  ⟨hp, Memory.inside_nil _, Memory.inside_nil _, emptyCodeTable_codesOk rfl, by simp [State.StatusOk],
    bareTrie_trieOk rfl rfl hp.2.1.1⟩

/-- R134: a soft reset keeps BUF and PAYMEM, and the rest is as after a hardware reset. -/
theorem softReset_inv {s : State} (hs : s.Inv) : s.softReset.Inv := by
  obtain ⟨hparams, hbuf, hpay, -, -, -⟩ := hs
  obtain ⟨-, -, -, hct, hstatus, htrie⟩ := resetWith_inv hparams s.draws s.host
  exact ⟨hparams, hbuf, hpay, hct, hstatus, htrie⟩

theorem writeCmd_inv {s : State} (hs : s.Inv) (v : Word) : (writeCmd s v).Inv := by
  unfold writeCmd
  split
  · exact hs
  · obtain ⟨hparams, hbuf, hpay, hct, -, htrie⟩ := hs
    exact ⟨hparams, hbuf, hpay, hct, acceptCommand_statusOk s v, htrie⟩

theorem writeCtrl_inv {s : State} (hs : s.Inv) (v : Word) : (writeCtrl s v).Inv := by
  unfold writeCtrl
  split
  · exact softReset_inv hs
  · exact hs

/-- Every register write keeps the invariant: most store a word it does not speak of. -/
theorem writeReg_inv {s : State} (hs : s.Inv) (r : Reg) (v : Word) : (writeReg s r v).Inv := by
  cases r with
  | ctrl => exact writeCtrl_inv hs v
  | cmd => exact writeCmd_inv hs v
  | status =>
    obtain ⟨hparams, hbuf, hpay, hct, hstatus, htrie⟩ := hs
    exact ⟨hparams, hbuf, hpay, hct, writeOneToClear_statusOk hstatus v, htrie⟩
  | _ => exact hs

/-- Every host event keeps the invariant. -/
theorem hostEvent_inv {s t : State} {e : HostEvent} (hs : s.Inv) (h : hostEvent s e = .next t) : t.Inv := by
  rcases event_cases h with ⟨-, rfl⟩ | ⟨off, v, -, -, -, rfl⟩ | ⟨a, v, -, ha, rfl⟩ | ⟨_, rfl⟩
  · obtain ⟨hparams, -⟩ := hs
    exact resetWith_inv hparams _ _
  · exact writeReg_inv hs _ v
  · obtain ⟨hparams, hbuf, hpay, hct, hstatus, htrie⟩ := hs
    exact ⟨hparams, Memory.Inside.write hbuf ha, hpay, hct, hstatus, htrie⟩
  · exact hs

theorem takeTurn_inv {s : State} (hs : s.Inv) : s.takeTurn.Inv := by
  rw [State.takeTurn_eq]
  exact hs.withHost _

/-- Settles O59: by `step_cases`, a step is nothing, a command, an illegal word or one host event, and each keeps
the invariant. -/
theorem stepKeepsTheInvariant : Obligations.StepKeepsTheInvariant := by
  intro s t hs h
  have hturn := takeTurn_inv hs
  rcases step_cases h with ⟨-, rfl⟩ | ⟨-, ⟨i, -, hexec⟩ | ⟨-, rfl⟩⟩ | ⟨-, e, rest, -, hevent⟩
  · exact hs
  · exact exec_inv hturn hexec
  · exact raiseError_inv hturn _ _
  · exact hostEvent_inv (hturn.withHost _) hevent

end Sys2Proof.Machine
end

section
/-! Completion (O35): with the trie invariants and written operands no command faults, so each leaves a completion
record. -/

namespace Sys2Proof.Machine

/-- The end of an output command faults exactly where its pseudocode does. -/
theorem endOutput_eq_fault {s : State} {r : Run Bytes} {x : Fault} :
    endOutput s r = .fault x ↔ r = .fault x := by
  cases r <;> simp [endOutput]

/-- The end of a table command faults exactly where its pseudocode does. -/
theorem endTable_eq_fault {s : State} {r : Run (State × Nat)} {x : Fault} :
    endTable s r = .fault x ↔ r = .fault x := by
  rcases r with ⟨⟨s', n⟩⟩ | _ | _ <;> simp [endTable]

theorem hufDecEnd_not_fault {s : State} {w : HufWalk} {x : Fault} : hufDecEnd s w ≠ .fault x := by
  unfold hufDecEnd
  split <;> simp

theorem rleDecEnd_not_fault {s : State} {w : RleWalk} {x : Fault} : rleDecEnd s w ≠ .fault x := by
  unfold rleDecEnd
  split
  · simp
  split
  · simp
  · exact append_not_fault

theorem checkSrc_not_fault {s : State} {x : Fault} : checkSrc s ≠ .fault x := by
  rw [checkSrc_eq]
  split <;> simp

theorem checkSrc_eq_ok (s : State) : checkSrc s = .ok () ↔ s.srcOk = true := by
  rw [checkSrc_eq]
  split <;> simp_all

/-- GEN_CODES reads no BUF byte, so it does not fault. -/
theorem runGenCodes_not_fault {s : State} {x : Fault} : runGenCodes s ≠ .fault x := by
  unfold runGenCodes
  split
  · simp
  intro h
  rcases Run.andThen_eq_fault.1 h with hwalk | ⟨_, -, h⟩
  · split at hwalk
    · exact nomatch hwalk
    · exact visit_not_fault hwalk
  · exact nomatch h

/-- An output command on a written SRC range does not fault. -/
theorem outputRun_not_fault {i : Instr} {s : State} {x : Fault} (hinv : s.TrieOk)
    (hw : isOutputCommand i = true → srcWritten s = true) : outputRun i s ≠ .fault x := by
  intro h
  rcases Run.andThen_eq_fault.1 h with h | ⟨u, hc, h⟩
  · exact checkSrcDst_not_fault h
  have hsrc := ((outputRangesOk_iff s).1 ((checkSrcDst_eq_ok s).1 hc)).1
  cases i with
  | hufEnc => exact no_fault_hufEnc (fun _ => written_src (hw rfl) hsrc) (by omega) h
  | hufDec =>
    rcases Run.andThen_eq_fault.1 h with h | ⟨w, -, h⟩
    · exact no_fault_hufDec (fun _ => written_src (hw rfl) hsrc) (by omega) h
    · exact hufDecEnd_not_fault h
  | rleEnc => exact no_fault_rleEnc (fun _ => written_src (hw rfl) hsrc) h
  | rleDec =>
    rcases Run.andThen_eq_fault.1 h with h | ⟨w, -, h⟩
    · exact no_fault_rleDec hinv (fun _ => written_src (hw rfl) hsrc) h
    · exact rleDecEnd_not_fault h
  | _ => exact nomatch h

/-- CT_LOAD on a written SRC range does not fault. -/
theorem runCtLoad_not_fault {sym : Byte} {s : State} {x : Fault} (hw : srcWritten s = true) :
    runCtLoad sym s ≠ .fault x := by
  intro h
  rcases Run.andThen_eq_fault.1 h with h | ⟨u, hc, h⟩
  · exact checkSrc_not_fault h
  have hsrc := (checkSrc_eq_ok s).1 hc
  split at h
  · exact nomatch h
  rcases Run.andThen_eq_fault.1 h with h | ⟨code, -, h⟩
  · exact no_fault_readCode (fun _ => written_src hw hsrc) (by omega) h
  · exact nomatch h

/-- TRIE_INSERT on written SRC and AUX ranges does not fault. -/
theorem runTrieInsert_not_fault {s : State} {x : Fault} (hw : srcWritten s = true) (ha : auxWritten s = true) :
    runTrieInsert s ≠ .fault x := by
  intro h
  simp only [runTrieInsert] at h
  rcases Run.andThen_eq_fault.1 h with h | ⟨u, hc, h⟩
  · exact checkSrcAux_not_fault h
  obtain ⟨hsrc, haux⟩ := (checkSrcAux_eq_ok s).1 hc
  rcases Run.andThen_eq_fault.1 h with h | ⟨key, -, h⟩
  · exact no_fault_readKey (fun _ => written_src hw hsrc) (by omega) h
  split at h
  · exact nomatch h
  split at h
  · exact nomatch h
  rcases Run.andThen_eq_fault.1 h with h | ⟨pay, -, h⟩
  · exact no_fault_readAux ha haux h
  · exact nomatch h

/-- A command with no output does not fault on written operands. -/
theorem tableRun_not_fault {i : Instr} {s : State} {x : Fault} (hw : operandsWritten i s = true) :
    tableRun i s ≠ .fault x := by
  cases i with
  | ctLoad sym => exact runCtLoad_not_fault hw
  | genCodes => exact runGenCodes_not_fault
  | trieInsert =>
    obtain ⟨hsrc, haux⟩ := Bool.and_eq_true_iff.1 hw
    exact runTrieInsert_not_fault hsrc haux
  | _ => exact nofun

/-- An output command's operand is the SRC range. -/
theorem srcWritten_of_operandsWritten {i : Instr} {s : State} (hi : isOutputCommand i = true)
    (hw : operandsWritten i s = true) : srcWritten s = true := by
  cases i with
  | hufEnc | hufDec | rleEnc | rleDec => exact hw
  | _ => exact nomatch hi

/-- With the trie invariants and its operand bytes written, no command faults. -/
theorem exec_not_fault {i : Instr} {s : State} {x : Fault} (hinv : s.TrieOk) (hw : operandsWritten i s = true) :
    exec i s ≠ .fault x := by
  rw [exec_eq]
  split
  · next hi =>
    exact mt endOutput_eq_fault.1 (outputRun_not_fault hinv fun _ => srcWritten_of_operandsWritten hi hw)
  · exact mt endTable_eq_fault.1 (tableRun_not_fault hw)

/-- R118 and R119: a command's next state has BUSY 0 and exactly one of DONE and ERR. -/
theorem exec_completes {i : Instr} {s t : State} (h : exec i s = .next t) :
    t.status.busy = false ∧ (t.status.done = true ↔ t.status.err = false) := by
  rcases exec_eq_next h with ⟨-, out, -, -, rfl⟩ | ⟨-, e, pos, -, -, rfl⟩ | ⟨-, s', n, -, -, rfl⟩ |
    ⟨-, e, pos, -, -, rfl⟩ <;> simp

/-- Settles O35: a command is never refused, does not fault on written operands, and its next state is completed. -/
theorem everyCommandCompletes : Obligations.EveryCommandCompletes := by
  intro i s hinv hw
  cases h : exec i s with
  | next t => exact ⟨t, rfl, exec_completes h⟩
  | fault x => exact absurd h (exec_not_fault hinv hw)
  | refused x => exact absurd h (exec_not_refused i s x)

end Sys2Proof.Machine
end

section
/-! The engine's step on the latched word (O6). -/

namespace Sys2Proof

/-- The fields of every command's word, from the per-instruction family (R76 to R78). -/
theorem encodedFields (i : Instr) : Laws.EncodedFields.Statement i := by
  cases i with
  | nop => exact Laws.EncodedFields.nop
  | clrCt => exact Laws.EncodedFields.clrCt
  | clrTrie => exact Laws.EncodedFields.clrTrie
  | ctLoad sym => exact Laws.EncodedFields.ctLoad sym
  | genCodes => exact Laws.EncodedFields.genCodes
  | hufEnc => exact Laws.EncodedFields.hufEnc
  | hufDec => exact Laws.EncodedFields.hufDec
  | rleEnc => exact Laws.EncodedFields.rleEnc
  | trieInsert => exact Laws.EncodedFields.trieInsert
  | rleDec => exact Laws.EncodedFields.rleDec

/-- The word of a command decodes to it (R78, R80). -/
theorem decode_encode (i : Instr) : decode (encode i) = .ok i := by
  obtain ⟨-, hreserved, hcommand, hsymbol⟩ := encodedFields i
  have hsym : ¬(symField (encode i) ≠ 0 ∧ opField (encode i) ≠ 0x10#8) := fun ⟨h0, hop⟩ =>
    hsymbol.elim hop h0
  simp only [decode, hcommand]
  rw [if_neg (by simp [hreserved]), if_neg hsym]

end Sys2Proof

namespace Sys2Proof.Machine

/-- The engine's step on a legal word is its command (R88, R89). -/
theorem step_engine {s : State} {i : Instr} (ht : s.turn = some .engine) (hd : decode s.cmd = .ok i) :
    step s = exec i s.takeTurn := by
  simp [step, moveOf, ht, engineMove, hd]

/-- With BUSY = 1 the engine moves unless an event is pending and the schedule says the host (R145). -/
theorem turn_engine_of_busy {s : State} (hb : s.status.busy = true)
    (h : s.host.pending = [] ∨ s.host.schedule.head? ≠ some .host) : s.turn = some .engine := by
  simp only [State.turn, hb, if_true]
  split
  · next hp hs => simp [hp, hs] at h
  · rfl

/-- With BUSY = 1 the turn uses up a choice of the schedule exactly where an event is pending. -/
theorem takeTurn_of_busy {s : State} (hb : s.status.busy = true) :
    s.takeTurn = { s with host := { s.host with
      schedule := if s.host.pending = [] then s.host.schedule else s.host.schedule.tail } } := by
  unfold State.takeTurn
  by_cases hp : s.host.pending = []
  · rw [if_neg (by simp [hp]), if_pos hp]
  · rw [if_pos (by simp [hb, hp]), if_neg hp]

/-- The state with a word placed: accepted, and the engine first in the schedule where an event is pending. -/
theorem latchForEngine_eq (s : State) (w : Word) :
    latchForEngine s w = { s.acceptCommand w with host := { s.host with
      schedule := if s.host.pending = [] then s.host.schedule else .engine :: s.host.schedule } } := by
  simp only [latchForEngine, State.acceptCommand_host, List.isEmpty_iff]
  split <;> rfl

/-- A placed word is the next one to be executed. -/
theorem latchForEngine_turn (s : State) (w : Word) : (latchForEngine s w).turn = some .engine := by
  rw [latchForEngine_eq]
  refine turn_engine_of_busy rfl ?_
  by_cases hp : s.host.pending = [] <;> simp [hp]

/-- Taking the turn of a placed word uses up the choice that was put in for it. -/
theorem latchForEngine_takeTurn (s : State) (w : Word) : (latchForEngine s w).takeTurn = s.acceptCommand w := by
  rw [latchForEngine_eq, takeTurn_of_busy rfl]
  by_cases hp : s.host.pending = []
  · rw [if_pos hp, if_pos hp]; rfl
  · rw [if_neg hp, if_neg hp]; rfl

theorem latchForEngine_cmd (s : State) (w : Word) : (latchForEngine s w).cmd = w := by
  rw [latchForEngine_eq, State.acceptCommand_cmd]

/-- `withFetchWord` with all 32 bits of a word places that word. -/
theorem withFetchWord_word (s : State) (w : Word) : s.withFetchWord 32 w.toNat = latchForEngine s w := by
  rw [State.withFetchWord, Nat.mod_eq_of_lt w.isLt, BitVec.ofNat_toNat, BitVec.setWidth_eq]

/-- Settles O6: the first three clauses are lemmas about `turn` and `takeTurn`; the last holds since the word of `i` decodes
to `i`, and the one choice `withFetchWord` puts in is the one the turn takes off. -/
theorem stepRunsTheLatchedCommand : Obligations.StepRunsTheLatchedCommand := by
  refine ⟨fun s i => step_engine, fun s => turn_engine_of_busy, fun s ht => ?_, fun s i => ?_⟩
  · exact ⟨turn_engine ht, takeTurn_of_busy (turn_engine ht)⟩
  · rw [withFetchWord_word, step_engine (latchForEngine_turn _ _) (i := i), latchForEngine_takeTurn]
    rw [latchForEngine_cmd]
    exact decode_encode i

end Sys2Proof.Machine
end

section
/-! What commands and steps leave unchanged (O37, O39), and the trie invariants they keep (O43). -/

namespace Sys2Proof.Machine

/-- Settles O37: a table command changes at most CT, the trie and PAYMEM (`TableFrame`), an output command only BUF and
the draw counter, and the completion record none of these registers. -/
theorem commandsKeepTheHostRegisters : Obligations.CommandsKeepTheHostRegisters := by
  intro i s t h
  rcases exec_eq_next h with ⟨-, out, -, -, rfl⟩ | ⟨-, e, pos, -, -, rfl⟩ | ⟨-, s', n, -, ⟨hframe, -, -⟩, rfl⟩ |
    ⟨-, e, pos, -, -, rfl⟩
  · simp
  · simp
  · rw [hframe]; simp
  · simp

/-- Settles O43, by the lemma about the tables that O59 uses too. -/
theorem commandsKeepTheTrieInvariants : Obligations.CommandsKeepTheTrieInvariants :=
  fun _ _ _ hs h => exec_trieOk hs h

/-- R44 and R50: a command changes CT or the trie only if it is one of those that write it. -/
theorem exec_keeps_tables {i : Instr} {s t : State} (h : exec i s = .next t) :
    (writesCodeTable i = false → t.ct = s.ct) ∧
    (writesTrie i = false → t.trie = s.trie ∧ t.payUsed = s.payUsed) := by
  rcases exec_eq_next h with ⟨-, out, -, -, rfl⟩ | ⟨-, e, pos, -, -, rfl⟩ | ⟨-, s', n, -, ⟨-, hct, htrie⟩, rfl⟩ |
    ⟨-, e, pos, -, -, rfl⟩
  · simp
  · simp
  · refine ⟨hct, fun hw => ?_⟩
    obtain ⟨ht, -, hu⟩ := htrie hw
    exact ⟨ht, hu⟩
  · simp

/-- `t` has the code table, the trie and PU of `s`. -/
def SameTables (s t : State) : Prop := t.ct = s.ct ∧ t.trie = s.trie ∧ t.payUsed = s.payUsed

/-- A CTRL write with bit 1 = 0 sets IE (R30). -/
theorem writeReg_ctrl_ie {v : Word} (s : State) (h : v.getLsbD 1 = false) :
    writeReg s .ctrl v = { s with ie := v.getLsbD 0 } :=
  if_neg (ne_true_of_eq_false h)

/-- A CTRL write with bit 1 = 1 is the soft reset (R30). -/
theorem writeReg_ctrl_reset {v : Word} (s : State) (h : v.getLsbD 1 = true) : writeReg s .ctrl v = s.softReset :=
  if_pos h

/-- The one register write that reaches the tables is the soft reset. -/
theorem writeReg_keeps_tables {s : State} {r : Reg} {v : Word} (h : r = .ctrl → v.getLsbD 1 = false) :
    SameTables s (writeReg s r v) := by
  cases r with
  | ctrl => rw [writeReg_ctrl_ie s (h rfl)]; exact ⟨rfl, rfl, rfl⟩
  | cmd =>
    simp only [writeReg, writeCmd]
    split <;> exact ⟨rfl, rfl, rfl⟩
  | _ => exact ⟨rfl, rfl, rfl⟩

/-- A host event that is no reset leaves the tables. -/
theorem hostEvent_keeps_tables {s t : State} {e : HostEvent} (h : hostEvent s e = .next t)
    (hr : isReset e = false) : SameTables s t := by
  rcases event_cases h with ⟨rfl, -⟩ | ⟨off, v, rfl, hm, -, rfl⟩ | ⟨a, v, -, -, rfl⟩ | ⟨_, rfl⟩
  · exact nomatch hr
  · refine writeReg_keeps_tables fun hctrl => ?_
    simpa [isReset, (ofOffset_inv hm).1 hctrl] using hr
  · exact ⟨rfl, rfl, rfl⟩
  · exact ⟨rfl, rfl, rfl⟩

/-- Settles O39, by the cases of a step: an idle step and an illegal word change no table, a command only its own, and a
host event only where it is a reset. -/
theorem tablesChangeOnlyByTheirCommands : Obligations.TablesChangeOnlyByTheirCommands := by
  intro s t h
  rcases step_cases h with ⟨-, rfl⟩ | ⟨hturn, ⟨i, hdec, hexec⟩ | ⟨-, rfl⟩⟩ | ⟨hturn, e, rest, hpend, hevent⟩
  · simp
  · obtain ⟨hct, htrie⟩ := exec_keeps_tables hexec
    simp only [State.takeTurn_ct, State.takeTurn_trie, State.takeTurn_payUsed] at hct htrie
    refine ⟨fun hne => .inl ⟨hturn, i, hdec, ?_⟩, fun hne => .inl ⟨hturn, i, hdec, ?_⟩⟩
    · exact Bool.of_not_eq_false (mt hct hne)
    · exact Bool.of_not_eq_false fun hw => hne.elim (absurd (htrie hw).1) (absurd (htrie hw).2)
  · simp
  · have hreset : ¬ SameTables s t → isReset e = true := fun hne =>
      Bool.of_not_eq_false fun hr => hne <| by simpa [SameTables] using hostEvent_keeps_tables hevent hr
    refine ⟨fun hne => .inr ⟨hturn, e, rest, hpend, hreset fun hs => ?_⟩,
      fun hne => .inr ⟨hturn, e, rest, hpend, hreset fun hs => ?_⟩⟩
    all_goals obtain ⟨hct, htrie, hused⟩ := hs
    · exact hne hct
    · exact hne.elim (absurd htrie) (absurd hused)

end Sys2Proof.Machine
end

section
/-! The register port (O44 to O50): one rule per kind of register access, then the registers one by one. -/

namespace Sys2Proof.Machine

/-! ### A step on a register access -/

/-- A register's value does not depend on the host's side. -/
theorem readReg_withHost (s : State) (h : HostSide) (r : Reg) : readReg { s with host := h } r = readReg s r := by
  cases r <;> rfl

/-- A register write does not look at the host's side, and keeps it. -/
theorem writeReg_withHost (s : State) (h : HostSide) (r : Reg) (v : Word) :
    writeReg { s with host := h } r v = { writeReg s r v with host := h } := by
  cases r with
  | ctrl => simp only [writeReg, writeCtrl]; split <;> rfl
  | cmd => simp only [writeReg, writeCmd]; split <;> rfl
  | _ => rfl

theorem accessFormOk_word {off : BitVec 12} (hm : off.toNat % 4 = 0) : accessFormOk 4 off = true := by
  simp [accessFormOk, hm]

/-- A register read that keeps the busy obligation answers the register's value (R140). -/
theorem step_regRead {s : State} {off : BitVec 12} (rest : List HostEvent) (ht : hostsTurn s = true)
    (hm : off.toNat % 4 = 0) (hb : s.status.busy = true → Reg.ofOffset off = .status) :
    step (withEvents s (.regRead 4 off) rest) =
      .next (afterEvent s s rest (.word (readReg s (Reg.ofOffset off)))) := by
  rw [step_host ht]
  simp only [hostEvent, hostRegRead, accessFormOk_word hm, readReg_withHost]
  rw [if_neg (by simp), if_neg (by simpa using hb)]
  rfl

/-- A register write that keeps the busy obligation has the write's effect (R140). -/
theorem step_regWrite {s : State} {off : BitVec 12} (v : Word) (rest : List HostEvent) (ht : hostsTurn s = true)
    (hm : off.toNat % 4 = 0) (hb : s.status.busy = true → Reg.ofOffset off = .cmd) :
    step (withEvents s (.regWrite 4 off v) rest) =
      .next (afterEvent s (writeReg s (Reg.ofOffset off) v) rest .none) := by
  rw [step_host ht]
  simp only [hostEvent, hostRegWrite, accessFormOk_word hm, writeReg_withHost]
  rw [if_neg (by simp), if_neg (by simpa using hb)]
  rfl

/-- A register write while BUSY = 1 is refused where it is no CMD write (R138). -/
theorem step_regWrite_busy {s : State} {off : BitVec 12} (v : Word) (rest : List HostEvent) (ht : hostsTurn s = true)
    (hm : off.toNat % 4 = 0) (hb : s.status.busy = true) (hr : Reg.ofOffset off ≠ .cmd) :
    step (withEvents s (.regWrite 4 off v) rest) = .refused .busyAccess := by
  rw [step_host ht]
  simp only [hostEvent, hostRegWrite, accessFormOk_word hm, hb]
  rw [if_neg (by simp), if_pos (by simpa using hr)]

/-- With BUSY = 0 a read at the offset of the register `r` answers its value. -/
theorem step_regRead_idle {s : State} (rest : List HostEvent) (hb : s.status.busy = false) {off : BitVec 12}
    {r : Reg} (hm : off.toNat % 4 = 0) (hr : Reg.ofOffset off = r) :
    step (withEvents s (.regRead 4 off) rest) = .next (afterEvent s s rest (.word (readReg s r))) := by
  rw [step_regRead rest (hostsTurn_idle hb) hm (by simp [hb]), hr]

/-- With BUSY = 0 a write at the offset of the register `r` is the write of `r`. -/
theorem step_regWrite_idle {s : State} (v : Word) (rest : List HostEvent) (hb : s.status.busy = false)
    {off : BitVec 12} {r : Reg} (hm : off.toNat % 4 = 0) (hr : Reg.ofOffset off = r) :
    step (withEvents s (.regWrite 4 off v) rest) = .next (afterEvent s (writeReg s r v) rest .none) := by
  rw [step_regWrite v rest (hostsTurn_idle hb) hm (by simp [hb]), hr]

/-- The offsets of TREE are word offsets. -/
theorem treeOffset_aligned (n : Nat) : (BitVec.ofNat 12 (0x800 + 4 * n)).toNat % 4 = 0 := by
  rw [BitVec.toNat_ofNat]; omega

/-! ### Registers with fields -/

/-- CTRL reads IE in bit 0 and 0 elsewhere (R30). -/
theorem readReg_ctrl (s : State) : readReg s .ctrl = if s.ie then 1 else 0 := by
  show ctrlWord s.ie = _
  cases s.ie <;> rfl

/-- STATUS as a number (R31). -/
theorem readReg_status (s : State) : readReg s .status = BitVec.ofNat 32
    ((if s.status.busy then 1 else 0) + (if s.status.done then 2 else 0) + (if s.status.err then 4 else 0) +
     (if s.status.drop then 8 else 0) + 256 * s.status.errCode.toNat) :=
  status_word_eq _ _ _ _ _

/-- TREE_ROOT as a number (R39). -/
theorem TreeRoot.word_eq (r : TreeRoot) :
    r.word = BitVec.ofNat 32 ((if r.valid then 2 ^ 31 else 0) + r.idx.toNat) := by
  have hidx := r.idx.isLt
  apply BitVec.eq_of_toNat_eq
  rw [TreeRoot.word, BitVec.toNat_append, ← Nat.shiftLeft_add_eq_or_of_lt hidx, BitVec.toNat_ofNat]
  cases r.valid
  · simp; omega
  · simp; omega

/-- The bits of STATUS that R31 leaves reserved are 0: the mask, field by field, meets only zero fields. -/
theorem Status.word_reserved (f : Status) : f.word &&& 0xFFFF00F0 = 0 := by
  have hfields : (0#16 ++ f.errCode ++ 0#4 ++ BitVec.ofBool f.drop ++ BitVec.ofBool f.err ++ BitVec.ofBool f.done ++
      BitVec.ofBool f.busy) &&& (0xFFFF#16 ++ 0#8 ++ 0xF#4 ++ 0#1 ++ 0#1 ++ 0#1 ++ 0#1) = 0 := by
    simp only [BitVec.and_append, BitVec.zero_and, BitVec.and_zero]
    rfl
  exact hfields

/-- The bits of TREE_ROOT that R39 leaves reserved are 0, in the same way. -/
theorem TreeRoot.word_reserved (r : TreeRoot) : r.word &&& 0x7FFFFE00 = 0 := by
  have hfields : (BitVec.ofBool r.valid ++ 0#22 ++ r.idx) &&& (0#1 ++ 0x3FFFFF#22 ++ 0#9) = 0 := by
    simp only [BitVec.and_append, BitVec.zero_and, BitVec.and_zero]
    rfl
  exact hfields

/-- A STATUS write, flag by flag (R32). -/
theorem Status.writeOneToClear_eq (f : Status) (v : Word) : f.writeOneToClear v =
    { busy := f.busy
      done := if v.getLsbD 1 then false else f.done
      err := if v.getLsbD 2 then false else f.err
      drop := if v.getLsbD 3 then false else f.drop
      errCode := if v.getLsbD 2 then 0 else f.errCode } := by
  have hclear (a b : Bool) : (a && !b) = if b then false else a := by cases a <;> cases b <;> rfl
  simp only [Status.writeOneToClear, hclear]

/-- A CMD write while BUSY = 0 is accepted (R33). -/
theorem writeReg_cmd_idle {s : State} (v : Word) (hb : s.status.busy = false) :
    writeReg s .cmd v = s.acceptCommand v := if_neg (by simp [hb])

/-- A CMD write while BUSY = 1 is dropped (R33). -/
theorem writeReg_cmd_busy {s : State} (v : Word) (hb : s.status.busy = true) :
    writeReg s .cmd v = { s with status := s.status.dropped } := if_pos hb

/-- The registers a write has no effect on: the read-only ones (R42) and the reserved space (R28). -/
def Reg.ignoresWrites : Reg → Bool
  | .id | .outLen | .errPos | .trieUsed | .payUsed | .bufSize | .trieSize | .paySize | .reserved => true
  | .ctrl | .status | .cmd | .srcBase | .srcLen | .dstBase | .dstCap | .auxBase | .auxLen | .treeRoot | .tree _ => false

theorem writeReg_ignored {r : Reg} (h : r.ignoresWrites = true) (s : State) (v : Word) : writeReg s r v = s := by
  cases r with
  | id | outLen | errPos | trieUsed | payUsed | bufSize | trieSize | paySize | reserved => rfl
  | _ => exact nomatch h

/-- A TREE word reads back as written (R28, R43). -/
theorem readReg_writeReg_tree (s : State) (i : BitVec 9) (v : Word) :
    readReg (writeReg s (.tree i) v) (.tree i) = v :=
  Vector.getElem_set_self _

/-! ### Bits under a mask -/

/-- Two words that agree under a mask agree in each bit of it. -/
theorem getLsbD_eq_of_and_eq {n i : Nat} {v u m : BitVec n} (h : v &&& m = u &&& m) (hi : m.getLsbD i = true) :
    v.getLsbD i = u.getLsbD i := by
  simpa only [BitVec.getLsbD_and, hi, Bool.and_true] using congrArg (BitVec.getLsbD · i) h

/-- A CTRL write depends on bits 1 and 0 alone (R28, R30). -/
theorem writeReg_ctrl_congr (s : State) {v u : Word} (h : v &&& 0x00000003 = u &&& 0x00000003) :
    writeReg s .ctrl v = writeReg s .ctrl u := by
  simp only [writeReg, writeCtrl, getLsbD_eq_of_and_eq h (i := 0) rfl, getLsbD_eq_of_and_eq h (i := 1) rfl]

/-- A STATUS write depends on bits 3, 2 and 1 alone (R28, R32). -/
theorem writeReg_status_congr (s : State) {v u : Word} (h : v &&& 0x0000000E = u &&& 0x0000000E) :
    writeReg s .status v = writeReg s .status u := by
  simp only [writeReg, Status.writeOneToClear, getLsbD_eq_of_and_eq h (i := 1) rfl,
    getLsbD_eq_of_and_eq h (i := 2) rfl, getLsbD_eq_of_and_eq h (i := 3) rfl]

/-- A TREE_ROOT write depends on bits 31 and 8:0 alone (R28, R39). -/
theorem writeReg_treeRoot_congr (s : State) {v u : Word} (h : v &&& 0x800001FF = u &&& 0x800001FF) :
    writeReg s .treeRoot v = writeReg s .treeRoot u := by
  have hmask : ∀ i < 9, (0x800001FF : Word).getLsbD i = true := by decide
  have hidx : v.extractLsb' 0 9 = u.extractLsb' 0 9 := BitVec.eq_of_getLsbD_eq fun i hi => by
    simp only [BitVec.getLsbD_extractLsb', Nat.zero_add, getLsbD_eq_of_and_eq h (hmask i hi)]
  simp only [writeReg, TreeRoot.ofWord, getLsbD_eq_of_and_eq h (i := 31) rfl, hidx]

/-! ### The obligations of the register port -/

/-- Settles O44: each offset of the map is aligned and names the register whose value is beside it. -/
theorem registerReadsFollowTheMap : Obligations.RegisterReadsFollowTheMap := by
  refine ⟨fun s rest hb => ⟨fun p hp => ?_, fun n h => ?_⟩, fun s rest hb hsched => ?_⟩
  · have hmap : p.1.toNat % 4 = 0 ∧ readReg s (Reg.ofOffset p.1) = p.2 := by
      revert p
      simp only [List.forall_mem_cons, List.not_mem_nil, false_imp_iff, implies_true, and_true]
      have hstatus := readReg_status s
      simp only [hb, Bool.false_eq_true, if_false, Nat.zero_add] at hstatus
      exact ⟨⟨rfl, rfl⟩, ⟨rfl, readReg_ctrl s⟩, ⟨rfl, hstatus⟩, ⟨rfl, rfl⟩, ⟨rfl, rfl⟩, ⟨rfl, rfl⟩, ⟨rfl, rfl⟩,
        ⟨rfl, rfl⟩, ⟨rfl, rfl⟩, ⟨rfl, rfl⟩, ⟨rfl, rfl⟩, ⟨rfl, rfl⟩, ⟨rfl, s.treeRoot.word_eq⟩, ⟨rfl, rfl⟩, ⟨rfl, rfl⟩,
        ⟨rfl, rfl⟩, ⟨rfl, rfl⟩, ⟨rfl, rfl⟩⟩
    obtain ⟨hm, hvalue⟩ := hmap
    rw [step_regRead_idle rest hb hm rfl, hvalue]
  · rw [step_regRead_idle rest hb (treeOffset_aligned n) (ofOffset_tree n h)]
    simp [readReg, Nat.mod_eq_of_lt h]
  · rw [step_regRead rest (hostsTurn_scheduled hsched) rfl (fun _ => rfl), show Reg.ofOffset 0x008 = .status from rfl,
      readReg_status, hb]
    rfl

/-- Settles O45: with BUSY = 0 each write is `writeReg` of the register its offset names. -/
theorem registerWritesStoreTheValue : Obligations.RegisterWritesStoreTheValue := by
  intro s v rest hb
  refine ⟨step_regWrite_idle v rest hb rfl rfl, step_regWrite_idle v rest hb rfl rfl,
    step_regWrite_idle v rest hb rfl rfl, step_regWrite_idle v rest hb rfl rfl, step_regWrite_idle v rest hb rfl rfl,
    step_regWrite_idle v rest hb rfl rfl, step_regWrite_idle v rest hb rfl rfl, fun n h => ?_⟩
  rw [step_regWrite_idle v rest hb (treeOffset_aligned n) (ofOffset_tree n h)]
  simp [writeReg, Nat.mod_eq_of_lt h]

/-- Settles O46: the eight offsets are aligned and name registers that ignore writes. -/
theorem readOnlyRegistersIgnoreWrites : Obligations.ReadOnlyRegistersIgnoreWrites := by
  intro s v rest off hb hoff
  have hreadOnly : off.toNat % 4 = 0 ∧ (Reg.ofOffset off).ignoresWrites = true := by
    revert off
    simp only [List.forall_mem_cons, List.not_mem_nil, false_imp_iff, implies_true, and_true]
    exact ⟨⟨rfl, rfl⟩, ⟨rfl, rfl⟩, ⟨rfl, rfl⟩, ⟨rfl, rfl⟩, ⟨rfl, rfl⟩, ⟨rfl, rfl⟩, ⟨rfl, rfl⟩, ⟨rfl, rfl⟩⟩
  obtain ⟨hm, hignored⟩ := hreadOnly
  rw [step_regWrite_idle v rest hb hm rfl, writeReg_ignored hignored]

/-- Settles O47: the reserved offsets name the reserved register, and the fields of CTRL, STATUS and TREE_ROOT stand in
the bits of their masks. -/
theorem reservedOffsetsAndBits : Obligations.ReservedOffsetsAndBits := by
  refine ⟨fun s n v rest hb h18 h512 => ?_, fun s => ⟨?_, s.status.word_reserved, s.treeRoot.word_reserved⟩,
    fun s v u => ⟨writeReg_ctrl_congr s, writeReg_status_congr s, writeReg_treeRoot_congr s⟩, readReg_writeReg_tree⟩
  · obtain ⟨hr, hm⟩ := ofOffset_reserved n h18 h512
    exact ⟨step_regRead_idle rest hb hm hr, step_regWrite_idle v rest hb hm hr⟩
  · rw [readReg_ctrl]
    cases s.ie <;> rfl

/-- Settles O48, by the flag-by-flag form of a STATUS write; with BUSY = 1 it is no CMD write. -/
theorem statusWriteClearsFlags : Obligations.StatusWriteClearsFlags := by
  refine ⟨fun s v rest hb => ?_, fun s v rest hb hsched => ?_⟩
  · rw [step_regWrite_idle v rest hb rfl (r := .status) rfl]
    simp only [writeReg, Status.writeOneToClear_eq, hb]
  · exact step_regWrite_busy v rest (hostsTurn_scheduled hsched) rfl hb (by decide)

/-- Settles O49: CMD is the one register a host may write whether BUSY is 0 or 1. -/
theorem cmdWriteIssuesOrDrops : Obligations.CmdWriteIssuesOrDrops := by
  refine ⟨fun s v rest hb => ?_, fun s v rest hb hsched => ?_⟩
  · rw [step_regWrite_idle v rest hb rfl (r := .cmd) rfl, writeReg_cmd_idle v hb]
    rfl
  · rw [step_regWrite v rest (hostsTurn_scheduled hsched) rfl (fun _ => rfl), show Reg.ofOffset 0x00C = .cmd from rfl,
      writeReg_cmd_busy v hb]
    rfl

/-- Settles O50, by the two cases of bit 1; with BUSY = 1 it is no CMD write. -/
theorem ctrlWriteSetsIeOrResets : Obligations.CtrlWriteSetsIeOrResets := by
  refine ⟨fun s v rest hb => ?_, fun s => ⟨rfl, rfl, rfl⟩, fun s v rest hb hsched => ?_, readReg_ctrl⟩
  · rw [step_regWrite_idle v rest hb rfl (r := .ctrl) rfl]
    split
    · next hv => rw [writeReg_ctrl_reset s hv]; rfl
    · next hv => rw [writeReg_ctrl_ie s (by simpa using hv)]
  · exact step_regWrite_busy v rest (hostsTurn_scheduled hsched) rfl hb (by decide)

end Sys2Proof.Machine
end

section
/-! The interrupt level (O55) and the state after reset (O57, O58). -/

namespace Sys2Proof.Machine

/-- IRQ is 1 exactly when IE and one of DONE and ERR are (R52). -/
theorem irq_iff (s : State) : s.irq = true ↔ s.ie = true ∧ (s.status.done = true ∨ s.status.err = true) := by
  simp [State.irq]

/-- With DONE and ERR both 0, IRQ is 0. -/
theorem irq_low {s : State} (hd : s.status.done = false) (he : s.status.err = false) : s.irq = false := by
  simp [State.irq, hd, he]

/-- Settles O55: acceptance and a STATUS write of 6 clear DONE and ERR, and a CTRL write of 0 clears IE. -/
theorem irqIsTheLevelOfItsSources : Obligations.IrqIsTheLevelOfItsSources := by
  refine ⟨irq_iff, fun s v => irq_low rfl rfl, fun s => ⟨?_, ?_⟩⟩
  · rw [writeReg_ctrl_ie s rfl]; rfl
  · exact irq_low (Bool.and_false _) (Bool.and_false _)

/-- Each of the three states after a reset is the reset state but for BUF and PAYMEM (R55). -/
theorem eq_resetWith_of_reset {s t : State} (h : t = s.hardReset ∨ t = s.softReset ∨ t = State.reset) :
    ∃ p n host buf payMem, t = { State.resetWith p n host with buf := buf, payMem := payMem } := by
  rcases h with rfl | rfl | rfl <;> exact ⟨_, _, _, _, _, rfl⟩

/-- Settles O57: the values are read off the one form of the three states; the tables by the lemmas of the empty code
table and the bare trie. -/
theorem resetStateIsAsSpecified : Obligations.ResetStateIsAsSpecified := by
  refine ⟨fun s t ht => ?_, fun s a => ⟨rfl, rfl, rfl, rfl, rfl, rfl⟩⟩
  obtain ⟨p, n, host, buf, payMem, rfl⟩ := eq_resetWith_of_reset ht
  refine ⟨rfl, rfl, rfl, rfl, ?_, rfl, rfl, rfl, rfl, fun i => ?_, fun i => ?_, codeAt_empty, Trie.has_bare,
    Trie.payload_bare, rfl⟩
  · simp only [List.forall_mem_cons, List.not_mem_nil, false_imp_iff, implies_true, and_true]
    exact ⟨readReg_ctrl _, (readReg_status _).trans rfl, rfl, rfl, rfl, rfl, rfl, rfl, rfl, rfl, rfl,
      (TreeRoot.word_eq _).trans rfl, rfl⟩
  · simp [readReg]
  · simp [nodeAt, TreeNode.ofWord]

/-- Settles O58, by the lemma for every legal parameter; those of `State.reset` are legal. -/
theorem resetMeetsTheInvariant : Obligations.ResetMeetsTheInvariant :=
  ⟨fun _ n h hp => resetWith_inv hp n h, resetWith_inv (by decide) 0 HostSide.idle⟩

end Sys2Proof.Machine
end

section
/-! The footprint of a command in BUF (O40, O41), the byte lanes of its word (O5) and the buffer port (O51). -/

namespace Sys2Proof.Machine

/-! ### Writes -/

theorem wordOf_toNat {n : Nat} (h : n < 2 ^ 32) : (wordOf n).toNat = n :=
  (BitVec.toNat_ofNat n 32).trans (Nat.mod_eq_of_lt h)

/-- Settles O40: by `exec_eq_next`, a committed output or a drawn DST range is all that a command writes. -/
theorem commandsWriteOnlyTheDestination : Obligations.CommandsWriteOnlyTheDestination := by
  intro i s t h
  rcases exec_eq_next h with ⟨ho, out, -, hl, rfl⟩ | ⟨ho, e, pos, -, -, rfl⟩ | ⟨ho, s', n, -, ⟨hframe, -, -⟩, rfl⟩ |
    ⟨ho, e, pos, -, -, rfl⟩
  · rw [if_pos ho]
    have hlen : (wordOf out.length).toNat = out.length :=
      wordOf_toNat (hl.trans_lt s.dstCap.isLt)
    obtain ⟨-, -, hsame⟩ := succeedsOutput_commit s out
    exact ⟨fun _ => ⟨hlen.trans_le hl, hlen.symm ▸ hsame⟩, nofun⟩
  · rw [if_pos ho]
    obtain ⟨-, hsame, -⟩ := failsOutput_draw s e pos
    exact ⟨nofun, fun _ => hsame⟩
  · rw [if_neg (by simp [ho]), hframe]
    rfl
  · rw [if_neg (by simp [ho])]
    rfl

/-! ### Reads -/

theorem Run.andThen_assoc {α β γ : Type} (r : Run α) (f : α → Run β) (g : β → Run γ) :
    (r.andThen f).andThen g = r.andThen fun a => (f a).andThen g := by
  cases r <;> rfl

theorem src_withBuf {s : State} {m : Memory} {k : Nat}
    (h : m.read (s.srcBase.toNat + k) = s.buf.read (s.srcBase.toNat + k)) : src { s with buf := m } k = src s k := by
  simp only [src, State.memRead, h]

theorem aux_withBuf {s : State} {m : Memory} {k : Nat}
    (h : m.read (s.auxBase.toNat + k) = s.buf.read (s.auxBase.toNat + k)) : aux { s with buf := m } k = aux s k := by
  simp only [aux, State.memRead, h]

/-- An output command computes the same from every memory that reads the same in SRC: the range checks and the end of
a scan do not read BUF. -/
theorem outputRun_withBuf {i : Instr} {s : State} {m : Memory}
    (hsrc : readsSrc i = true → ∀ k, k < s.srcLen.toNat → src { s with buf := m } k = src s k) :
    outputRun i { s with buf := m } = outputRun i s := by
  have hcheck : checkSrcDst { s with buf := m } = checkSrcDst s := rfl
  have hdecEnd : hufDecEnd { s with buf := m } = hufDecEnd s := rfl
  have hrleEnd : rleDecEnd { s with buf := m } = rleDecEnd s := rfl
  cases i with
  | hufEnc => simp only [outputRun, hcheck, cong_hufEnc (hsrc rfl) rfl rfl (Nat.zero_add _).le]
  | hufDec => simp only [outputRun, hcheck, hdecEnd, cong_hufDec (hsrc rfl) rfl rfl rfl (Nat.zero_add _).le]
  | rleEnc => simp only [outputRun, hcheck, cong_rleEnc (hsrc rfl) rfl rfl]
  | rleDec => simp only [outputRun, hcheck, hrleEnd, cong_rleDec (hsrc rfl) rfl rfl rfl]
  | nop | clrCt | clrTrie | ctLoad _ | genCodes | trieInsert => rfl

/-- A command with no output computes the same tables from every memory that reads the same in its operand ranges, and
hands the memory on. -/
theorem tableRun_withBuf {i : Instr} {s : State} {m : Memory}
    (hsrc : readsSrc i = true → ∀ k, k < s.srcLen.toNat → src { s with buf := m } k = src s k)
    (haux : readsAux i = true → ∀ k, k < s.auxLen.toNat → aux { s with buf := m } k = aux s k) :
    tableRun i { s with buf := m } =
      (tableRun i s).andThen fun p => .ok ({ p.1 with buf := m }, p.2) := by
  cases i with
  | ctLoad sym =>
    have hcheck : checkSrc { s with buf := m } = checkSrc s := rfl
    have hcode := cong_readCode (hsrc rfl) (Nat.zero_add _).le
    simp only [tableRun, runCtLoad, hcheck, hcode, Run.andThen_assoc]
    congr 1; funext _
    split
    · rfl
    · rw [Run.andThen_assoc]; rfl
  | genCodes =>
    simp only [tableRun, runGenCodes]
    split
    · rfl
    · rw [Run.andThen_assoc]; rfl
  | trieInsert =>
    have hcheck : checkSrcAux { s with buf := m } = checkSrcAux s := rfl
    have hkey := cong_readKey (hsrc rfl) (Nat.zero_add _).le
    have hpay : readAux { s with buf := m } s.auxLen.toNat 0 = readAux s s.auxLen.toNat 0 :=
      cong_readAux fun j _ hj => haux rfl j (by omega)
    have hused : State.trieUsed { s with buf := m } = s.trieUsed := rfl
    simp only [tableRun, runTrieInsert, hcheck, hkey, hpay, hused, Run.andThen_assoc]
    congr 1; funext _
    congr 1; funext key
    split
    · rfl
    split
    · rfl
    · rw [Run.andThen_assoc]; rfl
  | nop | clrCt | clrTrie | hufEnc | hufDec | rleEnc | rleDec => rfl

/-- Settles O41: the pseudocode of the command gives the same from both memories, and its end writes the same bytes. -/
theorem commandsReadOnlyTheirOperands : Obligations.CommandsReadOnlyTheirOperands := by
  intro i s m hs ha
  have hsrc : readsSrc i = true → ∀ k, k < s.srcLen.toNat → src { s with buf := m } k = src s k :=
    fun hi k hk => src_withBuf (hs hi k hk)
  have haux : readsAux i = true → ∀ k, k < s.auxLen.toNat → aux { s with buf := m } k = aux s k :=
    fun hi k hk => aux_withBuf (ha hi k hk)
  rw [exec_eq, exec_eq]
  by_cases ho : isOutputCommand i = true
  · rw [if_pos ho, if_pos ho, outputRun_withBuf hsrc]
    cases hr : outputRun i s with
    | ok out =>
      have hlen : (wordOf out.length).toNat = out.length :=
        wordOf_toNat ((outputRun_length hr).trans_lt s.dstCap.isLt)
      refine ⟨rfl, fun _ _ k hk => ?_⟩
      have hk : k < out.length := hlen ▸ hk
      exact (Memory.read_writeBytes_index m _ out k hk).trans (Memory.read_writeBytes_index s.buf _ out k hk).symm
    | raised e pos => exact ⟨rfl, nofun⟩
    | fault x => rfl
  · rw [if_neg ho, if_neg ho, tableRun_withBuf hsrc haux]
    cases tableRun i s with
    | ok p => exact ⟨rfl, fun hi => absurd hi ho⟩
    | raised e pos => exact ⟨rfl, fun hi => absurd hi ho⟩
    | fault x => rfl

/-! ### Byte lanes -/

/-- The four lanes of a word decode as the word does, and leave the rest over (R63, R76). -/
theorem decodeBytes_lanes (c : Word) (rest : Bytes) :
    decodeBytes (lanesOfWord c ++ rest) = (decode c).map fun i => (i, rest) := by
  simp only [lanesOfWord, List.cons_append, List.nil_append, decodeBytes, wordOfLanes_lanes]
  cases decode c <;> rfl

/-- Settles O5, by `decodeBytes_lanes`. -/
theorem byteLanesDecodeAsTheWord : Obligations.ByteLanesDecodeAsTheWord := by
  intro c rest
  rw [decodeBytes_lanes]
  cases decode c <;> rfl

/-! ### The buffer port -/

/-- While BUSY = 1 the buffer port is refused (R138). -/
theorem hostBuf_busy {s : State} {a : Nat} {v : Byte} (hb : s.status.busy = true) :
    hostBufRead s a = .refused .busyAccess ∧ hostBufWrite s a v = .refused .busyAccess := by
  simp [hostBufRead, hostBufWrite, hb]

/-- A read of a written byte below BUF_BYTES gives it (R59). -/
theorem hostBufRead_written {s : State} {a : Nat} {v : Byte} (hb : s.status.busy = false)
    (ha : a < s.params.bufBytes) (hv : s.buf.read a = some v) : hostBufRead s a = .next (s.setReply (.byte v)) := by
  simp [hostBufRead, hb, ha, hv]

/-- A write below BUF_BYTES sets the byte (R59). -/
theorem hostBufWrite_below {s : State} {a : Nat} {v : Byte} (hb : s.status.busy = false)
    (ha : a < s.params.bufBytes) :
    hostBufWrite s a v = .next (State.setReply { s with buf := s.buf.write a v } .none) := by
  simp [hostBufWrite, hb, ha]

/-- At or above BUF_BYTES a read gives 0x00 and a write does nothing (R59). -/
theorem hostBuf_above {s : State} {a : Nat} {v : Byte} (hb : s.status.busy = false) (ha : s.params.bufBytes ≤ a) :
    hostBufRead s a = .next (s.setReply (.byte 0x00)) ∧ hostBufWrite s a v = .next (s.setReply .none) := by
  simp [hostBufRead, hostBufWrite, hb, ha.not_gt]

/-- Settles O51: the step is the host's event, and the event is one of the four cases of the port. -/
theorem bufferPortMovesOneByte : Obligations.BufferPortMovesOneByte := by
  refine ⟨fun s a v rest hb ha => ?_, fun s a v rest hb ha => ?_, fun s a v rest hb hsched => ?_⟩
  · rw [step_host (hostsTurn_idle hb), step_host (hostsTurn_idle hb)]
    exact ⟨fun hv => hostBufRead_written hb ha hv,
      _, hostBufWrite_below hb ha, rfl, fun b => Memory.read_write s.buf a b v⟩
  · rw [step_host (hostsTurn_idle hb), step_host (hostsTurn_idle hb)]
    exact hostBuf_above hb ha
  · rw [step_host (hostsTurn_scheduled hsched), step_host (hostsTurn_scheduled hsched)]
    exact hostBuf_busy hb

end Sys2Proof.Machine
end

section
/-! The command words (O1, O2, O3): the decoder's answer read off the three fields of R76, and the converse of
`decode_encode`. -/

namespace Sys2Proof

open Sys2Proof.Machine

/-- A command of the opcode map is encoded with its opcode and symbol, when the symbol is 0 outside CT_LOAD (R78). -/
theorem encode_of_commandOf {op sym : Byte} {i : Instr} (h : commandOf op sym = some i)
    (hsym : sym = 0 ∨ op = 0x10#8) : encode i = commandWord op sym := by
  unfold commandOf at h
  split at h
  case h_4 => cases h; rfl
  case h_11 => cases h
  all_goals
    obtain rfl : sym = 0 := hsym.resolve_right (by decide)
    cases h; rfl

/-- The opcode map has no command exactly outside its ten opcodes (R78). -/
theorem commandOf_eq_none {op sym : Byte} : commandOf op sym = none ↔
    op ∉ [0x00#8, 0x01, 0x02, 0x10, 0x11, 0x20, 0x21, 0x30, 0x31, 0x32] := by
  unfold commandOf
  split
  case h_11 => simp_all
  all_goals simp

/-- A word decodes to a command exactly when the map has it and R80.2 and R80.3 do not hold. -/
theorem decode_eq_ok {c : Word} {i : Instr} : decode c = .ok i ↔
    commandOf (opField c) (symField c) = some i ∧ reservedField c = 0 ∧
      (symField c = 0 ∨ opField c = 0x10#8) := by
  cases hcommand : commandOf (opField c) (symField c) with
  | none => simp [decode, hcommand]
  | some j =>
    simp only [decode, hcommand, Option.some.injEq]
    by_cases hreserved : reservedField c = 0
    · by_cases hsym : symField c = 0 ∨ opField c = 0x10#8
      · rw [if_neg (not_not_intro hreserved), if_neg (by tauto)]; simp only [Except.ok.injEq, hreserved, hsym, and_true]
      · rw [if_neg (not_not_intro hreserved), if_pos (by tauto)]; simp only [reduceCtorEq, hsym, and_false]
    · rw [if_pos hreserved]; simp only [reduceCtorEq, hreserved, false_and, and_false]

/-- Settles O1: a word that decodes has reserved bits 0, so it is the word of its fields, and these are the command's;
the converse is `decode_encode`. -/
theorem legalWordsAreExactlyTheEncodings : Obligations.LegalWordsAreExactlyTheEncodings := by
  refine fun c i => ⟨fun h => ?_, ?_⟩
  · obtain ⟨hcommand, hreserved, hsym⟩ := decode_eq_ok.1 h
    calc c = commandWord (opField c) (symField c) := commandWord_fields hreserved
      _ = encode i := (encode_of_commandOf hcommand hsym).symm
  · rintro rfl
    exact decode_encode i

/-- Settles O2: each of the words is the encoding of its command. -/
theorem specCommandWordsDecode : Obligations.SpecCommandWordsDecode :=
  ⟨decode_encode .nop, decode_encode .clrCt, decode_encode .clrTrie, decode_encode (.ctLoad 0x41),
    decode_encode (.ctLoad 0xFF), decode_encode .genCodes, decode_encode .hufEnc, decode_encode .hufDec,
    decode_encode .rleEnc, decode_encode .trieInsert, decode_encode .rleDec⟩

/-- A word decodes to some command exactly when none of the three conditions of R80 holds. -/
theorem exists_decode_iff (c : Word) : (∃ i, decode c = .ok i) ↔
    ¬(opField c ∉ [0x00#8, 0x01, 0x02, 0x10, 0x11, 0x20, 0x21, 0x30, 0x31, 0x32] ∨
      reservedField c ≠ 0 ∨ (symField c ≠ 0 ∧ opField c ≠ 0x10#8)) := by
  rw [← commandOf_eq_none (sym := symField c), ← Option.not_isSome_iff_eq_none, Option.isSome_iff_exists]
  simp only [decode_eq_ok, exists_and_right]
  tauto

/-- The engine's step on a word that is no command is the raise of R80. -/
theorem step_illegal {s : State} (ht : s.turn = some .engine) (hd : ¬∃ i, decode s.cmd = .ok i) :
    step s = .next (s.takeTurn.raiseError .illegalCommand noPos) := by
  simp only [step, moveOf, ht, engineMove, State.takeTurn_cmd]
  cases hc : decode s.cmd with
  | ok i => exact absurd ⟨i, hc⟩ hd
  | error e => rfl

/-- Settles O3: under a condition of R80 no command decodes, so the step is `step_illegal`, whose error record keeps
DROP as it was. -/
theorem illegalWordsRaiseIllegalCommand : Obligations.IllegalWordsRaiseIllegalCommand := by
  intro s ht
  split
  next h =>
    have hstatus : s.takeTurn.status.fail .illegalCommand = errStatus s 0x0B := by
      rw [State.takeTurn_status]; rfl
    rw [step_illegal ht (mt (exists_decode_iff s.cmd).1 (not_not_intro h)), State.raiseError, hstatus]
    rfl
  next h => exact (exists_decode_iff s.cmd).2 h

end Sys2Proof
end

section
/-! The node words of R82 (O4), read field by field as R81 reads them. -/

namespace Sys2Proof.Machine

/-- Bits 24:16 of a field placed at bit 16 are the field. -/
theorem leftField_shifted (l : BitVec 9) : (l.setWidth 32 <<< 16).extractLsb' 16 9 = l := by
  ext k hk
  simp [BitVec.getLsbD_eq_getElem hk, show 16 + k < 32 by omega]

/-- Bits 24:16 of a field placed at bit 0 are 0. -/
theorem leftField_low (r : BitVec 9) : (r.setWidth 32).extractLsb' 16 9 = 0 := by
  ext k hk
  simp [BitVec.getLsbD_of_ge r (16 + k) (by omega)]

/-- Bits 8:0 of a field placed at bit 16 are 0. -/
theorem rightField_shifted (l : BitVec 9) : (l.setWidth 32 <<< 16).extractLsb' 0 9 = 0 := by
  ext k hk
  simp [show k < 16 by omega]

/-- The lowest bits of a word that a shorter field was widened to are the field. -/
theorem lowField {n : Nat} (v : BitVec n) (h : n ≤ 32) : (v.setWidth 32).extractLsb' 0 n = v := by
  rw [BitVec.extractLsb'_setWidth_of_le (by omega), BitVec.extractLsb'_eq_self]

/-- LEAF(s) decodes to the leaf of `s`. -/
theorem ofWord_leafWord (s : Byte) : TreeNode.ofWord (leafWord s) = .leaf s := by
  simp [TreeNode.ofWord, leafWord, BitVec.extractLsb'_or, lowField]

/-- NODE(l, r) decodes to the internal node with both children. -/
theorem ofWord_nodeWord (l r : BitVec 9) : TreeNode.ofWord (nodeWord l r) = .internal (some l) (some r) := by
  simp [TreeNode.ofWord, nodeWord, BitVec.extractLsb'_or, leftField_shifted, leftField_low, rightField_shifted,
    lowField]

/-- NODE_L(l) decodes to the internal node with a left child alone. -/
theorem ofWord_nodeLeftWord (l : BitVec 9) : TreeNode.ofWord (nodeLeftWord l) = .internal (some l) none := by
  simp [TreeNode.ofWord, nodeLeftWord, BitVec.extractLsb'_or, leftField_shifted]

/-- NODE_R(r) decodes to the internal node with a right child alone. -/
theorem ofWord_nodeRightWord (r : BitVec 9) : TreeNode.ofWord (nodeRightWord r) = .internal none (some r) := by
  simp [TreeNode.ofWord, nodeRightWord, BitVec.extractLsb'_or, lowField]

/-- ROOT(i) decodes to V = 1 and the index (R39). -/
theorem ofWord_rootWord (i : BitVec 9) : TreeRoot.ofWord (rootWord i) = { valid := true, idx := i } := by
  simp [TreeRoot.ofWord, rootWord, BitVec.extractLsb'_or, lowField]

/-- Settles O4: one lemma per constructor, and the two examples by evaluation. -/
theorem nodeWordConstructorsDecode : Obligations.NodeWordConstructorsDecode :=
  ⟨ofWord_leafWord, ofWord_nodeWord, ofWord_nodeLeftWord, ofWord_nodeRightWord, ofWord_rootWord, by decide, by decide⟩

end Sys2Proof.Machine
end

section
/-! The poll of WAIT (O54). -/

namespace Sys2Proof.Machine

/-- A WAIT at the host's turn answers STATUS and stays pending exactly while BUSY = 1 (R86). -/
theorem step_wait {s : State} (rest : List HostEvent) (ht : hostsTurn s = true) :
    step (withEvents s .wait rest) =
      .next (afterEvent s s (if s.status.busy then .wait :: rest else rest) (.word (readReg s .status))) := by
  rw [step_host ht]
  simp only [hostEvent, hostWait]
  split <;> rfl

/-- Settles O54: `step_wait` in its two cases, which both are the host's turn. -/
theorem waitPollsStatus : Obligations.WaitPollsStatus := by
  refine ⟨fun s rest hb => ?_, fun s rest hb hsched => ?_⟩
  · rw [step_wait rest (hostsTurn_idle hb), if_neg (by simp [hb])]
  · rw [step_wait rest (hostsTurn_scheduled hsched), if_pos hb]

end Sys2Proof.Machine
end

section
/-! Weak fairness (O8): while BUSY = 1 each host event uses up one choice of the schedule. -/

namespace Sys2Proof.Machine

/-- A register write keeps the host's side. -/
theorem writeReg_host (s : State) (r : Reg) (v : Word) : (writeReg s r v).host = s.host := by
  have h := congrArg State.host (writeReg_withHost s s.host r v)
  exact h

/-- A host event leaves the schedule as it was: the choice was taken off before it. -/
theorem hostEvent_schedule {s t : State} {e : HostEvent} (h : hostEvent s e = .next t) :
    t.host.schedule = s.host.schedule := by
  cases e with
  | regRead size off =>
    simp only [hostEvent, hostRegRead] at h
    split at h
    · cases h
    split at h <;> cases h
    rfl
  | regWrite size off v =>
    simp only [hostEvent, hostRegWrite] at h
    split at h
    · cases h
    split at h <;> cases h
    rw [State.setReply_host, writeReg_host]
  | bufRead a =>
    simp only [hostEvent, hostBufRead] at h
    split at h
    · cases h
    split at h
    · split at h <;> cases h
      rfl
    · cases h; rfl
  | bufWrite a v =>
    simp only [hostEvent, hostBufWrite] at h
    split at h
    · cases h
    split at h <;> cases h <;> rfl
  | wait =>
    simp only [hostEvent, hostWait] at h
    split at h <;> cases h <;> rfl
  | hardReset => cases h; rfl

/-- With BUSY = 1, a step that is not the engine's takes one choice off the schedule. -/
theorem step_schedule_of_busy {s t : State} (hb : s.status.busy = true) (hturn : s.turn ≠ some .engine)
    (h : step s = .next t) : t.host.schedule = s.host.schedule.tail := by
  rcases step_cases h with ⟨hnone, -⟩ | ⟨hengine, -⟩ | ⟨hhost, e, rest, hp, hevent⟩
  · simp only [State.turn, hb, if_true] at hnone
    split at hnone <;> cases hnone
  · exact absurd hengine hturn
  · rw [hostEvent_schedule hevent, takeTurn_of_busy hb]
    simp [hp]

/-- A run of one step is the step. -/
theorem run_one (s : State) : Host.Core.run Sys2Proof.core 1 s = step s := by
  show _ = Sys2Proof.core.step s
  cases h : Sys2Proof.core.step s <;> simp only [Host.Core.run, h]

/-- A run goes on from the state after its first step. -/
theorem run_succ {s t : State} (k : Nat) (h : step s = .next t) :
    Host.Core.run Sys2Proof.core (k + 1) s = Host.Core.run Sys2Proof.core k t := by
  have hc : Sys2Proof.core.step s = .next t := h
  simp only [Host.Core.run, hc]

/-- Settles O8, by induction on the schedule: a step that is not the engine's is a host event, which takes one choice
off, and with no choice left the engine moves. -/
theorem acceptedCommandEventuallyRuns : Obligations.AcceptedCommandEventuallyRuns := by
  intro s hb
  induction hs : s.host.schedule generalizing s with
  | nil => exact ⟨0, Nat.le_refl _, .inr (turn_engine_of_busy hb (.inr (by simp [hs])))⟩
  | cons a sch ih =>
    by_cases hturn : s.turn = some .engine
    · exact ⟨0, Nat.zero_le _, .inr hturn⟩
    cases hstep : step s with
    | fault x => exact ⟨1, by simp, by rw [run_one, hstep]; trivial⟩
    | refused x => exact ⟨1, by simp, by rw [run_one, hstep]; trivial⟩
    | next t =>
      by_cases hbusy : t.status.busy = true
      · have hsch : t.host.schedule = sch := by rw [step_schedule_of_busy hb hturn hstep, hs, List.tail_cons]
        obtain ⟨k, hk, hreached⟩ := ih t hbusy hsch
        exact ⟨k + 1, Nat.succ_le_succ hk, by rw [run_succ k hstep]; exact hreached⟩
      · exact ⟨1, by simp, by rw [run_one, hstep]; exact .inl (by simpa using hbusy)⟩

end Sys2Proof.Machine
end

section
/-! Errors of commands: the next state of a command that raises, the range checks (O34) and the tables (O38). -/

namespace Sys2Proof.Machine

/-! ### A command that raises -/

/-- An output command that raises answers the failure record of R119. -/
theorem exec_output_raised {i : Instr} {s : State} {e : ErrorKind} {pos : Word} (hi : isOutputCommand i = true)
    (h : outputRun i s = .raised e pos) : ∃ t, exec i s = .next t ∧ FailsOutput s t e.code pos :=
  ⟨_, by rw [exec_eq, if_pos hi, h]; rfl, failsOutput_draw s e pos⟩

/-- A command with no output that raises answers the failure record of R119 with BUF as it was. -/
theorem exec_table_raised {i : Instr} {s : State} {e : ErrorKind} {pos : Word} (hi : isOutputCommand i = false)
    (h : tableRun i s = .raised e pos) : ∃ t, exec i s = .next t ∧ FailsWith s t e.code pos :=
  ⟨_, by rw [exec_eq, if_neg (by simp [hi]), h]; rfl, failsWith_raise s e pos⟩

/-- ERRCODE 0x0A is RangeFault's (R116). -/
theorem ErrorKind.code_eq_rangeFault {e : ErrorKind} : e.code = 0x0A ↔ e = .rangeFault := by
  cases e <;> decide

/-- A command leaves ERRCODE 0x0A only where its pseudocode raises RangeFault. -/
theorem exec_rangeFault {i : Instr} {s t : State} (h : exec i s = .next t) (hcode : t.status.errCode = 0x0A) :
    (isOutputCommand i = true ∧ ∃ pos, outputRun i s = .raised .rangeFault pos) ∨
    (isOutputCommand i = false ∧ ∃ pos, tableRun i s = .raised .rangeFault pos) := by
  rcases exec_eq_next h with ⟨-, out, -, -, rfl⟩ | ⟨hi, e, pos, hr, -, rfl⟩ | ⟨-, s', n, -, -, rfl⟩ |
    ⟨hi, e, pos, hr, -, rfl⟩
  · exact nomatch hcode
  · obtain rfl := ErrorKind.code_eq_rangeFault.1 hcode
    exact .inl ⟨hi, pos, hr⟩
  · exact nomatch hcode
  · obtain rfl := ErrorKind.code_eq_rangeFault.1 hcode
    exact .inr ⟨hi, pos, hr⟩

/-! ### The ranges, in naturals -/

/-- A range lies outside BUF where it passes the end (R12). -/
theorem inbuf_eq_false {p : Params} {base len : Nat} : inbuf p base len = false ↔ p.bufBytes < base + len := by
  simp [inbuf]

/-- Two ranges overlap where both are non-empty and each begins below the other's end (R12). -/
theorem overlap_eq_true {b1 l1 b2 l2 : Nat} :
    overlap b1 l1 b2 l2 = true ↔ 0 < l1 ∧ 0 < l2 ∧ b1 < b2 + l2 ∧ b2 < b1 + l1 := by
  simp [overlap, and_assoc]

theorem checkSrc_src {s : State} (h : s.srcOk = false) : checkSrc s = .raised .rangeFault 0x010 := by
  simp [checkSrc, h]

theorem checkSrcDst_src {s : State} (h : s.srcOk = false) : checkSrcDst s = .raised .rangeFault 0x010 := by
  simp [checkSrcDst, h]

theorem checkSrcDst_dst {s : State} (hsrc : s.srcOk = true) (h : s.dstOk = false) :
    checkSrcDst s = .raised .rangeFault 0x018 := by
  simp [checkSrcDst, hsrc, h]

theorem checkSrcDst_overlap {s : State} (hsrc : s.srcOk = true) (hdst : s.dstOk = true)
    (h : s.srcDstOverlap = true) : checkSrcDst s = .raised .rangeFault noPos := by
  simp [checkSrcDst, hsrc, hdst, h]

theorem checkSrcAux_src {s : State} (h : s.srcOk = false) : checkSrcAux s = .raised .rangeFault 0x010 := by
  simp [checkSrcAux, h]

theorem checkSrcAux_aux {s : State} (hsrc : s.srcOk = true) (h : s.auxOk = false) :
    checkSrcAux s = .raised .rangeFault 0x020 := by
  simp [checkSrcAux, hsrc, h]

/-- An output command checks its ranges before anything else. -/
theorem outputRun_of_check {s : State} {e : ErrorKind} {pos : Word} (i : Instr)
    (h : checkSrcDst s = .raised e pos) : outputRun i s = .raised e pos := by
  simp only [outputRun, h, Run.andThen_raised]

/-- CT_LOAD checks its range before anything else. -/
theorem runCtLoad_of_check {s : State} {e : ErrorKind} {pos : Word} (sym : Byte) (h : checkSrc s = .raised e pos) :
    runCtLoad sym s = .raised e pos := by
  rw [runCtLoad, h, Run.andThen_raised]

/-- TRIE_INSERT checks its ranges before anything else. -/
theorem runTrieInsert_of_check {s : State} {e : ErrorKind} {pos : Word} (h : checkSrcAux s = .raised e pos) :
    runTrieInsert s = .raised e pos := by
  rw [runTrieInsert, h, Run.andThen_raised]

/-- With its range in BUF, CT_LOAD raises no RangeFault. -/
theorem runCtLoad_no_rangeFault {sym : Byte} {s : State} {pos : Word} (hsrc : s.srcOk = true) :
    runCtLoad sym s ≠ .raised .rangeFault pos := by
  intro h
  simp only [runCtLoad, checkSrc_ok hsrc, Run.andThen_ok] at h
  split at h
  · cases h
  rcases Run.andThen_eq_raised.1 h with h | ⟨code, -, h⟩
  · cases readCode_raised h
  · cases h

/-- GEN_CODES raises no RangeFault. -/
theorem runGenCodes_no_rangeFault {s : State} {pos : Word} : runGenCodes s ≠ .raised .rangeFault pos := by
  intro h
  unfold runGenCodes at h
  split at h
  · cases h
  rcases Run.andThen_eq_raised.1 h with h | ⟨t, -, h⟩
  · split at h
    · cases h
    · rcases visit_raised h with h | h <;> cases h
  · cases h

/-- With its ranges in BUF, TRIE_INSERT raises no RangeFault. -/
theorem runTrieInsert_no_rangeFault {s : State} {pos : Word} (hsrc : s.srcOk = true) (haux : s.auxOk = true) :
    runTrieInsert s ≠ .raised .rangeFault pos := by
  intro h
  simp only [runTrieInsert, checkSrcAux_ok hsrc haux, Run.andThen_ok] at h
  rcases Run.andThen_eq_raised.1 h with h | ⟨key, -, h⟩
  · cases readKey_raised h
  split at h
  · cases h
  split at h
  · cases h
  rcases Run.andThen_eq_raised.1 h with h | ⟨pay, -, h⟩
  · exact readAux_not_raised h
  · cases h

/-- A command with no output leaves ERRCODE 0x0A only where its pseudocode raises RangeFault. -/
theorem exec_table_errCode {i : Instr} {s t : State} (hi : isOutputCommand i = false)
    (hr : ∀ pos, tableRun i s ≠ .raised .rangeFault pos) (h : exec i s = .next t) : t.status.errCode ≠ 0x0A := by
  intro hcode
  rcases exec_rangeFault h hcode with ⟨ho, -⟩ | ⟨-, pos, hp⟩
  · simp [hi] at ho
  · exact hr pos hp

/-- The checks of an output command (R90). -/
theorem exec_output_ranges {i : Instr} (s : State) (hi : isOutputCommand i = true) :
    (s.srcOk = false → ∃ t, exec i s = .next t ∧ FailsOutput s t 0x0A 0x010) ∧
    (s.srcOk = true → s.dstOk = false → ∃ t, exec i s = .next t ∧ FailsOutput s t 0x0A 0x018) ∧
    (s.srcOk = true → s.dstOk = true → s.srcDstOverlap = true →
      ∃ t, exec i s = .next t ∧ FailsOutput s t 0x0A 0xFFFFFFFF) ∧
    (outputRangesOk s = true → ∀ t, exec i s = .next t → t.status.errCode ≠ 0x0A) := by
  refine ⟨fun h => ?_, fun hsrc h => ?_, fun hsrc hdst h => ?_, fun hok t h hcode => ?_⟩
  · exact exec_output_raised hi (outputRun_of_check i (checkSrcDst_src h))
  · exact exec_output_raised hi (outputRun_of_check i (checkSrcDst_dst hsrc h))
  · exact exec_output_raised hi (outputRun_of_check i (checkSrcDst_overlap hsrc hdst h))
  · rcases exec_rangeFault h hcode with ⟨-, pos, hr⟩ | ⟨ho, -⟩
    · exact (outputRun_raised hr).2 hok rfl
    · simp [hi] at ho

/-- Settles O34: each range that fails makes the pseudocode raise before it does anything else, and with good ranges no
later line raises RangeFault. -/
theorem rangeChecksComeFirst : Obligations.RangeChecksComeFirst := by
  simp only [Obligations.RangeChecksComeFirst, ← inbuf_eq_false, ← overlap_eq_true]
  refine ⟨fun i s hi => ?_, fun sym s => ?_, fun s => ?_, fun i s t hi => ?_⟩
  · obtain ⟨hsrcFault, hdstFault, hoverFault, hnone⟩ := exec_output_ranges s hi
    split
    next hsrc => exact hsrcFault hsrc
    next hsrc =>
    have hsrc := Bool.of_not_eq_false hsrc
    split
    next hdst => exact hdstFault hsrc hdst
    next hdst =>
    have hdst := Bool.of_not_eq_false hdst
    split
    next hover => exact hoverFault hsrc hdst hover
    next hover => exact hnone ((outputRangesOk_iff s).2 ⟨hsrc, hdst, Bool.eq_false_of_not_eq_true hover⟩)
  · split
    next hsrc =>
      exact exec_table_raised (i := .ctLoad sym) rfl (runCtLoad_of_check sym (checkSrc_src hsrc))
    next hsrc =>
      exact fun t => exec_table_errCode rfl fun pos => runCtLoad_no_rangeFault (Bool.of_not_eq_false hsrc)
  · split
    next hsrc => exact exec_table_raised (i := .trieInsert) rfl (runTrieInsert_of_check (checkSrcAux_src hsrc))
    next hsrc =>
    have hsrc := Bool.of_not_eq_false hsrc
    split
    next haux => exact exec_table_raised (i := .trieInsert) rfl (runTrieInsert_of_check (checkSrcAux_aux hsrc haux))
    next haux =>
      exact fun t => exec_table_errCode rfl fun pos =>
        runTrieInsert_no_rangeFault hsrc (Bool.of_not_eq_false haux)
  · rcases hi with rfl | rfl | rfl | rfl
    · exact exec_table_errCode rfl nofun
    · exact exec_table_errCode rfl nofun
    · exact exec_table_errCode rfl nofun
    · exact exec_table_errCode rfl fun pos => runGenCodes_no_rangeFault

/-- Settles O38: of the four forms of a command's next state, the two with ERR keep every table. -/
theorem failedCommandsKeepTheTables : Obligations.FailedCommandsKeepTheTables := by
  intro i s t h herr
  rcases exec_eq_next h with ⟨-, out, -, -, rfl⟩ | ⟨-, e, pos, -, -, rfl⟩ | ⟨-, s', n, -, -, rfl⟩ |
    ⟨-, e, pos, -, -, rfl⟩
  · exact nomatch herr
  · exact ⟨rfl, rfl, rfl, rfl, rfl⟩
  · exact nomatch herr
  · exact ⟨rfl, rfl, rfl, rfl, rfl⟩

end Sys2Proof.Machine
end

section
/-! The control commands (O9, O10, O11). -/

namespace Sys2Proof.Machine

/-- A word with the opcode of a command other than CT_LOAD decodes only where every other bit is 0 (R76, R80). -/
theorem decode_ne_ok_of_opcode {c : Word} {op : Byte} (hop : opField c = op) (hload : op ≠ 0x10#8)
    (hne : c ≠ commandWord op 0) (i : Instr) : decode c ≠ .ok i := by
  intro h
  obtain ⟨-, hreserved, hsym⟩ := decode_eq_ok.1 h
  have hsym : symField c = 0 := hsym.resolve_right (hop ▸ hload)
  exact hne (by rw [commandWord_fields hreserved, hop, hsym])

/-- The next state of NOP (R94). -/
theorem exec_nop (s : State) : exec .nop s = .next { s with status := okStatus s, outLen := 0, errPos := 0 } := rfl

/-- The next state of CLR_CT (R95). -/
theorem exec_clrCt (s : State) : exec .clrCt s =
    .next { s with ct := emptyCodeTable, status := okStatus s, outLen := 0, errPos := 0 } := rfl

/-- The next state of CLR_TRIE (R96). -/
theorem exec_clrTrie (s : State) : exec .clrTrie s =
    .next { s with trie := Trie.bare, payUsed := 0, status := okStatus s, outLen := 0, errPos := 0 } := rfl

/-- HUF_ENC's scan ends at a byte with no code (R104). -/
theorem hufEncScan_missing {s : State} {n i : Nat} {b : Byte} {out : Bytes} (hb : src s i = .ok b)
    (hc : codeAt s.ct b = none) : hufEncScan s (n + 1) i out = .raised .missingCodeEntry (wordOf i) := by
  rw [hufEncScan, hb, Run.andThen_ok, hc]

/-- With no code at all, HUF_ENC of a non-empty input with good ranges and a written first byte raises
MissingCodeEntry(0) (R95). -/
theorem outputRun_hufEnc_empty {u : State} (hct : u.ct = emptyCodeTable) (hok : outputRangesOk u = true)
    (hlen : 0 < u.srcLen.toNat) (hw : (u.buf.read u.srcBase.toNat).isSome = true) :
    outputRun .hufEnc u = .raised .missingCodeEntry 0 := by
  obtain ⟨b, hb⟩ := Option.isSome_iff_exists.1 hw
  obtain ⟨n, hn⟩ := Nat.exists_eq_add_one.2 hlen
  simp only [outputRun, checkSrcDst_ok hok, Run.andThen_ok, hn]
  exact hufEncScan_missing (src_eq_ok.2 hb) (by rw [hct, codeAt_empty])

/-- Settles O9: the next state is `exec_nop`, which has DONE set; a word with OP 0x00 that decodes has no other
bit set. -/
theorem nopCompletes : Obligations.NopCompletes := by
  refine ⟨exec_nop, by decide, fun c hop hne => decode_ne_ok_of_opcode hop (by decide) hne, fun s t h hie => ?_⟩
  rw [exec_nop] at h
  cases h
  exact (irq_iff _).2 ⟨hie, .inl rfl⟩

/-- Settles O10: the next state is `exec_clrCt`, and the table it leaves has no code for HUF_ENC's first byte. -/
theorem clrCtClearsEveryEntry : Obligations.ClrCtClearsEveryEntry := by
  refine ⟨by decide, fun c hop hne => decode_ne_ok_of_opcode hop (by decide) hne,
    fun s => ⟨_, exec_clrCt s, rfl, codeAt_empty⟩, fun s t u h hct hok hlen hw => ?_⟩
  rw [exec_clrCt] at h
  cases h
  exact exec_output_raised rfl (outputRun_hufEnc_empty hct hok hlen hw)

/-- Settles O11: the next state is `exec_clrTrie`, and its trie is the bare root. -/
theorem clrTrieLeavesTheBareRoot : Obligations.ClrTrieLeavesTheBareRoot :=
  ⟨by decide, fun _ hop hne => decode_ne_ok_of_opcode hop (by decide) hne,
    fun s => ⟨_, exec_clrTrie s, rfl, Trie.has_bare, Trie.payload_bare, rfl, rfl, rfl⟩⟩

end Sys2Proof.Machine
end

section
/-! The code-table commands (O12 to O17): what CT_LOAD reads, and what the walk of GEN_CODES makes of TREE. -/

namespace Sys2Proof.Machine

/-- A command with no output that ends in a state answers it with the success record of R118. -/
theorem exec_table_ok {i : Instr} {s s' : State} {n : Nat} (hi : isOutputCommand i = false)
    (h : tableRun i s = .ok (s', n)) : exec i s = .next (s'.finishOk n) := by
  rw [exec_eq, if_neg (by simp [hi]), h]
  rfl

/-! ### CT_LOAD -/

/-- CT_LOAD on the text of a code that is not too long (R99). -/
theorem runCtLoad_ok {s : State} {code : Code} (sym : Byte) (hsrc : s.srcOk = true)
    (htext : s.srcString = some (ascii code)) (hlen : code.length ≤ Config.maxCodeLen) :
    runCtLoad sym s = .ok ({ s with ct := setCode s.ct sym (loadedEntry code) }, s.srcLen.toNat) := by
  obtain ⟨hreads, hl⟩ := reads_of_srcString htext
  rw [ascii_length] at hl
  have hcode : readCode s s.srcLen.toNat 0 = .ok code := readCode_eq_ok.2 ⟨hl, hreads⟩
  rw [runCtLoad, checkSrc_ok hsrc, Run.andThen_ok, if_neg (by omega), hcode, Run.andThen_ok]

/-- CT_LOAD refuses a longer code before it reads a character (R99). -/
theorem runCtLoad_tooLong {s : State} (sym : Byte) (hsrc : s.srcOk = true)
    (hlen : Config.maxCodeLen < s.srcLen.toNat) : runCtLoad sym s = .raised .codeLengthExceeded 255 := by
  rw [runCtLoad, checkSrc_ok hsrc, Run.andThen_ok, if_pos hlen]
  rfl

/-- CT_LOAD's scan ends at a character that is no bit (R99). -/
theorem readCode_foreign {s : State} {n i : Nat} {pre : Code} {c : Byte} (hr : Reads s i (ascii pre ++ [c]))
    (hc : bitOf c = none) :
    readCode s (pre.length + (n + 1)) i = .raised .malformedHuffmanInput (wordOf (i + pre.length)) := by
  rw [reads_append, ascii_length, reads_cons] at hr
  obtain ⟨hpre, hchar, -⟩ := hr
  rw [readCode_prefix hpre, readCode, hchar, Run.andThen_ok, hc]
  rfl

/-- CT_LOAD raises at the first character that is no bit (R99). -/
theorem runCtLoad_foreign {s : State} {pre : Code} {c : Byte} (sym : Byte) (hsrc : s.srcOk = true)
    (hlen : s.srcLen.toNat ≤ Config.maxCodeLen) (hpre : pre.length < s.srcLen.toNat) (hc : bitOf c = none)
    (hr : Reads s 0 (ascii pre ++ [c])) :
    runCtLoad sym s = .raised .malformedHuffmanInput (wordOf pre.length) := by
  obtain ⟨n, hn⟩ := Nat.exists_eq_add_of_lt hpre
  rw [runCtLoad, checkSrc_ok hsrc, Run.andThen_ok, if_neg (by omega), hn, Nat.add_assoc, readCode_foreign hr hc,
    Run.andThen_raised, Nat.zero_add]

/-- Settles O12: the scan answers the code, and the success record of `runCtLoad_ok` is the one claimed. -/
theorem ctLoadSetsOneEntry : Obligations.CtLoadSetsOneEntry := by
  intro s sym code hsrc htext hlen
  refine ⟨_, exec_table_ok rfl (runCtLoad_ok sym hsrc htext hlen), ?_, fun x => ?_⟩
  · simp [State.finishOk, okStatus, Status.succeed]
  · simp [loadedEntry]

/-- Settles O13: each error in the order of the pseudocode. -/
theorem ctLoadReportsErrors : Obligations.CtLoadReportsErrors := by
  refine ⟨fun s sym hsrc => ?_, fun s sym hsrc hlen => ?_, fun s sym pre c hsrc hlen hpre h0 h1 htext => ?_⟩
  · exact exec_table_raised (i := .ctLoad sym) rfl (runCtLoad_of_check sym (checkSrc_src hsrc))
  · exact exec_table_raised (i := .ctLoad sym) rfl (runCtLoad_tooLong sym hsrc hlen)
  · exact exec_table_raised (i := .ctLoad sym) rfl
      (runCtLoad_foreign sym hsrc hlen hpre (bitOf_eq_none.2 ⟨h0, h1⟩) (reads_of_readBytes htext))

/-! ### GEN_CODES by the kind of its root -/

/-- GEN_CODES with no tree loaded (R100). -/
theorem runGenCodes_invalid {s : State} (hv : s.treeRoot.valid = false) :
    runGenCodes s = .raised .treeStructureFault noPos := by
  simp [runGenCodes, hv]

/-- A table with one code set has one entry. -/
theorem codeCount_single (sym : Byte) (c : Code) : codeCount (setCode emptyCodeTable sym (some c)) = 1 := by
  rw [codeCount_setCode (codeAt_empty sym), codeCount_empty]

/-- GEN_CODES on a single leaf (R100). -/
theorem runGenCodes_leaf {s : State} {sym : Byte} (hv : s.treeRoot.valid = true)
    (hroot : nodeAt s.tree s.treeRoot.idx = .leaf sym) :
    runGenCodes s = .ok ({ s with ct := setCode emptyCodeTable sym (some [false]) }, 1) := by
  simp [runGenCodes, hv, hroot, codeCount_single]

/-- GEN_CODES on an inner root is its walk (R100). -/
theorem runGenCodes_internal {s : State} {l r : Option (BitVec 9)} (hv : s.treeRoot.valid = true)
    (hroot : nodeAt s.tree s.treeRoot.idx = .internal l r) :
    runGenCodes s = (visit s.tree Config.maxCodeLen s.treeRoot.idx [] emptyCodeTable).andThen fun t =>
      .ok ({ s with ct := t }, codeCount t) := by
  simp [runGenCodes, hv, hroot]

/-- GEN_CODES's errors are those of its walk (R100). -/
theorem runGenCodes_raised {s : State} {e : ErrorKind} {pos : Word} (h : runGenCodes s = .raised e pos) :
    e = .treeStructureFault ∨ e = .codeLengthExceeded := by
  cases hv : s.treeRoot.valid with
  | false => rw [runGenCodes_invalid hv] at h; cases h; exact .inl rfl
  | true =>
    cases hroot : nodeAt s.tree s.treeRoot.idx with
    | leaf sym => rw [runGenCodes_leaf hv hroot] at h; cases h
    | internal l r =>
      rw [runGenCodes_internal hv hroot] at h
      rcases Run.andThen_eq_raised.1 h with h | ⟨t, -, h⟩
      · exact visit_raised h
      · cases h

/-! ### GEN_CODES on a tree -/

theorem loadedTree_iff {s : State} {tr : HuffTree} :
    loadedTree s tr = true ↔
      s.treeRoot.valid = true ∧ holdsTree s.tree tr s.treeRoot.idx = true ∧ tr.symbols.Nodup := by
  simp [loadedTree, and_assoc]

/-- A tree with distinct symbols is no deeper than the longest code. -/
theorem HuffTree.depth_le_maxCodeLen {tr : HuffTree} (hn : tr.symbols.Nodup) : tr.depth ≤ Config.maxCodeLen := by
  have := HuffTree.depth_lt tr
  have := symbols_length_le hn
  simp only [Config.maxCodeLen]
  omega

/-- From the empty table, a finished walk sets exactly the paths of the tree it found. -/
theorem Walked.codeAt_eq_lookup {t : CodeTable} {tr : HuffTree} (h : Walked emptyCodeTable t [] tr) (sym : Byte) :
    codeAt t sym = tr.paths.lookup sym := by
  obtain ⟨hn, -, hcodes, -⟩ := h
  ext c
  rw [hcodes, HuffTree.lookup_paths hn]
  simp

/-- The table that GEN_CODES is to leave for a tree: every entry as the tree gives it, one per leaf. -/
def TableOf (t : CodeTable) (tr : HuffTree) : Prop :=
  (∀ sym, codeAt t sym = tr.table.lookup sym) ∧ codeCount t = tr.symbols.length

theorem tableOf_leaf (sym : Byte) : TableOf (setCode emptyCodeTable sym (some [false])) (.leaf sym) := by
  refine ⟨fun x => ?_, ?_⟩
  · by_cases hx : x = sym
    · simp [HuffTree.table, hx]
    · have hbeq : (x == sym) = false := beq_false_of_ne hx
      simp [HuffTree.table, List.lookup_cons, hx, hbeq]
  · exact codeCount_single sym _

theorem Walked.tableOf_node {t : CodeTable} {l r : HuffTree} (h : Walked emptyCodeTable t [] (.node l r)) :
    TableOf t (.node l r) := by
  refine ⟨h.codeAt_eq_lookup, ?_⟩
  obtain ⟨-, -, -, hcount⟩ := h
  rw [hcount, codeCount_empty, Nat.zero_add]

/-- GEN_CODES on a loaded tree leaves the tree's table (R100). -/
theorem runGenCodes_of_tree {s : State} {tr : HuffTree} (h : loadedTree s tr = true) :
    ∃ t, runGenCodes s = .ok ({ s with ct := t }, tr.symbols.length) ∧ TableOf t tr := by
  obtain ⟨hv, hholds, hn⟩ := loadedTree_iff.1 h
  cases tr with
  | leaf sym => exact ⟨_, runGenCodes_leaf hv (holdsTree_leaf.1 hholds), tableOf_leaf sym⟩
  | node l r =>
    obtain ⟨a, b, hroot, -, -⟩ := holdsTree_node.1 hholds
    obtain ⟨t, hvisit, hwalked⟩ := visit_of_tree (path := []) (t := emptyCodeTable) hholds
      (HuffTree.depth_le_maxCodeLen hn) hn fun x _ => codeAt_empty x
    have htable := hwalked.tableOf_node
    exact ⟨t, by rw [runGenCodes_internal hv hroot, hvisit, Run.andThen_ok, htable.2], htable⟩

/-- The next state of GEN_CODES on a loaded tree. -/
theorem exec_genCodes_of_tree {s : State} {tr : HuffTree} (h : loadedTree s tr = true) :
    ∃ t, exec .genCodes s = .next (({ s with ct := t } : State).finishOk tr.symbols.length) ∧ TableOf t tr := by
  obtain ⟨t, hrun, htable⟩ := runGenCodes_of_tree h
  exact ⟨t, exec_table_ok rfl hrun, htable⟩

/-- GEN_CODES answers a table only where a tree with distinct symbols is loaded. -/
theorem loadedTree_of_runGenCodes {s s' : State} {n : Nat} (h : runGenCodes s = .ok (s', n)) :
    ∃ tr, loadedTree s tr = true := by
  cases hv : s.treeRoot.valid with
  | false => rw [runGenCodes_invalid hv] at h; cases h
  | true =>
    cases hroot : nodeAt s.tree s.treeRoot.idx with
    | leaf sym => exact ⟨.leaf sym, loadedTree_iff.2 ⟨hv, holdsTree_leaf.2 hroot, List.nodup_singleton sym⟩⟩
    | internal l r =>
      rw [runGenCodes_internal hv hroot] at h
      obtain ⟨t, hvisit, -⟩ := Run.andThen_eq_ok.1 h
      obtain ⟨tr, hholds, -, hn, -⟩ := visit_eq_ok hvisit
      exact ⟨tr, loadedTree_iff.2 ⟨hv, hholds, hn⟩⟩

/-- Everything GEN_CODES can do: the success record on a loaded tree, or the failure record with one of two codes. -/
theorem exec_genCodes_cases (s : State) :
    (∃ s' n, exec .genCodes s = .next (State.finishOk s' n) ∧ ∃ tr, loadedTree s tr = true) ∨
    (∃ e pos, exec .genCodes s = .next (s.raiseError e pos) ∧
      (e = .treeStructureFault ∨ e = .codeLengthExceeded)) := by
  have hexec : exec .genCodes s = endTable s (runGenCodes s) := rfl
  cases hrun : runGenCodes s with
  | ok p => exact .inl ⟨p.1, p.2, by rw [hexec, hrun]; rfl, loadedTree_of_runGenCodes hrun⟩
  | raised e pos => exact .inr ⟨e, pos, by rw [hexec, hrun]; rfl, runGenCodes_raised hrun⟩
  | fault x => exact absurd hrun runGenCodes_not_fault

/-- Settles O14, by `exec_genCodes_of_tree`. -/
theorem genCodesBuildsTheTable : Obligations.GenCodesBuildsTheTable := by
  intro s tr h
  obtain ⟨t, hexec, hcodes, -⟩ := exec_genCodes_of_tree h
  exact ⟨_, hexec, rfl, hcodes⟩

/-- Settles O15, by the two cases of `exec_genCodes_cases`. -/
theorem genCodesSucceedsOnlyOnATree : Obligations.GenCodesSucceedsOnlyOnATree := by
  intro s
  rcases exec_genCodes_cases s with ⟨s', n, hexec, htree⟩ | ⟨e, pos, hexec, he⟩
  · exact ⟨_, hexec, fun _ => htree, nofun⟩
  · refine ⟨_, hexec, nofun, fun _ => ⟨e.code, pos, ?_, failsWith_raise s e pos⟩⟩
    rcases he with rfl | rfl
    · exact .inr rfl
    · exact .inl rfl

/-! ### GEN_CODES's errors -/

/-- A walk of `genWalk` has not left its start, or starts at an inner node. -/
theorem genWalk_start {tree : TreeMemory} {d : Nat} {path : Code} {i j : BitVec 9} {before : List HuffTree}
    (h : genWalk tree d path i before = some j) :
    (i = j ∧ before = []) ∨ ∃ l r, nodeAt tree i = .internal l r := by
  cases path with
  | nil =>
    cases before with
    | nil => exact .inl ⟨by simpa [genWalk] using h, rfl⟩
    | cons tr before => simp [genWalk] at h
  | cons b rest =>
    cases hnode : nodeAt tree i with
    | leaf sym => cases d <;> simp [genWalk, hnode] at h
    | internal l r => exact .inr ⟨l, r, rfl⟩

/-- An inner node that lacks a child ends the walk (R100). -/
theorem visit_missing_child {tree : TreeMemory} {j : BitVec 9} {l r : Option (BitVec 9)}
    (hnode : nodeAt tree j = .internal l r) (hlr : l = none ∨ r = none) (d : Nat) (path : Code) (t : CodeTable) :
    visit tree d j path t = .raised .treeStructureFault (j.setWidth 32) := by
  unfold visit
  rcases hlr with rfl | rfl
  · simp [hnode]
  · cases l <;> simp [hnode]

/-- A leaf whose symbol already has a code ends the walk (R100). -/
theorem visit_duplicate {tree : TreeMemory} {j : BitVec 9} {sym : Byte} {t : CodeTable}
    (hnode : nodeAt tree j = .leaf sym) (hset : (codeAt t sym).isSome = true) (d : Nat) (path : Code) :
    visit tree d j path t = .raised .treeStructureFault (j.setWidth 32) := by
  unfold visit
  simp [hnode, hset]

/-- An inner node at the depth limit ends the walk (R100). -/
theorem visit_depth_limit {tree : TreeMemory} {j l r : BitVec 9}
    (hnode : nodeAt tree j = .internal (some l) (some r)) (path : Code) (t : CodeTable) :
    visit tree 0 j path t = .raised .codeLengthExceeded (j.setWidth 32) := by
  unfold visit
  simp [hnode]

/-- An error at the node to which the walk comes, whatever table it has built on the way, is the error of
GEN_CODES. -/
theorem exec_genCodes_raised_at {s : State} {path : Code} {before : List HuffTree} {j : BitVec 9} {e : ErrorKind}
    {q : Word} (hv : s.treeRoot.valid = true)
    (hwalk : genWalk s.tree Config.maxCodeLen path s.treeRoot.idx before = some j)
    (hn : (before.flatMap HuffTree.symbols).Nodup) (hinner : before ≠ [] ∨ ∃ l r, nodeAt s.tree j = .internal l r)
    (herr : ∀ t, (∀ x ∈ before.flatMap HuffTree.symbols, (codeAt t x).isSome = true) →
      visit s.tree (Config.maxCodeLen - path.length) j path t = .raised e q) :
    ∃ t, exec .genCodes s = .next t ∧ FailsWith s t e.code q := by
  have hroot : ∃ l r, nodeAt s.tree s.treeRoot.idx = .internal l r := by
    rcases genWalk_start hwalk with ⟨hij, hb⟩ | hroot
    · rw [hij]; exact hinner.resolve_left (not_not_intro hb)
    · exact hroot
  obtain ⟨l, r, hroot⟩ := hroot
  obtain ⟨-, t, hset, -, hvisit⟩ := visit_genWalk hwalk (p := []) hn fun x _ => codeAt_empty x
  refine exec_table_raised (i := .genCodes) rfl ?_
  show runGenCodes s = _
  rw [runGenCodes_internal hv hroot, hvisit e q (herr t hset), Run.andThen_raised]

/-- Settles O16: with no tree at once, and elsewhere the walk ends at `j` by the lemma for the kind of `j`. -/
theorem genCodesRejectsBrokenTrees : Obligations.GenCodesRejectsBrokenTrees := by
  refine ⟨fun s hv => exec_table_raised (i := .genCodes) rfl (runGenCodes_invalid hv),
    fun s path before j hv hwalk hn => ⟨fun l r hnode hlr => ?_, fun sym hnode hmem => ?_, fun l r hnode hdepth => ?_,
      fun r hnode => ?_⟩⟩
  · exact exec_genCodes_raised_at (e := .treeStructureFault) hv hwalk hn (.inr ⟨l, r, hnode⟩)
      fun t _ => visit_missing_child hnode hlr _ _ t
  · have hbefore : before ≠ [] := by
      rintro rfl
      simp at hmem
    exact exec_genCodes_raised_at (e := .treeStructureFault) hv hwalk hn (.inl hbefore)
      fun t hset => visit_duplicate hnode (hset sym hmem) _ _
  · refine exec_genCodes_raised_at (e := .codeLengthExceeded) hv hwalk hn (.inr ⟨_, _, hnode⟩) fun t _ => ?_
    rw [hdepth]
    exact visit_depth_limit hnode path t
  · exact exec_genCodes_raised_at (e := .codeLengthExceeded) hv hwalk hn (.inr ⟨_, _, hnode⟩)
      fun t _ => visit_left_loop hnode _ _ t

/-! ### The codes of a tree -/

/-- The codes of a tree are prefix-free: a single leaf has one, and in a node they are paths (R102). -/
theorem HuffTree.table_prefix_free {tr : HuffTree} {a b : Byte} {c d : Code} (ha : (a, c) ∈ tr.table)
    (hb : (b, d) ∈ tr.table) (hne : a ≠ b) : ¬ c <+: d := by
  cases tr with
  | leaf sym =>
    simp only [HuffTree.table, List.mem_singleton, Prod.mk.injEq] at ha hb
    exact absurd (ha.1.trans hb.1.symm) hne
  | node l r => exact HuffTree.paths_prefix_free ha hb hne

/-- A tree of N leaves, N at least 2, has codes of length at most N - 1 (R102). -/
theorem HuffTree.table_length_le {tr : HuffTree} {a : Byte} {c : Code} (h : (a, c) ∈ tr.table)
    (h2 : 2 ≤ tr.symbols.length) : c.length ≤ tr.symbols.length - 1 := by
  cases tr with
  | leaf sym => simp [HuffTree.symbols] at h2
  | node l r =>
    have hpath := HuffTree.path_length_le h
    have hdepth := HuffTree.depth_lt (.node l r)
    omega

/-- An entry of the table of a tree is one of the tree's codes. -/
theorem TableOf.mem_table {t : CodeTable} {tr : HuffTree} (h : TableOf t tr) {a : Byte} {c : Code}
    (ha : codeAt t a = some c) : (a, c) ∈ tr.table :=
  lookup_eq_some_mem (h.1 a ▸ ha)

/-- After GEN_CODES on a loaded tree, CT is the table of the tree. -/
theorem tableOf_exec_genCodes {s t : State} {tr : HuffTree} (h : exec .genCodes s = .next t)
    (htree : loadedTree s tr = true) : TableOf t.ct tr := by
  obtain ⟨ct, hexec, htable⟩ := exec_genCodes_of_tree htree
  rw [hexec] at h
  cases h
  exact htable

/-- Settles O17: success means that a tree is loaded (O15), and then CT is that tree's table, whose codes are
prefix-free and no longer than the tree is deep. -/
theorem generatedCodesArePrefixFree : Obligations.GeneratedCodesArePrefixFree := by
  intro s t h hdone
  refine ⟨fun a b c d hne ha hb => ?_, fun tr htree h2 => ?_⟩
  · obtain ⟨t', ht', hsound, -⟩ := genCodesSucceedsOnlyOnATree s
    obtain rfl : t' = t := by rw [h] at ht'; cases ht'; rfl
    obtain ⟨tr, htree⟩ := hsound hdone
    have htable := tableOf_exec_genCodes h htree
    exact HuffTree.table_prefix_free (htable.mem_table ha) (htable.mem_table hb) hne
  · have htable := tableOf_exec_genCodes h htree
    exact ⟨htable.2, fun a c ha => HuffTree.table_length_le (htable.mem_table ha) h2⟩

end Sys2Proof.Machine
end

section
/-! The Huffman commands (O18 to O23): what HUF_ENC writes or where it stops, where the walk of HUF_DEC stands and what
ends it, and the round trip through the code table of a tree. -/

namespace Sys2Proof.Machine

/-- An output command whose pseudocode ends in a string answers the success record of R118. -/
theorem exec_output_ok {i : Instr} {s : State} {out : Bytes} (hi : isOutputCommand i = true)
    (h : outputRun i s = .ok out) : ∃ t, exec i s = .next t ∧ SucceedsOutput s t out :=
  ⟨_, by rw [exec_eq, if_pos hi, h]; rfl, succeedsOutput_commit s out⟩

/-! ### HUF_ENC -/

/-- With good ranges HUF_ENC is its scan (R104). -/
theorem outputRun_hufEnc {s : State} (hok : outputRangesOk s = true) :
    outputRun .hufEnc s = hufEncScan s s.srcLen.toNat 0 [] := by
  rw [outputRun, checkSrcDst_ok hok, Run.andThen_ok]

/-- HUF_ENC's scan ends at a byte whose code does not fit (R104). -/
theorem hufEncScan_full {s : State} {n i : Nat} {b : Byte} {code : Code} {out : Bytes} (hb : src s i = .ok b)
    (hc : codeAt s.ct b = some code) (hfull : s.dstCap.toNat < out.length + code.length) :
    hufEncScan s (n + 1) i out = .raised .allocationFailure (wordOf i) := by
  rw [hufEncScan, hb, Run.andThen_ok, hc]
  simp only
  rw [append_full (by rwa [ascii_length]), Run.andThen_raised]

/-- Behind a prefix whose codes fit, HUF_ENC stands at the next byte with those codes in its output (R104). -/
theorem outputRun_hufEnc_after {s : State} {pre : Bytes} {codes : List Code} (hok : outputRangesOk s = true)
    (hlen : pre.length < s.srcLen.toNat) (hr : Reads s 0 pre) (hc : pre.map (codeAt s.ct) = codes.map some)
    (hf : (bitText codes).length ≤ s.dstCap.toNat) :
    ∃ n, outputRun .hufEnc s = hufEncScan s (n + 1) pre.length (bitText codes) := by
  obtain ⟨n, hn⟩ := Nat.exists_eq_add_of_lt hlen
  have hscan := hufEncScan_prefix (n := n + 1) (out := []) hr hc (by simpa using hf)
  rw [Nat.zero_add, List.nil_append] at hscan
  exact ⟨n, by rw [outputRun_hufEnc hok, hn, Nat.add_assoc, hscan]⟩

/-- Settles O18: the scan follows the whole SRC string. -/
theorem hufEncWritesTheBitString : Obligations.HufEncWritesTheBitString := by
  intro s str codes hok hstr hc hf
  obtain ⟨hr, hlen⟩ := reads_of_srcString hstr
  have hscan := hufEncScan_prefix (n := 0) (out := []) hr hc (by simpa using hf)
  rw [Nat.add_zero, hlen, hufEncScan, List.nil_append] at hscan
  exact exec_output_ok rfl ((outputRun_hufEnc hok).trans hscan)

/-- Settles O19: the scan follows the prefix and ends at the byte behind it, for want of a code or of room. -/
theorem hufEncReportsTheFirstFailure : Obligations.HufEncReportsTheFirstFailure := by
  intro s pre b codes hok hlen htext hc hf
  have hr := reads_of_readBytes htext
  rw [reads_append, reads_cons, Nat.zero_add] at hr
  obtain ⟨hpre, hb, -⟩ := hr
  obtain ⟨n, hrun⟩ := outputRun_hufEnc_after hok hlen hpre hc hf
  cases hcode : codeAt s.ct b with
  | none => exact exec_output_raised rfl (hrun.trans (hufEncScan_missing hb hcode))
  | some code => exact fun hfull => exec_output_raised rfl (hrun.trans (hufEncScan_full hb hcode hfull))

/-! ### HUF_DEC on codewords -/

/-- The HUF_DEC walk at a node behind the codewords `pairs` and the bits `part` of the next one (R105). -/
def hufWalkAt (pairs : List (Code × Byte)) (part : Code) (node : BitVec 9) : HufWalk :=
  { node := node, depth := part.length, out := pairs.map (fun e => e.2) }

/-- With good ranges HUF_DEC is its scan and its end (R105). -/
theorem outputRun_hufDec {s : State} (hok : outputRangesOk s = true) :
    outputRun .hufDec s = (hufDecScan s s.srcLen.toNat 0 (hufWalkAt [] [] s.treeRoot.idx)).andThen (hufDecEnd s) := by
  rw [outputRun, checkSrcDst_ok hok, Run.andThen_ok]
  rfl

/-- The end of HUF_DEC answers the output exactly where the walk is at the root (R105). -/
theorem hufDecEnd_eq_ok {s : State} {w : HufWalk} {out : Bytes} :
    hufDecEnd s w = .ok out ↔ w.depth = 0 ∧ w.out = out := by
  unfold hufDecEnd
  split <;> simp_all

/-- A codeword has at least one bit (R20, R105). -/
theorem isCodeword_length_pos {tree : TreeMemory} {r : BitVec 9} {code : Code} {sym : Byte}
    (h : isCodeword tree r code sym = true) : 1 ≤ code.length := by
  rcases isCodeword_iff.1 h with ⟨-, rfl⟩ | ⟨hne, -⟩
  · exact Nat.le_refl 1
  · exact List.length_pos_iff.2 hne

/-- There are at most as many codewords as bits (R106). -/
theorem codewords_length_le {tree : TreeMemory} {r : BitVec 9} {pairs : List (Code × Byte)}
    (h : ∀ e ∈ pairs, isCodeword tree r e.1 e.2 = true) :
    pairs.length ≤ (pairs.map (fun e => e.1)).flatten.length := by
  have hpos : ∀ n ∈ (pairs.map (fun e => e.1)).map List.length, 1 ≤ n := by
    simp only [List.map_map, List.mem_map, Function.comp_apply]
    rintro _ ⟨e, he, rfl⟩
    exact isCodeword_length_pos (h e he)
  simpa [List.length_flatten] using List.length_le_sum_of_one_le _ hpos

/-- Everything HUF_DEC can answer with an output for: the text of a sequence of codewords (R105). -/
theorem outputRun_hufDec_eq_ok {s : State} {out : Bytes} (h : outputRun .hufDec s = .ok out) :
    ∃ pairs : List (Code × Byte), (pairs = [] ∨ s.treeRoot.valid = true) ∧
      (∀ e ∈ pairs, isCodeword s.tree s.treeRoot.idx e.1 e.2 = true) ∧
      s.srcString = some (bitText (pairs.map (fun e => e.1))) ∧
      out = pairs.map (fun e => e.2) ∧ pairs.length ≤ s.srcLen.toNat := by
  rw [outputRun_hufDec (outputRun_ranges h)] at h
  obtain ⟨w, hscan, hend⟩ := Run.andThen_eq_ok.1 h
  obtain ⟨bits, pairs, part, hlen, hreads, hbits, hcw, hdepth, hout, hvalid, -⟩ :=
    hufDecScan_eq_ok (part := []) rfl (.inl rfl) hscan
  obtain ⟨hroot, rfl⟩ := hufDecEnd_eq_ok.1 hend
  obtain rfl : part = [] := List.length_eq_zero_iff.1 (hdepth.symm.trans hroot)
  rw [List.nil_append, List.append_nil] at hbits
  have hcount := codewords_length_le hcw
  rw [← hbits, hlen] at hcount
  refine ⟨pairs, hvalid.imp_left fun h0 => ?_, hcw, ?_, ?_, hcount⟩
  · exact List.length_eq_zero_iff.1 (by omega)
  · rw [bitText_eq, ← hbits]
    exact srcString_of_reads hreads (by rw [ascii_length, hlen])
  · rw [hout]
    rfl

/-- Settles O20: the scan reads the codewords and stands at the root again. -/
theorem hufDecWritesTheSymbols : Obligations.HufDecWritesTheSymbols := by
  intro s pairs hok hv hcw hstr hf
  obtain ⟨hr, hlen⟩ := reads_of_srcString hstr
  have hscan := hufDecScan_codewords (n := 0) (out := []) hv hcw hr (by simpa using hf)
  rw [Nat.add_zero, hlen, hufDecScan, List.nil_append] at hscan
  refine exec_output_ok rfl ?_
  rw [outputRun_hufDec hok]
  exact congrArg (·.andThen (hufDecEnd s)) hscan

/-- Settles O21: an error record has DONE clear, and an output comes only from codewords, each of at least one
bit. -/
theorem hufDecSucceedsOnlyOnCodewords : Obligations.HufDecSucceedsOnlyOnCodewords := by
  intro s t h hdone
  have hend : endOutput s (outputRun .hufDec s) = .next t := (exec_eq .hufDec s).symm.trans h
  rcases endOutput_eq_next.1 hend with ⟨out, hrun, rfl⟩ | ⟨e, pos, -, rfl⟩
  · obtain ⟨pairs, hv, hcw, hstr, rfl, hcount⟩ := outputRun_hufDec_eq_ok hrun
    refine ⟨pairs, hv, hcw, hstr, succeedsOutput_commit s _, ?_⟩
    calc (wordOf (pairs.map (fun e => e.2)).length).toNat
        ≤ (pairs.map (fun e => e.2)).length := (BitVec.toNat_ofNat _ 32).trans_le (Nat.mod_le _ _)
      _ = pairs.length := List.length_map _
      _ ≤ s.srcLen.toNat := hcount
  · cases hdone

/-! ### Where the walk of HUF_DEC fails -/

theorem hufDecAt_iff {s : State} {pairs : List (Code × Byte)} {part : Code} {j : BitVec 9} :
    hufDecAt s pairs part j = true ↔ outputRangesOk s = true ∧ s.treeRoot.valid = true ∧
      (∀ e ∈ pairs, isCodeword s.tree s.treeRoot.idx e.1 e.2 = true) ∧ pairs.length ≤ s.dstCap.toNat ∧
      treeWalk s.tree part s.treeRoot.idx = some j ∧ (part = [] ∨ ∃ l r, nodeAt s.tree j = .internal l r) := by
  cases hn : nodeAt s.tree j <;> simp [hufDecAt, hn, and_assoc]

/-- HUF_DEC's scan comes to the walk that `hufDecAt` names (R105). -/
theorem hufDecScan_at {s : State} {pairs : List (Code × Byte)} {part : Code} {j : BitVec 9}
    (hat : hufDecAt s pairs part j = true) (hr : Reads s 0 (hufDecRead pairs part)) (n : Nat) :
    hufDecScan s ((hufDecRead pairs part).length + n) 0 (hufWalkAt [] [] s.treeRoot.idx) =
      hufDecScan s n (hufDecRead pairs part).length (hufWalkAt pairs part j) := by
  obtain ⟨-, hv, hcw, hf, hwalk, hj⟩ := hufDecAt_iff.1 hat
  rw [hufDecRead, reads_append] at hr
  have hcodewords := hufDecScan_codewords (n := part.length + n) (out := []) (.inr hv) hcw hr.1 (by simpa using hf)
  have hpath := hufDecScan_path (n := n) (depth := 0) (out := pairs.map (fun e => e.2)) hv hr.2 hwalk hj
  rw [Nat.zero_add] at hcodewords hpath
  rw [List.nil_append] at hcodewords
  rw [hufDecRead, List.length_append, ascii_length, Nat.add_assoc]
  exact hcodewords.trans (by rw [hpath, Nat.zero_add]; rfl)

/-- A character that is no bit ends the scan (R105). -/
theorem hufDecScan_foreign {s : State} {n i : Nat} {c : Byte} {w : HufWalk} (hc : src s i = .ok c)
    (hbit : bitOf c = none) : hufDecScan s (n + 1) i w = .raised .malformedHuffmanInput (wordOf i) := by
  rw [hufDecScan, hc, Run.andThen_ok, hbit]

/-- A bit at which the walk raises ends the scan. -/
theorem hufDecScan_bit_raised {s : State} {n i : Nat} {c : Byte} {b : Bool} {w : HufWalk} {e : ErrorKind} {p : Word}
    (hc : src s i = .ok c) (hbit : bitOf c = some b) (h : hufDecBit s i b w = .raised e p) :
    hufDecScan s (n + 1) i w = .raised e p := by
  rw [hufDecScan, hc, Run.andThen_ok, hbit]
  simp only
  rw [h, Run.andThen_raised]

/-- No bit can be followed with no tree loaded (R105). -/
theorem hufDecBit_noTree {s : State} (hv : s.treeRoot.valid = false) (i : Nat) (b : Bool) (w : HufWalk) :
    hufDecBit s i b w = .raised .treeTraversalFailure (wordOf i) := by
  simp [hufDecBit, hv]

/-- A bit whose child is null (R105). -/
theorem hufDecBit_null {s : State} {i : Nat} {b : Bool} {w : HufWalk} {l r : Option (BitVec 9)}
    (hv : s.treeRoot.valid = true) (hn : nodeAt s.tree w.node = .internal l r) (hc : (if b then r else l) = none) :
    hufDecBit s i b w = .raised .treeTraversalFailure (wordOf i) := by
  simp [hufDecBit, hv, hn, hc]

/-- A '1' on a single-leaf tree (R105). -/
theorem hufDecBit_leaf_one {s : State} {i : Nat} {w : HufWalk} {sym : Byte} (hv : s.treeRoot.valid = true)
    (hn : nodeAt s.tree w.node = .leaf sym) :
    hufDecBit s i true w = .raised .treeTraversalFailure (wordOf i) := by
  simp [hufDecBit, hv, hn]

/-- The last bit of a codeword appends its symbol and goes back to the root (R105). -/
theorem hufDecBit_codeword_end {s : State} {i : Nat} {b : Bool} {w : HufWalk} {part : Code} {sym : Byte}
    (hv : s.treeRoot.valid = true) (hwalk : treeWalk s.tree part s.treeRoot.idx = some w.node)
    (hcw : isCodeword s.tree s.treeRoot.idx (part ++ [b]) sym = true) :
    hufDecBit s i b w = (append s.dstCap.toNat w.out [sym] i).andThen fun out =>
      .ok { node := s.treeRoot.idx, depth := 0, out := out } := by
  rcases isCodeword_iff.1 hcw with ⟨hleaf, hcode⟩ | ⟨-, k, hk, hleaf⟩
  · obtain ⟨rfl, hb⟩ := List.append_eq_singleton_iff.1 hcode |>.resolve_right (by simp)
    obtain rfl : b = false := by simpa using hb
    have hroot : nodeAt s.tree w.node = .leaf sym := Option.some.inj hwalk ▸ hleaf
    simp [hufDecBit, hv, hroot]
  · rw [treeWalk_append, hwalk, Option.bind_some] at hk
    obtain ⟨l, r, c, hn, hc, hck⟩ := treeWalk_cons_internal hk
    obtain rfl : c = k := Option.some.inj hck
    exact hufDecBit_leaf hv hn hc hleaf

/-- HUF_DEC raises what its scan raises at the character behind the walk of `hufDecAt`. -/
theorem exec_hufDec_raised_at {s : State} {pairs : List (Code × Byte)} {part : Code} {j : BitVec 9} {e : ErrorKind}
    {p : Word} (hat : hufDecAt s pairs part j = true) (hr : Reads s 0 (hufDecRead pairs part))
    (hlen : (hufDecRead pairs part).length < s.srcLen.toNat)
    (h : ∀ n, hufDecScan s (n + 1) (hufDecRead pairs part).length (hufWalkAt pairs part j) = .raised e p) :
    ∃ t, exec .hufDec s = .next t ∧ FailsOutput s t e.code p := by
  obtain ⟨n, hn⟩ := Nat.exists_eq_add_of_lt hlen
  refine exec_output_raised rfl ?_
  rw [outputRun_hufDec (hufDecAt_iff.1 hat).1, hn, Nat.add_assoc, hufDecScan_at hat hr, h, Run.andThen_raised]

/-- HUF_DEC's input may not end inside a code (R105). -/
theorem exec_hufDec_truncated {s : State} {pairs : List (Code × Byte)} {part : Code} {j : BitVec 9}
    (hat : hufDecAt s pairs part j = true) (hpart : part ≠ []) (hstr : s.srcString = some (hufDecRead pairs part)) :
    ∃ t, exec .hufDec s = .next t ∧ FailsOutput s t 0x08 s.srcLen := by
  obtain ⟨hr, hlen⟩ := reads_of_srcString hstr
  have hscan := hufDecScan_at hat hr 0
  rw [Nat.add_zero, hlen, hufDecScan] at hscan
  refine exec_output_raised (e := .truncatedInput) rfl ?_
  rw [outputRun_hufDec (hufDecAt_iff.1 hat).1, hscan, Run.andThen_ok]
  exact if_pos fun h => hpart (List.length_eq_zero_iff.1 h)

/-- HUF_DEC with no tree loaded raises what its scan raises at the first character. -/
theorem exec_hufDec_raised_first {s : State} {e : ErrorKind} {p : Word} (hok : outputRangesOk s = true)
    (hlen : 0 < s.srcLen.toNat)
    (h : ∀ n, hufDecScan s (n + 1) 0 (hufWalkAt [] [] s.treeRoot.idx) = .raised e p) :
    ∃ t, exec .hufDec s = .next t ∧ FailsOutput s t e.code p := by
  obtain ⟨n, hn⟩ := Nat.exists_eq_add_one.2 hlen
  refine exec_output_raised rfl ?_
  rw [outputRun_hufDec hok, hn, h, Run.andThen_raised]

/-- HUF_DEC of a first character with no tree loaded (R105). -/
theorem exec_hufDec_noTree {s : State} {c : Byte} (hok : outputRangesOk s = true) (hv : s.treeRoot.valid = false)
    (hlen : 0 < s.srcLen.toNat) (hc : src s 0 = .ok c) :
    if c = 0x30 ∨ c = 0x31 then ∃ t, exec .hufDec s = .next t ∧ FailsOutput s t 0x05 0
    else ∃ t, exec .hufDec s = .next t ∧ FailsOutput s t 0x04 0 := by
  cases hbit : bitOf c with
  | none =>
    rw [if_neg (not_or.2 (bitOf_eq_none.1 hbit))]
    exact exec_hufDec_raised_first (e := .malformedHuffmanInput) hok hlen fun n => hufDecScan_foreign hc hbit
  | some b =>
    have hchar : c = 0x30 ∨ c = 0x31 := by rw [bitOf_eq_some.1 hbit]; cases b <;> simp
    rw [if_pos hchar]
    exact exec_hufDec_raised_first (e := .treeTraversalFailure) hok hlen fun n =>
      hufDecScan_bit_raised hc hbit (hufDecBit_noTree hv 0 b _)

/-- Settles O22: the scan comes to the walk of `hufDecAt`, and the next character ends it by the lemma for its kind; the
end of the input and the block with no tree by lemmas of their own. -/
theorem hufDecReportsTheFirstFailure : Obligations.HufDecReportsTheFirstFailure := by
  refine ⟨fun s pairs part j hat => ⟨fun c hlen htext => ?_, exec_hufDec_truncated hat⟩,
    fun s c hok hv hlen hc => exec_hufDec_noTree hok hv hlen (src_eq_ok.2 hc)⟩
  obtain ⟨-, hv, -, -, hwalk, -⟩ := hufDecAt_iff.1 hat
  have hreads := reads_of_readBytes htext
  rw [reads_append, reads_cons, Nat.zero_add] at hreads
  obtain ⟨hr, hc, -⟩ := hreads
  refine ⟨fun hbit => ?_, fun b l r hbit hn hnull => ?_, fun sym hn hone => ?_, fun b sym hbit hcw hfull => ?_⟩
  · exact exec_hufDec_raised_at (e := .malformedHuffmanInput) hat hr hlen fun n => hufDecScan_foreign hc hbit
  · exact exec_hufDec_raised_at (e := .treeTraversalFailure) hat hr hlen fun n =>
      hufDecScan_bit_raised hc hbit (hufDecBit_null hv hn hnull)
  · exact exec_hufDec_raised_at (e := .treeTraversalFailure) hat hr hlen fun n =>
      hufDecScan_bit_raised hc (bitOf_eq_some (b := true).2 hone) (hufDecBit_leaf_one hv hn)
  · refine exec_hufDec_raised_at (e := .allocationFailure) hat hr hlen fun n =>
      hufDecScan_bit_raised hc hbit ?_
    rw [hufDecBit_codeword_end hv hwalk hcw, append_full (by simp [hufWalkAt, hfull])]
    rfl

/-! ### The round trip -/

theorem HuffTree.table_fst (tr : HuffTree) : tr.table.map Prod.fst = tr.symbols := by
  cases tr with
  | leaf sym => rfl
  | node l r => exact HuffTree.paths_fst _

/-- Every symbol of a tree has an entry in the tree's table (R100). -/
theorem HuffTree.exists_mem_table {tr : HuffTree} {b : Byte} (h : b ∈ tr.symbols) : ∃ c, (b, c) ∈ tr.table := by
  rw [← HuffTree.table_fst] at h
  simpa using h

/-- The entries of the table of a held tree are codewords (R20, R105). -/
theorem isCodeword_of_mem_table {tree : TreeMemory} {tr : HuffTree} {i : BitVec 9} {b : Byte} {c : Code}
    (hh : holdsTree tree tr i = true) (h : (b, c) ∈ tr.table) : isCodeword tree i c b = true := by
  cases tr with
  | leaf sym =>
    obtain ⟨rfl, rfl⟩ := Prod.mk.inj (List.mem_singleton.1 h)
    exact isCodeword_iff.2 (.inl ⟨holdsTree_leaf.1 hh, rfl⟩)
  | node l r =>
    refine isCodeword_iff.2 (.inr ⟨?_, treeWalk_of_path hh h⟩)
    exact List.length_pos_iff.1 (HuffTree.node_path_length_pos h)

/-- Over the symbols of a tree, a text is a sequence of the tree's entries. -/
theorem HuffTree.exists_entries {tr : HuffTree} {text : Bytes} (h : ∀ b ∈ text, b ∈ tr.symbols) :
    ∃ pairs : List (Code × Byte), pairs.map (fun e => e.2) = text ∧ ∀ e ∈ pairs, (e.2, e.1) ∈ tr.table := by
  induction text with
  | nil => exact ⟨[], rfl, nofun⟩
  | cons b text ih =>
    obtain ⟨hb, htext⟩ := List.forall_mem_cons.1 h
    obtain ⟨c, hc⟩ := HuffTree.exists_mem_table hb
    obtain ⟨pairs, rfl, hpairs⟩ := ih htext
    exact ⟨(c, b) :: pairs, rfl, List.forall_mem_cons.2 ⟨hc, hpairs⟩⟩

/-- The table that GEN_CODES leaves gives each entry of the tree its code. -/
theorem TableOf.codeAt_eq_some {t : CodeTable} {tr : HuffTree} (h : TableOf t tr) (hn : tr.symbols.Nodup) {b : Byte}
    {c : Code} (hc : (b, c) ∈ tr.table) : codeAt t b = some c :=
  (h.1 b).trans (lookup_of_mem (by rwa [HuffTree.table_fst]) hc)

/-- The output of a command is what a later command reads whose SRC range is that output (R61, R91). -/
theorem srcString_of_succeedsOutput {s t u : State} {out : Bytes} (h : SucceedsOutput s t out)
    (hfit : out.length ≤ s.dstCap.toNat) (hbuf : u.buf = t.buf) (hbase : u.srcBase = s.dstBase)
    (hlen : u.srcLen = t.outLen) : u.srcString = some out := by
  obtain ⟨hrecord, hout, -⟩ := h
  have houtLen : t.outLen = wordOf out.length := by rw [hrecord]
  rw [State.srcString, hbuf, hbase, hlen, houtLen, wordOf_toNat (hfit.trans_lt s.dstCap.isLt)]
  exact Memory.readBytes_eq_some.2 ⟨rfl, hout⟩

/-- Settles O23: the text is a sequence of the tree's entries, so HUF_ENC writes their codes (O18), and those are
codewords that HUF_DEC reads back (O20). -/
theorem huffmanRoundTrip : Obligations.HuffmanRoundTrip := by
  rintro s0 s1 s2 tr text htree hgen ⟨hct, hok2, hstr2, -, hsymbols⟩
  obtain ⟨hv, hholds, hn⟩ := loadedTree_iff.1 htree
  have htable := tableOf_exec_genCodes hgen htree
  obtain ⟨pairs, rfl, hpairs⟩ := HuffTree.exists_entries hsymbols
  have hcodes : (pairs.map (fun e => e.2)).map (codeAt s1.ct) = (pairs.map (fun e => e.1)).map some := by
    rw [List.map_map, List.map_map]
    exact List.map_congr_left fun e he => htable.codeAt_eq_some hn (hpairs e he)
  refine ⟨pairs.map (fun e => e.1), hcodes, fun hfit => ?_⟩
  obtain ⟨s3, hexec, hsucc⟩ := hufEncWritesTheBitString s2 _ _ hok2 hstr2 (by rw [hct]; exact hcodes) hfit
  refine ⟨s3, hexec, hsucc, ?_⟩
  rintro s4 ⟨htree4, hroot4, hbuf, hok4, hbase, hlen, hcap⟩
  refine hufDecWritesTheSymbols s4 pairs hok4 (.inr (by rw [hroot4, hv])) (fun e he => ?_)
    (srcString_of_succeedsOutput hsucc hfit hbuf hbase hlen) (by rwa [List.length_map] at hcap)
  rw [htree4, hroot4]
  exact isCodeword_of_mem_table hholds (hpairs e he)

end Sys2Proof.Machine
end

section
/-! RLE_ENC (O24 to O26): the runs it reads, the text it writes for them, and the run at which it stops. -/

namespace Sys2Proof.Machine

/-- With good ranges RLE_ENC is its scan (R109). -/
theorem outputRun_rleEnc {s : State} (hok : outputRangesOk s = true) :
    outputRun .rleEnc s = rleEncScan s s.srcLen.toNat 0 [] := by
  rw [outputRun, checkSrcDst_ok hok, Run.andThen_ok]

/-- What RLE_ENC reads: the runs of its input, one after the other, to the end of the SRC range. -/
theorem reads_runs {s : State} {str : Bytes} {runs : List Bytes} (hstr : s.srcString = some str)
    (hruns : str.splitBy (fun a b => a == b) = runs) :
    GoodRuns runs ∧ Reads s 0 runs.flatten ∧ runs.flatten.length = s.srcLen.toNat ∧ runs.length ≤ s.srcLen.toNat := by
  obtain ⟨hr, hlen⟩ := reads_of_srcString hstr
  have hg := goodRuns_splitBy str
  rw [← List.flatten_splitBy (fun a b => a == b) str] at hr hlen
  rw [hruns] at hg hr hlen
  exact ⟨hg, hr, hlen, (goodRuns_length hg.1).trans_eq hlen⟩

/-- Behind runs of its input whose tokens fit, RLE_ENC stands at the start of the next run (R109). -/
theorem outputRun_rleEnc_after {s : State} {str : Bytes} {before after : List Bytes} (hok : outputRangesOk s = true)
    (hstr : s.srcString = some str) (hruns : str.splitBy (fun a b => a == b) = before ++ after)
    (hf : (before.flatMap tokenOf).length ≤ s.dstCap.toNat) :
    outputRun .rleEnc s =
      rleEncScan s (s.srcLen.toNat - before.length) before.flatten.length (before.flatMap tokenOf) := by
  obtain ⟨hg, hr, hlen, hcount⟩ := reads_runs hstr hruns
  rw [List.length_append] at hcount
  have hscan := rleEncScan_prefix (fuel := s.srcLen.toNat - before.length) (out := []) hg hr (by omega)
    (fun h => by simpa [h] using hlen) (by simpa using hf)
  rw [Nat.add_sub_cancel' (by omega), Nat.zero_add, List.nil_append] at hscan
  rw [outputRun_rleEnc hok, hscan]

/-- RLE_ENC of a written input whose tokens fit (R109). -/
theorem outputRun_rleEnc_ok {s : State} {str : Bytes} (hok : outputRangesOk s = true)
    (hstr : s.srcString = some str) (hf : (rleText str).length ≤ s.dstCap.toNat) :
    outputRun .rleEnc s = .ok (rleText str) := by
  rw [outputRun_rleEnc_after hok hstr (List.append_nil _).symm hf, List.flatten_splitBy, (reads_of_srcString hstr).2,
    rleEncScan_end (Nat.le_refl _)]
  rfl

/-- RLE_ENC at a run whose token does not fit (R109). -/
theorem rleEncScan_full {s : State} {fuel i : Nat} {run out : Bytes} {after : List Bytes} (hg : GoodRuns (run :: after))
    (hr : Reads s i (run :: after).flatten) (hn : i + (run :: after).flatten.length = s.srcLen.toNat)
    (hfull : s.dstCap.toNat < out.length + (tokenOf run).length) :
    rleEncScan s (fuel + 1) i out = .raised .allocationFailure (wordOf i) := by
  obtain ⟨c, m, rfl⟩ := hg.1 run List.mem_cons_self
  rw [List.flatten_cons, List.length_append, List.length_replicate] at hn
  rw [rleEncScan_run hg hr (by omega) (fun h => by simpa [h] using hn), append_full hfull, Run.andThen_raised]

/-- Everything RLE_ENC can answer with an output for (R109). -/
theorem outputRun_rleEnc_eq_ok {s : State} {out : Bytes} (h : outputRun .rleEnc s = .ok out) :
    ∃ str, s.srcString = some str ∧ out = rleText str := by
  have hfit := outputRun_length h
  have hok := outputRun_ranges h
  rw [outputRun_rleEnc hok] at h
  obtain ⟨str, hlen, hr⟩ := rleEncScan_reads (Nat.zero_le _) (Nat.sub_le _ _) h
  rw [Nat.zero_add] at hlen
  have hflat : (str.splitBy (fun a b => a == b)).flatten = str := List.flatten_splitBy ..
  have hg := goodRuns_splitBy str
  have hcount := goodRuns_length hg.1
  rw [hflat, hlen] at hcount
  exact ⟨str, srcString_of_reads hr hlen,
    (rleEncScan_eq_ok hg (by rwa [hflat]) (by rwa [hflat, Nat.zero_add]) hcount (Nat.zero_le _) h).1⟩

/-- The tokens of runs are together no longer than the runs (R110). -/
theorem flatMap_tokenOf_length_le (runs : List Bytes) : (runs.flatMap tokenOf).length ≤ runs.flatten.length := by
  induction runs with
  | nil => exact Nat.le_refl 0
  | cons r rs ih =>
    rw [List.flatMap_cons, List.flatten_cons, List.length_append, List.length_append]
    exact Nat.add_le_add (tokenOf_length r) ih

/-- The run-length text is never longer than the string (R110). -/
theorem rleText_length_le (str : Bytes) : (rleText str).length ≤ str.length := by
  have h := flatMap_tokenOf_length_le (str.splitBy fun a b => a == b)
  rwa [List.flatten_splitBy] at h

/-- A string with no two adjacent equal bytes has runs of one byte each, which are their own tokens (R110). -/
theorem rleText_of_isChain {str : Bytes} (h : str.IsChain (fun a b => a ≠ b)) : rleText str = str := by
  rw [← List.flatten_splitBy (fun a b => a == b) str, List.isChain_flatten (List.nil_notMem_splitBy _ _)] at h
  have htoken : ∀ r ∈ str.splitBy (fun a b => a == b), tokenOf r = r := fun r hr => by
    obtain ⟨c, m, rfl⟩ := (goodRuns_splitBy str).1 r hr
    cases m with
    | zero => rfl
    | succ m => exact absurd rfl (List.isChain_cons_cons.1 (h.1 _ hr)).1
  rw [rleText, List.flatMap_def, List.map_congr_left htoken, List.map_id', List.flatten_splitBy]

/-- Settles O24: RLE_ENC's scan ends in the tokens; the other clauses say what a token and a count are. -/
theorem rleEncWritesTheRuns : Obligations.RleEncWritesTheRuns := by
  refine ⟨fun s str hok hstr hf => exec_output_ok rfl (outputRun_rleEnc_ok hok hstr hf), fun c rest => ?_,
    fun n hn => dec_spec hn⟩
  cases rest <;> simp [tokenOf, runToken]

/-- Settles O25: behind the runs that fit, the scan stands at the run that does not. -/
theorem rleEncReportsTheFirstOverflow : Obligations.RleEncReportsTheFirstOverflow := by
  intro s str run before after hok hstr hruns hf hfull
  obtain ⟨⟨hmem, hchain⟩, hr, hlen, hcount⟩ := reads_runs hstr hruns
  have hg : GoodRuns (run :: after) :=
    ⟨fun r h => hmem r (List.mem_append_right _ h), (List.isChain_append.1 hchain).2.1⟩
  rw [List.flatten_append] at hr hlen
  rw [List.length_append] at hlen
  rw [reads_append, Nat.zero_add] at hr
  rw [List.length_append, List.length_cons] at hcount
  obtain ⟨fuel, hfuel⟩ := Nat.exists_eq_add_of_lt (show before.length < s.srcLen.toNat by omega)
  refine exec_output_raised (e := .allocationFailure) rfl ?_
  rw [outputRun_rleEnc_after hok hstr hruns hf, hfuel, Nat.add_assoc, Nat.add_sub_cancel_left]
  exact rleEncScan_full hg hr.2 hlen hfull

/-- Settles O26: the bounds come from those of a count and of a token, and the last facts from the run-length text. -/
theorem rleEncLengthIdempotenceAndCollision : Obligations.RleEncLengthIdempotenceAndCollision := by
  refine ⟨fun c r => ⟨rfl, fun hr => ?_⟩, fun s t h hdone => ?_, fun s str hok hstr hcap => ?_⟩
  · have hlt := dec_length_lt r hr
    have hrun : r > 1 := hr
    simp only [runToken, if_pos hrun, List.length_cons]
    omega
  · rcases endOutput_eq_next.1 ((exec_eq .rleEnc s).symm.trans h) with ⟨out, hrun, rfl⟩ | ⟨e, pos, -, rfl⟩
    · obtain ⟨str, hstr, rfl⟩ := outputRun_rleEnc_eq_ok hrun
      calc (wordOf (rleText str).length).toNat
          ≤ (rleText str).length := (BitVec.toNat_ofNat _ 32).trans_le (Nat.mod_le _ _)
        _ ≤ str.length := rleText_length_le str
        _ = s.srcLen.toNat := (reads_of_srcString hstr).2
    · cases hdone
  · have hf : (rleText str).length ≤ s.dstCap.toNat :=
      (rleText_length_le str).trans ((reads_of_srcString hstr).2.trans_le hcap)
    obtain ⟨t, hexec, hsucc⟩ := exec_output_ok rfl (outputRun_rleEnc_ok hok hstr hf)
    refine ⟨t, _, hexec, hsucc, rleText_of_isChain, ?_⟩
    rintro (rfl | rfl) <;> decide

end Sys2Proof.Machine
end

section
/-! TRIE_INSERT (O27, O28): what it reads, what it answers for a key and a payload that fit, and why it refuses. -/

namespace Sys2Proof.Machine

/-- TRIE_INSERT's key scan answers the key that the SRC string writes (R111). -/
theorem readKey_eq_ok_iff_srcString {s : State} {key : List Digit} :
    readKey s s.srcLen.toNat 0 = .ok key ↔ s.srcString = some (digitText key) := by
  rw [readKey_eq_ok]
  constructor
  · rintro ⟨hlen, hr⟩
    exact srcString_of_reads hr (by rw [digitText_length, hlen])
  · intro h
    obtain ⟨hr, hlen⟩ := reads_of_srcString h
    exact ⟨by rw [← hlen, digitText_length], hr⟩

/-- TRIE_INSERT's payload scan answers the AUX string (R111). -/
theorem readAux_eq_ok_iff_auxString {s : State} {pay : Bytes} :
    readAux s s.auxLen.toNat 0 = .ok pay ↔ s.auxString = some pay :=
  readAux_eq_ok

theorem auxString_length {s : State} {pay : Bytes} (h : s.auxString = some pay) : pay.length = s.auxLen.toNat :=
  (Memory.readBytes_eq_some.1 h).1

section
variable {s : State} {key : List Digit} (hsrc : s.srcOk = true) (haux : s.auxOk = true)
  (hkey : s.srcString = some (digitText key))
include hsrc haux hkey

/-- TRIE_INSERT of a key whose missing nodes the pool cannot hold (R111). -/
theorem runTrieInsert_nodes
    (hnodes : s.params.trieNodes < s.trieUsed + (key.length - s.trie.longestPrefix key key.length)) :
    runTrieInsert s = .raised .allocationFailure
      (wordOf (s.trie.longestPrefix key key.length + (s.params.trieNodes - s.trieUsed))) := by
  rw [runTrieInsert, checkSrcAux_ok hsrc haux, Run.andThen_ok, readKey_eq_ok_iff_srcString.2 hkey, Run.andThen_ok]
  exact if_pos hnodes

/-- TRIE_INSERT of a payload that PAYMEM cannot hold (R111). -/
theorem runTrieInsert_bytes
    (hnodes : s.trieUsed + (key.length - s.trie.longestPrefix key key.length) ≤ s.params.trieNodes)
    (hbytes : s.params.payBytes < s.payUsed + s.auxLen.toNat) :
    runTrieInsert s = .raised .allocationFailure noPos := by
  rw [runTrieInsert, checkSrcAux_ok hsrc haux, Run.andThen_ok, readKey_eq_ok_iff_srcString.2 hkey, Run.andThen_ok]
  exact (if_neg hnodes.not_gt).trans (if_pos hbytes)

/-- TRIE_INSERT of a key and a payload that fit (R111). -/
theorem runTrieInsert_ok {pay : Bytes} (hpay : s.auxString = some pay)
    (hnodes : s.trieUsed + (key.length - s.trie.longestPrefix key key.length) ≤ s.params.trieNodes)
    (hbytes : s.payUsed + pay.length ≤ s.params.payBytes) :
    runTrieInsert s = .ok
      ({ s with
          trie := insertedTrie s.trie key pay
          payMem := s.payMem.writeBytes s.payUsed pay
          payUsed := s.payUsed + pay.length }, key.length - s.trie.longestPrefix key key.length) := by
  rw [auxString_length hpay] at hbytes ⊢
  rw [runTrieInsert, checkSrcAux_ok hsrc haux, Run.andThen_ok, readKey_eq_ok_iff_srcString.2 hkey, Run.andThen_ok,
    readAux_eq_ok_iff_auxString.2 hpay]
  exact (if_neg hnodes.not_gt).trans (if_neg hbytes.not_gt)

end

/-- TRIE_INSERT at a key byte that is no digit (R111). -/
theorem runTrieInsert_foreign {s : State} {pre : List Digit} {c : Byte} (hsrc : s.srcOk = true) (haux : s.auxOk = true)
    (hpre : pre.length < s.srcLen.toNat) (hc : digitOf c = none) (hr : Reads s 0 (digitText pre ++ [c])) :
    runTrieInsert s = .raised .malformedRLEInput (wordOf pre.length) := by
  rw [reads_append, digitText_length, reads_cons] at hr
  obtain ⟨hdigits, hchar, -⟩ := hr
  obtain ⟨n, hn⟩ := Nat.exists_eq_add_of_lt hpre
  have hkey : readKey s (n + 1) (0 + pre.length) = .raised .malformedRLEInput (wordOf (0 + pre.length)) := by
    rw [readKey, hchar, Run.andThen_ok, hc]
  rw [runTrieInsert, checkSrcAux_ok hsrc haux, Run.andThen_ok, hn, Nat.add_assoc, readKey_prefix hdigits, hkey,
    Nat.zero_add, Run.andThen_raised, Run.andThen_raised]

/-- A TRIE_INSERT that succeeds has put the key it read with the payload it read into the trie (R111). -/
theorem exec_trieInsert_done {s t : State} (h : exec .trieInsert s = .next t) (hdone : t.status.done = true) :
    ∃ key pay, s.srcString = some (digitText key) ∧ s.auxString = some pay ∧ t.trie = insertedTrie s.trie key pay := by
  rcases endTable_eq_next.1 ((exec_eq .trieInsert s).symm.trans h) with ⟨s', n, hrun, rfl⟩ | ⟨e, pos, -, rfl⟩
  · simp only [tableRun, runTrieInsert] at hrun
    obtain ⟨_, -, hrun⟩ := Run.andThen_eq_ok.1 hrun
    obtain ⟨key, hkey, hrun⟩ := Run.andThen_eq_ok.1 hrun
    split at hrun
    · cases hrun
    split at hrun
    · cases hrun
    obtain ⟨pay, hpay, hrun⟩ := Run.andThen_eq_ok.1 hrun
    cases hrun
    exact ⟨key, pay, readKey_eq_ok_iff_srcString.1 hkey, readAux_eq_ok_iff_auxString.1 hpay, rfl⟩
  · cases hdone

/-- Settles O27: the insert succeeds, and what it leaves is read off the specification of the inserted trie and of a
string write. -/
theorem trieInsertAddsTheKey : Obligations.TrieInsertAddsTheKey := by
  intro s key pay l0 hinv hsrc haux hkey hpay hl hprefix hnodes hbytes
  obtain ⟨hwf, hroot, hclosed, -⟩ := hinv
  obtain rfl := Trie.longestPrefix_eq hl hprefix
  obtain ⟨hhas, hpayload, hlength, -, -⟩ := insertedTrie_spec (key := key) (pay := pay) hwf hroot hclosed
  exact ⟨_, exec_table_ok (i := .trieInsert) rfl (runTrieInsert_ok hsrc haux hkey hpay hnodes hbytes), rfl, hlength,
    hhas, hpayload, Memory.read_writeBytes _ _ _⟩

/-- Settles O28: each error in the order of the pseudocode. -/
theorem trieInsertReportsErrors : Obligations.TrieInsertReportsErrors := by
  refine ⟨fun s pre c hsrc haux hpre hc htext => ?_, fun s key l0 hsrc haux hkey hl _ hprefix => ?_⟩
  · exact exec_table_raised (i := .trieInsert) rfl (runTrieInsert_foreign hsrc haux hpre hc (reads_of_readBytes htext))
  · obtain rfl := Trie.longestPrefix_eq hl hprefix
    exact ⟨fun hnodes => exec_table_raised (i := .trieInsert) rfl (runTrieInsert_nodes hsrc haux hkey hnodes),
      fun hnodes hbytes => exec_table_raised (i := .trieInsert) rfl
        (runTrieInsert_bytes hsrc haux hkey hnodes hbytes)⟩

end Sys2Proof.Machine
end

section
/-! RLE_DEC (O29 to O31): its success is the two-mode walk, and where that walk stands it fails in one of six ways. -/

namespace Sys2Proof.Machine

/-- The engine's reads of two texts that stand one behind the other from the start of the SRC range. -/
theorem reads_zero_append {s : State} {as bs : Bytes} :
    Reads s 0 (as ++ bs) ↔ Reads s 0 as ∧ Reads s as.length bs := by
  rw [reads_append, Nat.zero_add]

/-- The RLE_DEC walk behind the leaves `leaves` and the descent to `w` (R112). -/
def rleWalkAt (leaves : List (List Digit × Bytes)) (w : List Digit) : RleWalk :=
  { node := w, pos := (rleDecRead leaves w).length, out := leaves.flatMap (fun e => e.2) }

/-- With good ranges RLE_DEC is its scan and its end (R112). -/
theorem outputRun_rleDec {s : State} (hok : outputRangesOk s = true) :
    outputRun .rleDec s = (rleDecScan s s.srcLen.toNat (rleWalkAt [] [])).andThen (rleDecEnd s) := by
  rw [outputRun, checkSrcDst_ok hok, Run.andThen_ok]
  rfl

/-- In a trie closed under prefixes, RLE_DEC of digits that the two-mode walk decodes writes the walk's output (R112). -/
theorem exec_rleDec_decodes {s : State} (hclosed : ∀ w d, s.trie.has (w ++ [d]) = true → s.trie.has w = true)
    {ds : List Digit} {out : Bytes} (hok : outputRangesOk s = true) (hstr : s.srcString = some (digitText ds))
    (hdec : RleDecodes s.trie ds out) (hf : out.length ≤ s.dstCap.toNat) :
    ∃ t, exec .rleDec s = .next t ∧ SucceedsOutput s t out := by
  obtain ⟨hr, hlen⟩ := reads_of_srcString hstr
  rw [digitText_length] at hlen
  have hscan := rleDecScan_decodes (out := []) hclosed hdec hr (by rw [Nat.zero_add, hlen]) (by simpa using hf)
  rw [hlen] at hscan
  exact exec_output_ok rfl ((outputRun_rleDec hok).trans hscan)

/-- Settles O29, by `exec_rleDec_decodes`. -/
theorem rleDecFollowsTheTwoModeWalk : Obligations.RleDecFollowsTheTwoModeWalk := by
  intro s ds out hinv hok hstr hdec hf
  obtain ⟨-, -, hclosed, -⟩ := hinv
  exact exec_rleDec_decodes hclosed hok hstr hdec hf

/-- Where the root is in the trie, an RLE_DEC that ends with DONE has read digits that the two-mode walk decodes, and
written the walk's output (R112). -/
theorem exec_rleDec_done {s t : State} (hroot : s.trie.has [] = true) (h : exec .rleDec s = .next t)
    (hdone : t.status.done = true) :
    ∃ ds out, s.srcString = some (digitText ds) ∧ RleDecodes s.trie ds out ∧ SucceedsOutput s t out := by
  rcases endOutput_eq_next.1 ((exec_eq .rleDec s).symm.trans h) with ⟨out, hrun, rfl⟩ | ⟨e, pos, -, rfl⟩
  · rw [outputRun_rleDec (outputRun_ranges hrun)] at hrun
    obtain ⟨ds, out, hr, hlen, hdec, rfl, -⟩ :=
      rleDecScan_eq_ok hroot (.inl rfl) (Nat.zero_le _) (Nat.sub_le _ _) (Nat.zero_le _) hrun
    rw [Nat.zero_add] at hlen
    exact ⟨ds, out, srcString_of_reads hr (by rw [digitText_length, hlen]), hdec, succeedsOutput_commit s _⟩
  · cases hdone

/-- Settles O30, by `exec_rleDec_done`. -/
theorem rleDecSucceedsOnlyByTheWalk : Obligations.RleDecSucceedsOnlyByTheWalk := by
  intro s t hinv h hdone
  obtain ⟨-, hroot, -⟩ := hinv
  exact exec_rleDec_done hroot h hdone

/-! ### Where the walk of RLE_DEC fails -/

theorem rleDecAt_iff {s : State} {leaves : List (List Digit × Bytes)} {w : List Digit} :
    rleDecAt s leaves w = true ↔ outputRangesOk s = true ∧ leafWords s.trie leaves = true ∧ s.trie.has w = true ∧
      (w = [] ∨ s.trie.isLeaf w = false) ∧ (leaves.flatMap (fun e => e.2)).length ≤ s.dstCap.toNat := by
  simp [rleDecAt, and_assoc]

/-- A byte that is no digit ends the scan (R112). -/
theorem rleDecScan_foreign {s : State} {n : Nat} {v : RleWalk} {c : Byte} (hlt : v.pos < s.srcLen.toNat)
    (hc : src s v.pos = .ok c) (hd : digitOf c = none) :
    rleDecScan s (n + 1) v = .raised .malformedRLEInput (wordOf v.pos) := by
  rw [rleDecScan, if_pos hlt, hc, Run.andThen_ok, hd]

/-- A leaf whose payload does not fit ends the scan (R112). -/
theorem rleDecScan_leaf_full {s : State} {n : Nat} {v : RleWalk} {d : Digit} {p : Bytes} (hlt : v.pos < s.srcLen.toNat)
    (hc : src s v.pos = .ok (digitChar d)) (hhas : s.trie.has (v.node ++ [d]) = true)
    (hleaf : s.trie.isLeaf (v.node ++ [d]) = true) (hp : s.trie.payload (v.node ++ [d]) = some p)
    (hfull : s.dstCap.toNat < v.out.length + p.length) :
    rleDecScan s (n + 1) v = .raised .allocationFailure (wordOf v.pos) := by
  have hdescend : rleDescend s v d = .raised .allocationFailure (wordOf v.pos) := by
    simp [rleDescend, hleaf, hp, append_full hfull]
  rw [rleDecScan, if_pos hlt, hc, Run.andThen_ok, digitOf_digitChar]
  simp only [hhas, if_true, hdescend, Run.andThen_raised]

/-- Where a text is followed by the end of the SRC range or by a byte that is no digit, a count ends there (R112). -/
theorem countEnd_of_text {s : State} {text : Bytes}
    (h : s.srcString = some text ∨ ∃ c : Byte, digitOf c = none ∧ srcStartsWith s (text ++ [c]) = true) :
    Reads s 0 text ∧ CountEnd s text.length := by
  rcases h with h | ⟨c, hd, h⟩
  · obtain ⟨hr, hlen⟩ := reads_of_srcString h
    exact ⟨hr, .inl hlen⟩
  · obtain ⟨hr, hlen⟩ := reads_of_startsWith h
    rw [reads_zero_append, reads_cons] at hr
    rw [List.length_append] at hlen
    exact ⟨hr.1, .inr ⟨hlen, c, hr.2.1, hd⟩⟩

theorem CountEnd.le {s : State} {e : Nat} (h : CountEnd s e) : e ≤ s.srcLen.toNat :=
  h.elim (fun h => h.le) (fun h => h.1.le)

section
variable {s : State} {leaves : List (List Digit × Bytes)} {w : List Digit} {d : Digit} {ds : List Digit}
  (hno : s.trie.has (w ++ [d]) = false) (hr : Reads s 0 (rleDecRead leaves w ++ digitText (d :: ds)))
  (hend : CountEnd s (rleDecRead leaves w ++ digitText (d :: ds)).length) (n : Nat)
include hno hr hend

/-- RLE_DEC's scan at a count on a node with no payload (R112). -/
theorem rleDecScan_noContext (hp : s.trie.payload w = none) :
    rleDecScan s (n + 1) (rleWalkAt leaves w) =
      .raised .invalidCountContext (wordOf (rleDecRead leaves w).length) := by
  rw [List.length_append, digitText_length] at hend
  rw [rleWalkAt, rleDecScan_count hno (reads_zero_append.1 hr).2 hend, hp]

/-- RLE_DEC's scan at a count on a node with a payload goes on behind the count (R112). -/
theorem rleDecScan_expand {p : Bytes} (hp : s.trie.payload w = some p) :
    rleDecScan s (n + 1) (rleWalkAt leaves w) =
      (append s.dstCap.toNat (leaves.flatMap (fun e => e.2)) (repeatBytes p (numberOf (d :: ds)))
        (rleDecRead leaves w).length).andThen fun out =>
          rleDecScan s n { node := [], pos := (rleDecRead leaves w ++ digitText (d :: ds)).length, out := out } := by
  rw [List.length_append, digitText_length] at hend ⊢
  rw [rleWalkAt, rleDecScan_count hno (reads_zero_append.1 hr).2 hend, hp]

end

section
variable {s : State} {leaves : List (List Digit × Bytes)} {w : List Digit}
  (hclosed : ∀ w d, s.trie.has (w ++ [d]) = true → s.trie.has w = true) (hat : rleDecAt s leaves w = true)
include hclosed hat

/-- RLE_DEC's scan comes to the walk that `rleDecAt` names (R112). -/
theorem rleDecScan_at (hr : Reads s 0 (rleDecRead leaves w)) (hlen : (rleDecRead leaves w).length ≤ s.srcLen.toNat)
    (n : Nat) :
    rleDecScan s ((rleDecRead leaves w).length + n) (rleWalkAt [] []) = rleDecScan s n (rleWalkAt leaves w) := by
  obtain ⟨-, hleaves, hhas, hinner, hf⟩ := rleDecAt_iff.1 hat
  rw [rleDecRead, digitText_append, reads_append, digitText_length] at hr
  rw [rleDecRead, digitText_length, List.length_append] at hlen
  have h1 := rleDecScan_leaves (fuel := w.length + n) (out := []) hclosed hleaves hr.1 (by omega) (by simpa using hf)
  have h2 := rleDecScan_descend (v := []) (fuel := n) (out := leaves.flatMap (fun e => e.2)) hclosed hhas hinner hr.2
    (by omega)
  rw [rleDecRead, digitText_length, List.length_append, Nat.add_assoc]
  refine (h1.trans h2).trans ?_
  rw [rleWalkAt, rleDecRead, digitText_length, List.length_append, Nat.zero_add]
  rfl

/-- RLE_DEC raises what its scan raises on the text behind the walk of `rleDecAt`. -/
theorem exec_rleDec_raised_at {text : Bytes} {e : ErrorKind} {p : Word} (hr : Reads s 0 (rleDecRead leaves w ++ text))
    (hlen : (rleDecRead leaves w ++ text).length ≤ s.srcLen.toNat)
    (h : ∀ n, rleDecScan s (text.length + n) (rleWalkAt leaves w) = .raised e p) :
    ∃ t, exec .rleDec s = .next t ∧ FailsOutput s t e.code p := by
  obtain ⟨n, hn⟩ := Nat.exists_eq_add_of_le hlen
  rw [List.length_append] at hlen hn
  refine exec_output_raised rfl ?_
  rw [outputRun_rleDec (rleDecAt_iff.1 hat).1, hn, Nat.add_assoc,
    rleDecScan_at hclosed hat (reads_zero_append.1 hr).1 (by omega), h, Run.andThen_raised]

/-- RLE_DEC where its input ends (R112). -/
theorem exec_rleDec_raised_end {e : ErrorKind} {p : Word} (hstr : s.srcString = some (rleDecRead leaves w))
    (h : rleDecEnd s (rleWalkAt leaves w) = .raised e p) :
    ∃ t, exec .rleDec s = .next t ∧ FailsOutput s t e.code p := by
  obtain ⟨hr, hlen⟩ := reads_of_srcString hstr
  have hscan := rleDecScan_at hclosed hat hr hlen.le 0
  rw [Nat.add_zero, hlen, rleDecScan] at hscan
  refine exec_output_raised rfl ?_
  rw [outputRun_rleDec (rleDecAt_iff.1 hat).1, hscan, Run.andThen_ok, h]

/-- RLE_DEC at a byte that is no digit (R112). -/
theorem exec_rleDec_foreign {c : Byte} (hd : digitOf c = none)
    (htext : srcStartsWith s (rleDecRead leaves w ++ [c]) = true) :
    ∃ t, exec .rleDec s = .next t ∧ FailsOutput s t 0x02 (wordOf (rleDecRead leaves w).length) := by
  obtain ⟨hr, hlen⟩ := reads_of_startsWith htext
  refine exec_rleDec_raised_at (e := .malformedRLEInput) hclosed hat hr hlen fun n => ?_
  rw [reads_zero_append, reads_cons] at hr
  rw [List.length_append] at hlen
  rw [List.length_singleton, Nat.add_comm]
  exact rleDecScan_foreign (v := rleWalkAt leaves w) hlen hr.2.1 hd

/-- RLE_DEC at a leaf whose payload does not fit (R112). -/
theorem exec_rleDec_leaf_full {d : Digit} {p : Bytes} (hhas : s.trie.has (w ++ [d]) = true)
    (hleaf : s.trie.isLeaf (w ++ [d]) = true) (hp : s.trie.payload (w ++ [d]) = some p)
    (htext : srcStartsWith s (rleDecRead leaves w ++ digitText [d]) = true)
    (hfull : s.dstCap.toNat < (leaves.flatMap (fun e => e.2)).length + p.length) :
    ∃ t, exec .rleDec s = .next t ∧ FailsOutput s t 0x01 (wordOf (rleDecRead leaves w).length) := by
  obtain ⟨hr, hlen⟩ := reads_of_startsWith htext
  refine exec_rleDec_raised_at (e := .allocationFailure) hclosed hat hr hlen fun n => ?_
  rw [reads_zero_append, digitText_cons, reads_cons] at hr
  rw [List.length_append] at hlen
  rw [digitText_length, List.length_singleton, Nat.add_comm]
  exact rleDecScan_leaf_full (v := rleWalkAt leaves w) hlen hr.2.1 hhas hleaf hp hfull

section
variable {d : Digit} {ds : List Digit} (hno : s.trie.has (w ++ [d]) = false)
include hno

/-- RLE_DEC at a count on a node with no payload (R112). -/
theorem exec_rleDec_noContext (hp : s.trie.payload w = none)
    (hr : Reads s 0 (rleDecRead leaves w ++ digitText (d :: ds)))
    (hend : CountEnd s (rleDecRead leaves w ++ digitText (d :: ds)).length) :
    ∃ t, exec .rleDec s = .next t ∧ FailsOutput s t 0x03 (wordOf (rleDecRead leaves w).length) := by
  refine exec_rleDec_raised_at (e := .invalidCountContext) hclosed hat hr hend.le fun n => ?_
  rw [digitText_length, List.length_cons, Nat.add_right_comm, rleDecScan_noContext hno hr hend _ hp]

/-- RLE_DEC at a count whose expansion does not fit (R112). -/
theorem exec_rleDec_count_full {p : Bytes} (hp : s.trie.payload w = some p)
    (hr : Reads s 0 (rleDecRead leaves w ++ digitText (d :: ds)))
    (hend : CountEnd s (rleDecRead leaves w ++ digitText (d :: ds)).length)
    (hfull : s.dstCap.toNat < (leaves.flatMap (fun e => e.2)).length + numberOf (d :: ds) * p.length) :
    ∃ t, exec .rleDec s = .next t ∧ FailsOutput s t 0x01 (wordOf (rleDecRead leaves w).length) := by
  refine exec_rleDec_raised_at (e := .allocationFailure) hclosed hat hr hend.le fun n => ?_
  rw [digitText_length, List.length_cons, Nat.add_right_comm, rleDecScan_expand hno hr hend _ hp,
    append_full (by rwa [repeatBytes_length]), Run.andThen_raised]

/-- RLE_DEC at the byte that is no digit behind a count whose expansion fits (R112). -/
theorem exec_rleDec_count_foreign {p : Bytes} {c : Byte} (hp : s.trie.payload w = some p) (hd : digitOf c = none)
    (htext : srcStartsWith s (rleDecRead leaves w ++ digitText (d :: ds) ++ [c]) = true)
    (hf : (leaves.flatMap (fun e => e.2)).length + numberOf (d :: ds) * p.length ≤ s.dstCap.toNat) :
    ∃ t, exec .rleDec s = .next t ∧
      FailsOutput s t 0x02 (wordOf (rleDecRead leaves w ++ digitText (d :: ds)).length) := by
  obtain ⟨hr, hend⟩ := countEnd_of_text (.inr ⟨c, hd, htext⟩)
  obtain ⟨hall, hlen⟩ := reads_of_startsWith htext
  have hc := (reads_cons.1 (reads_zero_append.1 hall).2).1
  rw [List.append_assoc] at hall hlen
  refine exec_rleDec_raised_at (e := .malformedRLEInput) hclosed hat hall hlen fun n => ?_
  rw [← List.append_assoc, List.length_append] at hlen
  have hfuel : (digitText (d :: ds) ++ [c]).length + n = ds.length + n + 1 + 1 := by
    rw [List.length_append, digitText_length, List.length_cons, List.length_singleton]
    omega
  rw [hfuel, rleDecScan_expand hno hr hend _ hp, append_ok (by rwa [repeatBytes_length]),
    Run.andThen_ok]
  exact rleDecScan_foreign hlen hc hd

end

/-- RLE_DEC whose input ends on an inner node with no payload (R112). -/
theorem exec_rleDec_truncated (hne : w ≠ []) (hstr : s.srcString = some (rleDecRead leaves w))
    (hp : s.trie.payload w = none) : ∃ t, exec .rleDec s = .next t ∧ FailsOutput s t 0x08 s.srcLen := by
  refine exec_rleDec_raised_end (e := .truncatedInput) hclosed hat hstr ?_
  simp [rleDecEnd, rleWalkAt, hne, hp]

/-- RLE_DEC whose input ends on an inner node with a payload that does not fit (R112). -/
theorem exec_rleDec_inner_full {p : Bytes} (hne : w ≠ []) (hstr : s.srcString = some (rleDecRead leaves w))
    (hp : s.trie.payload w = some p) (hfull : s.dstCap.toNat < (leaves.flatMap (fun e => e.2)).length + p.length) :
    ∃ t, exec .rleDec s = .next t ∧ FailsOutput s t 0x01 s.srcLen := by
  refine exec_rleDec_raised_end (e := .allocationFailure) hclosed hat hstr ?_
  simp [rleDecEnd, rleWalkAt, hne, hp, append_full hfull, wordOf]

end

/-- Settles O31: one lemma for each way in which the scan, or the end of the input, fails behind the walk of
`rleDecAt`. -/
theorem rleDecReportsTheFirstFailure : Obligations.RleDecReportsTheFirstFailure := by
  intro s leaves w hinv hat
  obtain ⟨-, -, hclosed, -⟩ := hinv
  refine ⟨fun c hd htext => exec_rleDec_foreign hclosed hat hd htext,
    fun d p hhas hleaf hp htext hfull => exec_rleDec_leaf_full hclosed hat hhas hleaf hp htext hfull,
    fun d ds hno htext => ?_, fun d ds c p hno hp hd htext hf => ?_, fun hne hstr => ?_⟩
  · obtain ⟨hr, hend⟩ := countEnd_of_text htext
    cases hp : s.trie.payload w with
    | none => exact exec_rleDec_noContext hclosed hat hno hp hr hend
    | some p => exact fun hfull => exec_rleDec_count_full hclosed hat hno hp hr hend hfull
  · have h := exec_rleDec_count_foreign hclosed hat hno hp hd htext hf
    rwa [List.length_append, digitText_length] at h
  · cases hp : s.trie.payload w with
    | none => exact exec_rleDec_truncated hclosed hat hne hstr hp
    | some p => exact exec_rleDec_inner_full hclosed hat hne hstr hp

end Sys2Proof.Machine
end

section
/-! The trie of a single key (O32, O33): its nodes are the prefixes of the key, and the key is its one leaf and its one
node with a payload. -/

namespace Sys2Proof.Machine

section
variable (key : List Digit) (pay : Bytes)

/-- The nodes of a single key's trie are the key's prefixes (R111). -/
theorem has_insertedTrie_bare (w : List Digit) : (insertedTrie Trie.bare key pay).has w = true ↔ w <+: key := by
  obtain ⟨hhas, -⟩ := insertedTrie_spec (t := Trie.bare) (key := key) (pay := pay) rfl rfl fun w d h => by
    simp [Trie.has_bare] at h
  rw [hhas, Trie.has_bare, Bool.or_eq_true, decide_eq_true_eq, List.isPrefixOf_iff_prefix]
  exact ⟨fun h => h.elim (fun h => h ▸ List.nil_prefix) id, .inr⟩

/-- A single key's trie has a payload at the key alone (R111). -/
theorem payload_insertedTrie_bare (w : List Digit) :
    (insertedTrie Trie.bare key pay).payload w = if w = key then some pay else none := by
  obtain ⟨-, hpayload, -⟩ := insertedTrie_spec (t := Trie.bare) (key := key) (pay := pay) rfl rfl fun w d h => by
    simp [Trie.has_bare] at h
  rw [hpayload, Trie.payload_bare]

/-- A single key's trie has the key as its leaf (R48). -/
theorem isLeaf_insertedTrie_bare : (insertedTrie Trie.bare key pay).isLeaf key = true := by
  refine (Trie.isLeaf_iff _ _).2 fun d => ?_
  rw [← Bool.not_eq_true, has_insertedTrie_bare]
  intro h
  simpa using h.length_le

/-- A single key's trie is closed under prefixes (R49). -/
theorem insertedTrie_bare_closed (w : List Digit) (d : Digit)
    (h : (insertedTrie Trie.bare key pay).has (w ++ [d]) = true) : (insertedTrie Trie.bare key pay).has w = true :=
  (has_insertedTrie_bare key pay w).2 ((List.prefix_append w [d]).trans ((has_insertedTrie_bare key pay _).1 h))

end

section
variable {key : List Digit} {pay : Bytes}

theorem payload_insertedTrie_bare_eq_some {w : List Digit} {p : Bytes}
    (h : (insertedTrie Trie.bare key pay).payload w = some p) : w = key ∧ p = pay := by
  rw [payload_insertedTrie_bare] at h
  split at h
  · next hw => exact ⟨hw, (Option.some.inj h).symm⟩
  · cases h

/-- With one non-empty key the two-mode walk decodes only repetitions of the key (R115). -/
theorem rleDecodes_single_key {ds : List Digit} {out : Bytes} (hne : key ≠ [])
    (h : RleDecodes (insertedTrie Trie.bare key pay) ds out) :
    ∃ n, ds = (List.replicate n key).flatten ∧ out = (List.replicate n pay).flatten := by
  have hleaf := isLeaf_insertedTrie_bare key pay
  induction h with
  | done => exact ⟨0, rfl, rfl⟩
  | leaf w p rest out _ _ _ hp _ ih =>
    obtain ⟨rfl, rfl⟩ := payload_insertedTrie_bare_eq_some hp
    obtain ⟨n, rfl, rfl⟩ := ih
    exact ⟨n + 1, by simp [List.replicate_succ], by simp [List.replicate_succ]⟩
  | inner w p _ _ hinner hp =>
    obtain ⟨rfl, -⟩ := payload_insertedTrie_bare_eq_some hp
    exact nomatch hleaf.symm.trans hinner
  | count w p d ds _ hw _ hp =>
    obtain ⟨rfl, -⟩ := payload_insertedTrie_bare_eq_some hp
    exact nomatch hleaf.symm.trans (hw.resolve_left hne)

/-- With the empty key alone the two-mode walk reads every input as one count (R115). -/
theorem rleDecodes_empty_key {ds : List Digit} {out : Bytes}
    (h : RleDecodes (insertedTrie Trie.bare [] pay) ds out) :
    out = if ds = [] then [] else repeatBytes pay (numberOf ds) := by
  cases h with
  | done => rfl
  | leaf w p rest out hw _ _ hp _ => exact absurd (payload_insertedTrie_bare_eq_some hp).1 hw
  | inner w p hw _ _ hp => exact absurd (payload_insertedTrie_bare_eq_some hp).1 hw
  | count w p d ds _ _ _ hp =>
    obtain ⟨rfl, rfl⟩ := payload_insertedTrie_bare_eq_some hp
    rfl

/-- CLR_TRIE and one successful TRIE_INSERT leave the trie of the key and the payload that the insert read. -/
theorem trie_of_single_insert {s0 s1 s2 s3 : State} (hclear : exec .clrTrie s0 = .next s1) (htrie : s2.trie = s1.trie)
    (hinsert : exec .trieInsert s2 = .next s3) (hdone : s3.status.done = true) (hpay : s2.auxString = some pay) :
    ∃ key, s2.srcString = some (digitText key) ∧ s3.trie = insertedTrie Trie.bare key pay := by
  rw [exec_clrTrie, Host.Outcome.next.injEq] at hclear
  subst hclear
  obtain ⟨key, p, hkey, hp, ht⟩ := exec_trieInsert_done hinsert hdone
  obtain rfl := Option.some.inj (hp.symm.trans hpay)
  exact ⟨key, hkey, by rw [ht, htrie]⟩

end

/-- Only the empty string has the empty run-length text (R109). -/
theorem rleText_eq_nil {str : Bytes} (h : rleText str = []) : str = [] := by
  cases str with
  | nil => rfl
  | cons c rest =>
    obtain ⟨r, hr⟩ := List.exists_mem_of_ne_nil _
      (List.splitBy_ne_nil (r := fun a b => a == b).2 (List.cons_ne_nil c rest))
    obtain ⟨d, m, rfl⟩ := (goodRuns_splitBy _).1 r hr
    have htoken := List.flatMap_eq_nil_iff.1 h _ hr
    rw [tokenOf_replicate] at htoken
    exact absurd htoken (List.cons_ne_nil _ _)

/-- RLE_DEC of a word that leads to a leaf whose payload does not fit raises at the word's last digit (R112). -/
theorem exec_rleDec_word_full {s : State} (hclosed : ∀ w d, s.trie.has (w ++ [d]) = true → s.trie.has w = true)
    {w : List Digit} {p : Bytes} (hne : w ≠ []) (hhas : s.trie.has w = true) (hleaf : s.trie.isLeaf w = true)
    (hp : s.trie.payload w = some p) (hok : outputRangesOk s = true) (hstr : s.srcString = some (digitText w))
    (hfull : s.dstCap.toNat < p.length) :
    ∃ t, exec .rleDec s = .next t ∧ FailsOutput s t 0x01 (s.srcLen - 1) := by
  obtain ⟨hr, hlen⟩ := reads_of_srcString hstr
  rw [digitText_length] at hlen
  have hscan := rleDecScan_leaf (fuel := 0) (out := []) hclosed hne hhas hleaf hp hr (by omega)
  rw [append_full (by simpa using hfull), Run.andThen_raised, Nat.add_zero, Nat.zero_add, hlen] at hscan
  have hpos : wordOf (s.srcLen.toNat - 1) = s.srcLen - 1 := by
    have := List.length_pos_iff.2 hne
    rw [wordOf]
    bv_omega
  refine exec_output_raised (e := .allocationFailure) rfl ?_
  rw [outputRun_rleDec hok, ← hpos]
  exact congrArg (·.andThen (rleDecEnd s)) hscan

/-- Settles O32: the key leads to the one leaf of the trie, whose payload is `b`; without a key there is nothing to
decode. -/
theorem singleKeyRoundTrip : Obligations.SingleKeyRoundTrip := by
  rintro s0 s1 s2 s3 s4 b hclear ⟨htrie, hsrc, hpay⟩ hinsert hdone ⟨htrie4, hok, hstr⟩
  obtain ⟨key, hkey, ht⟩ := trie_of_single_insert hclear htrie hinsert hdone hpay
  have htext : rleText b = digitText key := Option.some.inj (hsrc.symm.trans hkey)
  rw [htext] at hstr
  have ht4 : s4.trie = insertedTrie Trie.bare key b := htrie4.trans ht
  have hclosed := insertedTrie_bare_closed key b
  have hhas := (has_insertedTrie_bare key b key).2 (List.prefix_refl key)
  have hleaf := isLeaf_insertedTrie_bare key b
  have hp : (insertedTrie Trie.bare key b).payload key = some b := by rw [payload_insertedTrie_bare, if_pos rfl]
  rw [← ht4] at hclosed hhas hleaf hp
  have hb : key = [] → b = [] := fun h => rleText_eq_nil (by rw [htext, h]; rfl)
  split
  · next hf =>
    refine exec_rleDec_decodes hclosed hok hstr ?_ hf
    by_cases hne : key = []
    · rw [hb hne, hne]
      exact .done
    · simpa using RleDecodes.leaf key b [] [] hne hhas hleaf hp .done
  · next hfull =>
    have hne : key ≠ [] := fun h => hfull (by rw [hb h]; exact Nat.zero_le _)
    exact exec_rleDec_word_full hclosed hne hhas hleaf hp hok hstr (not_le.1 hfull)

/-- Settles O33: a success decodes by the two-mode walk (O30), and over a single key's trie that walk has only
repetitions of the key, or one count where the key is empty. -/
theorem singleKeyDecodesOnlyItsRepeats : Obligations.SingleKeyDecodesOnlyItsRepeats := by
  rintro s0 s1 s2 s3 s4 s5 key pay hclear ⟨htrie, hsrc, hpay⟩ hinsert hdone htrie4 hdec hdone5
  obtain ⟨key', hkey, ht⟩ := trie_of_single_insert hclear htrie hinsert hdone hpay
  obtain rfl : key' = key := digitText_injective (Option.some.inj (hkey.symm.trans hsrc))
  have ht4 : s4.trie = insertedTrie Trie.bare key' pay := htrie4.trans ht
  have hroot : s4.trie.has [] = true := by rw [ht4]; exact (has_insertedTrie_bare _ _ _).2 List.nil_prefix
  obtain ⟨ds, out, hstr, hwalk, hsucc⟩ := exec_rleDec_done hroot hdec hdone5
  rw [ht4] at hwalk
  split
  · next h =>
    subst h
    rw [rleDecodes_empty_key hwalk] at hsucc
    exact ⟨ds, hstr, hsucc⟩
  · next h =>
    obtain ⟨n, rfl, rfl⟩ := rleDecodes_single_key h hwalk
    exact ⟨n, hstr, hsucc⟩

end Sys2Proof.Machine
end

section
/-! The completion record of a command (O36). -/

namespace Sys2Proof.Machine

/-- Every kind but IllegalCommand has a code from 0x01 to 0x0A (R116). -/
theorem ErrorKind.code_range_of_command {e : ErrorKind} (he : e ≠ .illegalCommand) :
    0x01 ≤ e.code.toNat ∧ e.code.toNat ≤ 0x0A := by
  cases e with
  | illegalCommand => exact absurd rfl he
  | _ => decide

/-- Settles O36: of the four forms of a command's next state, two are successes and two are errors other than
IllegalCommand; what each does before its completion record leaves STATUS, and so DROP, as it was. -/
theorem completionRecordHasTwoForms : Obligations.CompletionRecordHasTwoForms := by
  intro i s t h
  rcases exec_eq_next h with ⟨-, out, -, -, rfl⟩ | ⟨-, e, pos, -, he, rfl⟩ | ⟨-, s', n, -, ⟨hframe, -, -⟩, rfl⟩ |
    ⟨-, e, pos, -, he, rfl⟩
  · exact .inl ⟨rfl, rfl⟩
  · obtain ⟨hlow, hhigh⟩ := ErrorKind.code_range_of_command he
    exact .inr ⟨e.code, hlow, hhigh, rfl, rfl⟩
  · rw [hframe]
    exact .inl ⟨rfl, rfl⟩
  · obtain ⟨hlow, hhigh⟩ := ErrorKind.code_range_of_command he
    exact .inr ⟨e.code, hlow, hhigh, rfl, rfl⟩

end Sys2Proof.Machine
end

section
/-! The step of an idle block (O7). -/

namespace Sys2Proof.Machine

/-- With BUSY = 0 and no event pending nobody moves (R131). -/
theorem turn_none_of_idle {s : State} (hb : s.status.busy = false) (hp : s.host.pending = []) : s.turn = none := by
  simp [State.turn, hb, hp]

/-- With BUSY = 0 a pending event makes the host move (R69). -/
theorem turn_host_of_idle {s : State} {e : HostEvent} {rest : List HostEvent} (hb : s.status.busy = false)
    (hp : s.host.pending = e :: rest) : s.turn = some .host := by
  simp [State.turn, hb, hp]

/-- With BUSY = 0 the turn uses up no choice of the schedule. -/
theorem takeTurn_of_idle {s : State} (hb : s.status.busy = false) : s.takeTurn = s := by
  simp [State.takeTurn, hb]

/-- The host's move is its oldest pending event, taken off the list (R69). -/
theorem hostMove_cons {s : State} {e : HostEvent} {rest : List HostEvent} (hp : s.host.pending = e :: rest) :
    hostMove s = hostEvent { s with host := { s.host with pending := rest } } e := by
  simp only [hostMove, hp]

/-- Settles O7: with BUSY = 0 the turn is nobody's or the host's, as an event is pending or not. -/
theorem idleBlockKeepsItsState : Obligations.IdleBlockKeepsItsState := by
  refine ⟨fun s hb hp => ?_, fun s e rest hb hp => ?_⟩
  · simp only [step, moveOf, turn_none_of_idle hb hp]
  · simp only [step, moveOf, turn_host_of_idle hb hp, takeTurn_of_idle hb, hostMove_cons hp]

end Sys2Proof.Machine
end

section
/-! The fault at an unwritten byte (O42): each scan stops with the fault of the byte it cannot read, and so does the
command whose scan has come there. -/

namespace Sys2Proof.Machine

/-- An output command stops with the fault of its pseudocode. -/
theorem exec_output_fault {i : Instr} {s : State} {x : Fault} (hi : isOutputCommand i = true)
    (h : outputRun i s = .fault x) : exec i s = .fault x := by
  rw [exec_eq, if_pos hi, h]
  rfl

/-- A command with no output stops with the fault of its pseudocode. -/
theorem exec_table_fault {i : Instr} {s : State} {x : Fault} (hi : isOutputCommand i = false)
    (h : tableRun i s = .fault x) : exec i s = .fault x := by
  rw [exec_eq, if_neg (by simp [hi]), h]
  rfl

/-! ### The next byte of a scan: where it faults, the scan stops with its fault (R137) -/

section
variable {s : State} {n i : Nat} {x : Fault} (hs : src s i = .fault x)
include hs

theorem readCode_fault : readCode s (n + 1) i = .fault x := by
  rw [readCode, hs, Run.andThen_fault]

theorem readKey_fault : readKey s (n + 1) i = .fault x := by
  rw [readKey, hs, Run.andThen_fault]

theorem hufEncScan_fault {out : Bytes} : hufEncScan s (n + 1) i out = .fault x := by
  rw [hufEncScan, hs, Run.andThen_fault]

theorem hufDecScan_fault {w : HufWalk} : hufDecScan s (n + 1) i w = .fault x := by
  rw [hufDecScan, hs, Run.andThen_fault]

theorem rleEncScan_fault {out : Bytes} (hlt : i < s.srcLen.toNat) : rleEncScan s (n + 1) i out = .fault x := by
  rw [rleEncScan, if_pos hlt, hs, Run.andThen_fault]

theorem rleDecScan_fault {w : List Digit} {out : Bytes} (hlt : i < s.srcLen.toNat) :
    rleDecScan s (n + 1) { node := w, pos := i, out := out } = .fault x := by
  rw [rleDecScan, if_pos hlt, hs, Run.andThen_fault]

end

/-- An output command stops at the first byte of its SRC range (R104, R105, R109, R112). -/
theorem outputRun_first_fault {i : Instr} {s : State} {x : Fault} (hi : isOutputCommand i = true)
    (hok : outputRangesOk s = true) (hlen : 0 < s.srcLen.toNat) (hs : src s 0 = .fault x) :
    outputRun i s = .fault x := by
  obtain ⟨n, hn⟩ := Nat.exists_eq_add_one.2 hlen
  cases i with
  | hufEnc => rw [outputRun_hufEnc hok, hn, hufEncScan_fault hs]
  | hufDec => rw [outputRun_hufDec hok, hn, hufDecScan_fault hs, Run.andThen_fault]
  | rleEnc => rw [outputRun_rleEnc hok, hn, rleEncScan_fault hs hlen]
  | rleDec =>
    have hscan : rleDecScan s (n + 1) (rleWalkAt [] []) = .fault x := rleDecScan_fault hs hlen
    rw [outputRun_rleDec hok, hn, hscan, Run.andThen_fault]
  | _ => exact nomatch hi

/-! ### The Huffman commands -/

/-- HUF_ENC stops at the byte behind bytes whose codes fit (R104). -/
theorem outputRun_hufEnc_fault {s : State} {pre : Bytes} {codes : List Code} {x : Fault}
    (hok : outputRangesOk s = true) (hlen : pre.length < s.srcLen.toNat) (hr : Reads s 0 pre)
    (hs : src s pre.length = .fault x) (hc : pre.map (codeAt s.ct) = codes.map some)
    (hf : (bitText codes).length ≤ s.dstCap.toNat) : outputRun .hufEnc s = .fault x := by
  obtain ⟨n, hrun⟩ := outputRun_hufEnc_after hok hlen hr hc hf
  rw [hrun, hufEncScan_fault hs]

/-- HUF_DEC stops at the character behind the walk of `hufDecAt` (R105). -/
theorem outputRun_hufDec_fault {s : State} {pairs : List (Code × Byte)} {part : Code} {j : BitVec 9} {x : Fault}
    (hat : hufDecAt s pairs part j = true) (hlen : (hufDecRead pairs part).length < s.srcLen.toNat)
    (hr : Reads s 0 (hufDecRead pairs part)) (hs : src s (hufDecRead pairs part).length = .fault x) :
    outputRun .hufDec s = .fault x := by
  obtain ⟨n, hn⟩ := Nat.exists_eq_add_of_lt hlen
  rw [outputRun_hufDec (hufDecAt_iff.1 hat).1, hn, Nat.add_assoc, hufDecScan_at hat hr, hufDecScan_fault hs,
    Run.andThen_fault]

/-! ### RLE_ENC -/

/-- RLE_ENC's scan stops at the byte behind the beginning of a run (R109). -/
theorem rleEncScan_run_fault {s : State} {fuel i m : Nat} {c : Byte} {out : Bytes} {x : Fault}
    (hr : Reads s i (List.replicate (m + 1) c)) (hlt : i + (m + 1) < s.srcLen.toNat)
    (hs : src s (i + (m + 1)) = .fault x) : rleEncScan s (fuel + 1) i out = .fault x := by
  rw [List.replicate_succ, reads_cons] at hr
  rw [Nat.add_comm m, ← Nat.add_assoc] at hs
  have hend : runEnd s c (s.srcLen.toNat - (i + 1)) (i + 1) = .fault x := runEnd_fault hr.2 (by omega) hs
  rw [rleEncScan, if_pos (by omega), hr.1, Run.andThen_ok, hend, Run.andThen_fault]

/-- RLE_ENC stops at the byte behind its input's beginning, where the tokens of the runs before the last one fit: the
last run may go on, so the scan has to read that byte (R109). -/
theorem outputRun_rleEnc_fault {s : State} {pre run : Bytes} {before : List Bytes} {x : Fault}
    (hok : outputRangesOk s = true) (hlen : pre.length < s.srcLen.toNat) (hr : Reads s 0 pre)
    (hs : src s pre.length = .fault x) (hruns : pre.splitBy (fun a b => a == b) = before ++ [run])
    (hf : (before.flatMap tokenOf).length ≤ s.dstCap.toNat) : outputRun .rleEnc s = .fault x := by
  have hg := goodRuns_splitBy pre
  have hpre := List.flatten_splitBy (fun a b => a == b) pre
  rw [hruns] at hg hpre
  subst hpre
  obtain ⟨c, m, rfl⟩ := hg.1 run (by simp)
  have hcount := goodRuns_length hg.1
  rw [List.length_append, List.length_singleton] at hcount
  obtain ⟨fuel, hfuel⟩ := Nat.exists_eq_add_of_lt (show before.length < s.srcLen.toNat by omega)
  have hprefix := rleEncScan_prefix (fuel := fuel + 1) (out := []) hg hr (by omega) (fun h => nomatch h)
    (by simpa using hf)
  rw [List.flatten_append, List.flatten_singleton] at hr hlen hs
  rw [List.length_append, List.length_replicate] at hlen hs
  rw [outputRun_rleEnc hok, hfuel, Nat.add_assoc, hprefix, Nat.zero_add]
  exact rleEncScan_run_fault (by simpa using (reads_append.1 hr).2) hlen hs

/-! ### RLE_DEC -/

/-- A count stops at the byte behind its first digits (R112). -/
theorem countRun_fault {s : State} {ds : List Digit} {j cnt : Nat} {x : Fault} (hr : Reads s j (digitText ds))
    (hlt : j + ds.length < s.srcLen.toNat) (hs : src s (j + ds.length) = .fault x) :
    countRun s (s.srcLen.toNat - j) j cnt = .fault x := by
  obtain ⟨k, hk⟩ := Nat.exists_eq_add_of_lt (show ds.length < s.srcLen.toNat - j by omega)
  rw [hk, Nat.add_assoc, countRun_prefix hr, countRun, hs, Run.andThen_fault]

/-- RLE_DEC's scan stops in a count at the byte behind its first digits (R112). -/
theorem rleDecScan_count_fault {s : State} {w : List Digit} {d : Digit} {ds : List Digit} {fuel pos : Nat} {out : Bytes}
    {x : Fault} (hno : s.trie.has (w ++ [d]) = false) (hr : Reads s pos (digitText (d :: ds)))
    (hlt : pos + (d :: ds).length < s.srcLen.toNat) (hs : src s (pos + (d :: ds).length) = .fault x) :
    rleDecScan s (fuel + 1) { node := w, pos := pos, out := out } = .fault x := by
  have hcount := countRun_fault (cnt := 0) hr hlt hs
  rw [digitText_cons, reads_cons] at hr
  rw [rleDecScan, if_pos (Nat.lt_of_le_of_lt (Nat.le_add_right _ _) hlt), hr.1, Run.andThen_ok, digitOf_digitChar]
  simp only [hno, Bool.false_eq_true, if_false, rleExpand, hcount, Run.andThen_fault]

section
variable {s : State} {leaves : List (List Digit × Bytes)} {w : List Digit} {x : Fault}
  (hclosed : ∀ w d, s.trie.has (w ++ [d]) = true → s.trie.has w = true) (hat : rleDecAt s leaves w = true)
include hclosed hat

/-- RLE_DEC stops where its scan stops behind the walk of `rleDecAt`. -/
theorem outputRun_rleDec_fault_at (hr : Reads s 0 (rleDecRead leaves w))
    (hlen : (rleDecRead leaves w).length < s.srcLen.toNat)
    (h : ∀ n, rleDecScan s (n + 1) (rleWalkAt leaves w) = .fault x) : outputRun .rleDec s = .fault x := by
  obtain ⟨n, hn⟩ := Nat.exists_eq_add_of_lt hlen
  rw [outputRun_rleDec (rleDecAt_iff.1 hat).1, hn, Nat.add_assoc, rleDecScan_at hclosed hat hr hlen.le, h,
    Run.andThen_fault]

/-- RLE_DEC stops at the byte behind the walk of `rleDecAt` (R112). -/
theorem outputRun_rleDec_fault (hr : Reads s 0 (rleDecRead leaves w))
    (hlen : (rleDecRead leaves w).length < s.srcLen.toNat) (hs : src s (rleDecRead leaves w).length = .fault x) :
    outputRun .rleDec s = .fault x :=
  outputRun_rleDec_fault_at hclosed hat hr hlen fun _ => rleDecScan_fault hs hlen

/-- RLE_DEC stops at the byte behind the first digits of a count behind the walk of `rleDecAt` (R112). -/
theorem outputRun_rleDec_count_fault {d : Digit} {ds : List Digit} (hno : s.trie.has (w ++ [d]) = false)
    (hr : Reads s 0 (rleDecRead leaves w ++ digitText (d :: ds)))
    (hlen : (rleDecRead leaves w).length + (d :: ds).length < s.srcLen.toNat)
    (hs : src s ((rleDecRead leaves w).length + (d :: ds).length) = .fault x) : outputRun .rleDec s = .fault x := by
  obtain ⟨hread, hdigits⟩ := reads_zero_append.1 hr
  exact outputRun_rleDec_fault_at hclosed hat hread (Nat.lt_of_le_of_lt (Nat.le_add_right _ _) hlen) fun _ =>
    rleDecScan_count_fault hno hdigits hlen hs

end

/-! ### CT_LOAD and TRIE_INSERT -/

/-- CT_LOAD stops at the byte behind characters it accepts (R99). -/
theorem runCtLoad_fault {s : State} {pre : Code} {x : Fault} (sym : Byte) (hsrc : s.srcOk = true)
    (hmax : s.srcLen.toNat ≤ Config.maxCodeLen) (hlen : pre.length < s.srcLen.toNat) (hr : Reads s 0 (ascii pre))
    (hs : src s pre.length = .fault x) : runCtLoad sym s = .fault x := by
  obtain ⟨n, hn⟩ := Nat.exists_eq_add_of_lt hlen
  rw [runCtLoad, checkSrc_ok hsrc, Run.andThen_ok, if_neg hmax.not_gt, hn, Nat.add_assoc, readCode_prefix hr,
    Nat.zero_add, readCode_fault hs, Run.andThen_fault, Run.andThen_fault]

/-- TRIE_INSERT stops at the byte behind the first digits of its key (R111). -/
theorem runTrieInsert_key_fault {s : State} {pre : List Digit} {x : Fault} (hsrc : s.srcOk = true)
    (haux : s.auxOk = true) (hlen : pre.length < s.srcLen.toNat) (hr : Reads s 0 (digitText pre))
    (hs : src s pre.length = .fault x) : runTrieInsert s = .fault x := by
  obtain ⟨n, hn⟩ := Nat.exists_eq_add_of_lt hlen
  rw [runTrieInsert, checkSrcAux_ok hsrc haux, Run.andThen_ok, hn, Nat.add_assoc, readKey_prefix hr,
    Nat.zero_add, readKey_fault hs, Run.andThen_fault, Run.andThen_fault]

/-- TRIE_INSERT stops where its payload scan stops, once the key's nodes and the payload have room (R111). -/
theorem runTrieInsert_aux_fault {s : State} {key : List Digit} {x : Fault} (hsrc : s.srcOk = true)
    (haux : s.auxOk = true) (hkey : s.srcString = some (digitText key))
    (hnodes : s.trieUsed + (key.length - s.trie.longestPrefix key key.length) ≤ s.params.trieNodes)
    (hbytes : s.payUsed + s.auxLen.toNat ≤ s.params.payBytes) (hpay : readAux s s.auxLen.toNat 0 = .fault x) :
    runTrieInsert s = .fault x := by
  rw [runTrieInsert, checkSrcAux_ok hsrc haux, Run.andThen_ok, readKey_eq_ok_iff_srcString.2 hkey, Run.andThen_ok, hpay]
  exact (if_neg hnodes.not_gt).trans (if_neg hbytes.not_gt)

/-- The payload scan stops at the unwritten byte of the AUX range (R137). -/
theorem readAux_of_unwrittenAfter {s : State} {pre : Bytes} (h : auxUnwrittenAfter s pre = true) :
    readAux s s.auxLen.toNat 0 = .fault (.unwrittenByte (s.auxBase.toNat + pre.length)) := by
  simp only [auxUnwrittenAfter, Bool.and_eq_true, decide_eq_true_eq] at h
  obtain ⟨⟨hpre, hlen⟩, hnone⟩ := h
  have hfault := readAux_fault (k := 0) hlen hpre (by rwa [Nat.zero_add])
  rwa [Nat.zero_add] at hfault

/-! ### The host -/

/-- A buffer-port read of an unwritten byte below BUF_BYTES stops with the model's fault (R137). -/
theorem hostBufRead_unwritten {s : State} {a : Nat} (hb : s.status.busy = false) (ha : a < s.params.bufBytes)
    (hv : s.buf.read a = none) : hostBufRead s a = .fault (.unwrittenByte a) := by
  simp [hostBufRead, hb, ha, hv]

/-- Settles O42: in each clause the scan comes to the byte by the lemma for what it has read before, and the read of
that byte is the fault. -/
theorem unwrittenBytesFault : Obligations.UnwrittenBytesFault := by
  refine ⟨fun i s hi hok hlen hnone => ?_, fun s pre codes hok hun hc hf => ?_, fun s pairs part j hat hun => ?_,
    fun s pre run before hok hun hruns hf => ?_, fun s leaves w hinv hat => ?_, fun sym s pre hsrc hmax hun => ?_,
    fun s pre hsrc haux hun => ?_, fun s key l0 pre hsrc haux hkey hl hprefix hnodes hbytes hun => ?_,
    fun s a rest hb ha hv => ?_⟩
  · exact exec_output_fault hi (outputRun_first_fault hi hok hlen (by simp [src, State.memRead, hnone]))
  · obtain ⟨hr, hlen, hs⟩ := reads_of_unwrittenAfter hun
    exact exec_output_fault rfl (outputRun_hufEnc_fault hok hlen hr hs hc hf)
  · obtain ⟨hr, hlen, hs⟩ := reads_of_unwrittenAfter hun
    exact exec_output_fault rfl (outputRun_hufDec_fault hat hlen hr hs)
  · obtain ⟨hr, hlen, hs⟩ := reads_of_unwrittenAfter hun
    exact exec_output_fault rfl (outputRun_rleEnc_fault hok hlen hr hs hruns hf)
  · obtain ⟨-, -, hclosed, -⟩ := hinv
    refine ⟨fun hun => ?_, fun d ds hno hun => ?_⟩
    · obtain ⟨hr, hlen, hs⟩ := reads_of_unwrittenAfter hun
      exact exec_output_fault rfl (outputRun_rleDec_fault hclosed hat hr hlen hs)
    · obtain ⟨hr, hlen, hs⟩ := reads_of_unwrittenAfter hun
      rw [List.length_append, digitText_length] at hlen hs
      exact exec_output_fault rfl (outputRun_rleDec_count_fault hclosed hat hno hr hlen hs)
  · obtain ⟨hr, hlen, hs⟩ := reads_of_unwrittenAfter hun
    rw [ascii_length] at hlen hs
    exact exec_table_fault (i := .ctLoad sym) rfl (runCtLoad_fault sym hsrc hmax hlen hr hs)
  · obtain ⟨hr, hlen, hs⟩ := reads_of_unwrittenAfter hun
    rw [digitText_length] at hlen hs
    exact exec_table_fault (i := .trieInsert) rfl (runTrieInsert_key_fault hsrc haux hlen hr hs)
  · obtain rfl := Trie.longestPrefix_eq hl hprefix
    exact exec_table_fault (i := .trieInsert) rfl
      (runTrieInsert_aux_fault hsrc haux hkey hnodes hbytes (readAux_of_unwrittenAfter hun))
  · rw [step_host (hostsTurn_idle hb)]
    exact hostBufRead_unwritten hb ha hv

end Sys2Proof.Machine
end

section
/-! The result registers and flags (O60), hardware reset (O56) and the host obligations (O52, O53). -/

namespace Sys2Proof.Machine

/-! ### Result registers and flags -/

/-- `t` has the result registers of `s`: OUT_LEN and ERR_POS. -/
def SameResult (s t : State) : Prop := t.outLen = s.outLen ∧ t.errPos = s.errPos

/-- `t` has the result flags of `s`: DONE, ERR and ERRCODE. -/
def SameFlags (s t : State) : Prop :=
  t.status.done = s.status.done ∧ t.status.err = s.status.err ∧ t.status.errCode = s.status.errCode

/-- The one register write that reaches the result registers is the soft reset (R30). -/
theorem writeReg_keeps_result {s : State} {r : Reg} {v : Word} (h : r = .ctrl → v.getLsbD 1 = false) :
    SameResult s (writeReg s r v) := by
  cases r with
  | ctrl => rw [writeReg_ctrl_ie s (h rfl)]; exact ⟨rfl, rfl⟩
  | cmd =>
    simp only [writeReg, writeCmd]
    split <;> exact ⟨rfl, rfl⟩
  | _ => exact ⟨rfl, rfl⟩

/-- A register write that is neither a soft reset nor a write of STATUS or CMD leaves the result flags. -/
theorem writeReg_keeps_flags {s : State} {r : Reg} {v : Word} (h : r = .ctrl → v.getLsbD 1 = false)
    (hstatus : r ≠ .status) (hcmd : r ≠ .cmd) : SameFlags s (writeReg s r v) := by
  cases r with
  | ctrl => rw [writeReg_ctrl_ie s (h rfl)]; exact ⟨rfl, rfl, rfl⟩
  | status => exact absurd rfl hstatus
  | cmd => exact absurd rfl hcmd
  | _ => exact ⟨rfl, rfl, rfl⟩

/-- An aligned write that is no reset writes CTRL, if at all, with bit 1 = 0 (R132). -/
theorem ctrl_bit_of_not_reset {off : BitVec 12} {v : Word} (hm : off.toNat % 4 = 0)
    (hr : isReset (.regWrite 4 off v) = false) (hctrl : Reg.ofOffset off = .ctrl) : v.getLsbD 1 = false := by
  simpa [isReset, (ofOffset_inv hm).1 hctrl] using hr

/-- A host event that is no reset leaves the result registers. -/
theorem hostEvent_keeps_result {s t : State} {e : HostEvent} (h : hostEvent s e = .next t)
    (hr : isReset e = false) : SameResult s t := by
  rcases event_cases h with ⟨rfl, -⟩ | ⟨off, v, rfl, hm, -, rfl⟩ | ⟨a, v, -, -, rfl⟩ | ⟨_, rfl⟩
  · exact nomatch hr
  · exact writeReg_keeps_result (ctrl_bit_of_not_reset hm hr)
  · exact ⟨rfl, rfl⟩
  · exact ⟨rfl, rfl⟩

/-- The host events that may change the result flags: a reset, a STATUS write and a CMD write. -/
def touchesFlags (e : HostEvent) : Prop :=
  isReset e = true ∨ ∃ v, e = .regWrite 4 0x008 v ∨ e = .regWrite 4 0x00C v

/-- Every other host event leaves the result flags. -/
theorem hostEvent_keeps_flags {s t : State} {e : HostEvent} (h : hostEvent s e = .next t)
    (hother : ¬ touchesFlags e) : SameFlags s t := by
  obtain ⟨hreset, hwrite⟩ := not_or.1 hother
  have hr : isReset e = false := Bool.of_not_eq_true hreset
  rcases event_cases h with ⟨rfl, -⟩ | ⟨off, v, rfl, hm, -, rfl⟩ | ⟨a, v, -, -, rfl⟩ | ⟨_, rfl⟩
  · exact nomatch hr
  · obtain ⟨-, hstatus, hcmd⟩ := ofOffset_inv hm
    exact writeReg_keeps_flags (ctrl_bit_of_not_reset hm hr)
      (fun hreg => hwrite ⟨v, .inl (by rw [hstatus hreg])⟩) (fun hreg => hwrite ⟨v, .inr (by rw [hcmd hreg])⟩)
  · exact ⟨rfl, rfl, rfl⟩
  · exact ⟨rfl, rfl, rfl⟩

/-- Settles O60, by the cases of a step: where the engine does not move, a change comes from a host event, and only the
events named reach the registers or the flags. -/
theorem resultRegistersChangeOnlyAtCompletion : Obligations.ResultRegistersChangeOnlyAtCompletion := by
  intro s t h
  rcases step_cases h with ⟨-, rfl⟩ | ⟨hturn, -⟩ | ⟨hturn, e, rest, hpend, hevent⟩
  · simp
  · exact ⟨fun _ => .inl hturn, fun _ => .inl hturn⟩
  · have hresult (hr : isReset e = false) : SameResult s t := by
      simpa [SameResult] using hostEvent_keeps_result hevent hr
    have hflags (hother : ¬ touchesFlags e) : SameFlags s t := by
      simpa [SameFlags] using hostEvent_keeps_flags hevent hother
    refine ⟨fun hne => .inr ⟨hturn, e, rest, hpend, Bool.of_not_eq_false fun hr => ?_⟩,
      fun hne => .inr ⟨hturn, e, rest, hpend, not_not.1 fun hother => ?_⟩⟩
    · obtain ⟨hout, hpos⟩ := hresult hr
      exact hne.elim (absurd hout) (absurd hpos)
    · obtain ⟨hdone, herr, hcode⟩ := hflags hother
      exact hne.elim (absurd hdone) (Or.elim · (absurd herr) (absurd hcode))

/-! ### Hardware reset -/

/-- At the host's turn hardware reset gives the reset state, whatever BUSY is (R132, R133). -/
theorem step_hardReset {s : State} (rest : List HostEvent) (ht : hostsTurn s = true) :
    step (withEvents s .hardReset rest) =
      .next (State.resetWith s.params s.draws { pending := rest, schedule := scheduleAfter s, reply := .none }) :=
  step_host ht _ _

/-- Settles O56, by `step_hardReset`. -/
theorem hardwareResetAtAnyTime : Obligations.HardwareResetAtAnyTime :=
  fun _ rest ht => step_hardReset rest ht

/-! ### The host obligations -/

/-- A register read while BUSY = 1 is refused where it is no STATUS read (R138). -/
theorem step_regRead_busy {s : State} {off : BitVec 12} (rest : List HostEvent) (ht : hostsTurn s = true)
    (hm : off.toNat % 4 = 0) (hb : s.status.busy = true) (hr : Reg.ofOffset off ≠ .status) :
    step (withEvents s (.regRead 4 off) rest) = .refused .busyAccess := by
  rw [step_host ht]
  simp only [hostEvent, hostRegRead, accessFormOk_word hm, hb]
  rw [if_neg (by simp), if_pos (by simpa using hr)]

/-- Settles O52: a register access by the rule that lets it through or the one that refuses it, and the buffer port by
the last clause of O51. -/
theorem busyObligationRefusesAccesses : Obligations.BusyObligationRefusesAccesses := by
  intro s off v a b rest hb hsched hm
  have ht := hostsTurn_scheduled hsched
  obtain ⟨-, hstatus, hcmd⟩ := ofOffset_inv hm
  obtain ⟨-, -, hport⟩ := bufferPortMovesOneByte
  obtain ⟨hread, hwrite⟩ := hport s a b rest hb hsched
  refine ⟨?_, ?_, hread, hwrite, _, step_hardReset rest ht⟩
  · split
    · next h => exact ⟨_, step_regRead rest ht hm fun _ => h ▸ rfl⟩
    · next h => exact step_regRead_busy rest ht hm hb (mt hstatus h)
  · split
    · next h => exact ⟨_, step_regWrite v rest ht hm fun _ => h ▸ rfl⟩
    · next h => exact step_regWrite_busy v rest ht hm hb (mt hcmd h)

theorem accessFormOk_eq_false {size : Nat} {off : BitVec 12} :
    accessFormOk size off = false ↔ size ≠ 4 ∨ off.toNat % 4 ≠ 0 := by
  simp [accessFormOk, ← not_and_or]

/-- A register read is refused for its form exactly where its form is wrong (R139). -/
theorem hostRegRead_refuses_form {s : State} {size : Nat} {off : BitVec 12} :
    hostRegRead s size off = .refused .accessForm ↔ accessFormOk size off = false := by
  unfold hostRegRead
  cases accessFormOk size off with
  | false => simp
  | true =>
    simp only [Bool.not_true, Bool.false_eq_true, if_false]
    split <;> simp

/-- A register write is refused for its form exactly where its form is wrong (R139). -/
theorem hostRegWrite_refuses_form {s : State} {size : Nat} {off : BitVec 12} {v : Word} :
    hostRegWrite s size off v = .refused .accessForm ↔ accessFormOk size off = false := by
  unfold hostRegWrite
  cases accessFormOk size off with
  | false => simp
  | true =>
    simp only [Bool.not_true, Bool.false_eq_true, if_false]
    split <;> simp

/-- A buffer-port read is never refused for its form. -/
theorem hostBufRead_not_accessForm {s : State} {a : Nat} : hostBufRead s a ≠ .refused .accessForm := by
  unfold hostBufRead
  split
  · simp
  split
  · split <;> simp
  · simp

/-- A buffer-port write is never refused for its form. -/
theorem hostBufWrite_not_accessForm {s : State} {a : Nat} {v : Byte} :
    hostBufWrite s a v ≠ .refused .accessForm := by
  unfold hostBufWrite
  split
  · simp
  split <;> simp

/-- Settles O53: the step is the host's event, and the event is refused for its form exactly where `accessFormOk`
says so. -/
theorem accessObligationRefusesForms : Obligations.AccessObligationRefusesForms := by
  intro s size off v a b rest ht
  simp only [step_host ht, ← accessFormOk_eq_false]
  exact ⟨hostRegRead_refuses_form, hostRegWrite_refuses_form, hostBufRead_not_accessForm,
    hostBufWrite_not_accessForm⟩

end Sys2Proof.Machine
end
